-- ==== Sys2Proof/Word.lean ====
section
/-!
DEFINITION. The bit-vector types of the SFMT core (spec/00_scope.md R12, R13): a byte, a 32-bit lane, a 128-bit word.
Everything that takes a word apart (lanes, byte shifts, byte order) stands in Machine/Ops.lean and Machine/Recursion.lean.
-/

namespace Sys2Proof

/-- Eight bits: one byte of the identification string, of the fill pattern, or of XMEM seen as bytes (R52). -/
abbrev Byte := BitVec 8

/-- A *lane*: 32 bits, unsigned, arithmetic modulo 2^32 (R12, R13). -/
abbrev Lane := BitVec 32

/-- A *word*: 128 bits, four lanes, lane 0 least significant (R13). -/
abbrev Word := BitVec 128

end Sys2Proof
end

