-- ==== Sys2Proof/Config.lean ====
section
/-!
DEFINITION. The compile-time configuration of a core (spec/00_scope.md R5 to R8) with the constraints the spec puts on
it, its derived constants, the spec's two example configurations REF and TOY, and the one open choice of the build.
The source gives no value of any field (D4): every function of the model takes the configuration from its argument, and
no theorem can see which configuration `Config.build` is.
-/

namespace Sys2Proof

/-- The record `Config` of R5. `n`, `pos1`, `sl1`, `sl2`, `sr1`, `sr2`, `msk`, `parity`, `idstr`, `fillByte`, `func2Premix`
and `xlanes` are the spec's `N`, `POS1`, `SL1`, `SL2`, `SR1`, `SR2`, `MSK`, `PARITY`, `IDSTR`, `FILL_BYTE`, `FUNC2_PREMIX`
and `XLANES`. The proof fields are R5's column "constraint": a configuration that breaks one cannot be written down. -/
structure Config where
  /-- Mersenne exponent: informative, used by no rule (R7). -/
  mexp : Nat
  /-- number of 128-bit words of state -/
  n : Nat
  /-- lag offset in words -/
  pos1 : Nat
  /-- left shift in bits inside each lane -/
  sl1 : Nat
  /-- left shift in bytes of the whole word -/
  sl2 : Nat
  /-- right shift in bits inside each lane -/
  sr1 : Nat
  /-- right shift in bytes of the whole word -/
  sr2 : Nat
  /-- the mask word, lane by lane -/
  msk : Vector Lane 4
  /-- the four parity words of Period Certification -/
  parity : Vector Lane 4
  /-- the identification string, an opaque byte string (R164) -/
  idstr : List Byte
  /-- byte pattern of key-array seeding pass (a), R125 -/
  fillByte : Byte
  /-- whether func2 applies `x ^ (x >> 27)` before the multiply, R131 -/
  func2Premix : Bool
  /-- size of XMEM in lanes, R50 -/
  xlanes : Nat
  nRange : 2 ≤ n ∧ n ≤ 2 ^ 30 - 1
  pos1Range : 1 ≤ pos1 ∧ pos1 ≤ n - 1
  shiftRange : sl1 ≤ 31 ∧ sl2 ≤ 15 ∧ sr1 ≤ 31 ∧ sr2 ≤ 15
  parityNonzero : parity ≠ #v[0, 0, 0, 0]
  xlanesRange : xlanes ≤ 2 ^ 32 ∧ xlanes % 4 = 0
  deriving DecidableEq, Repr

/-- `N32 = 4 * N`, the number of lanes of state (R6). -/
def Config.n32 (c : Config) : Nat := 4 * c.n

/-- `N64 = N32 / 2`, the number of 64-bit lanes of state (R6). -/
def Config.n64 (c : Config) : Nat := c.n32 / 2

/-- `IDLEN`, the length of `IDSTR` in bytes (R6). -/
def Config.idlen (c : Config) : Nat := c.idstr.length

/-- The spec's small example configuration TOY (R5), with the XMEM of 128 lanes that spec/95_test_vectors.md uses most.
`IDSTR` is `TOY-509:2-3-1-5-1` in ASCII (GK13). R5 gives TOY no `MEXP`; the 509 here is the number in its id string: DESIGN
CHOICE, log entry 22. -/
def Config.toy : Config where
  mexp := 509
  n := 4
  pos1 := 2
  sl1 := 3
  sl2 := 1
  sr1 := 5
  sr2 := 1
  msk := #v[0xfffffff7, 0xffffefff, 0xfdffffff, 0x7fffffff]
  parity := #v[0x00000000, 0x00000010, 0x00000000, 0x80000001]
  idstr := [0x54, 0x4f, 0x59, 0x2d, 0x35, 0x30, 0x39, 0x3a, 0x32, 0x2d, 0x33, 0x2d, 0x31, 0x2d, 0x35, 0x2d, 0x31]
  fillByte := 0x8b
  func2Premix := false
  xlanes := 128
  nRange := by decide
  pos1Range := by decide
  shiftRange := by decide
  parityNonzero := by decide
  xlanesRange := by decide

/-- TOY with an XMEM of 64 lanes (spec/95_test_vectors.md V-REJ, P5, P6). -/
def Config.toy64 : Config := { Config.toy with xlanes := 64, xlanesRange := by decide }

/-- TOY with `FUNC2_PREMIX = true` (spec/95_test_vectors.md V-ARR-4). -/
def Config.toyPremix : Config := { Config.toy with func2Premix := true }

/-- The spec's example configuration REF (R5; its values are from general knowledge, GK1), with the XMEM of program P3.
`IDSTR` is `SFMT-19937:122-18-1-11-1:dfffffef-ddfecb7f-bffaffff-bffffff6` in ASCII. -/
def Config.ref : Config where
  mexp := 19937
  n := 156
  pos1 := 122
  sl1 := 18
  sl2 := 1
  sr1 := 11
  sr2 := 1
  msk := #v[0xdfffffef, 0xddfecb7f, 0xbffaffff, 0xbffffff6]
  parity := #v[0x00000001, 0x00000000, 0x00000000, 0x13c9e684]
  idstr :=
    [0x53, 0x46, 0x4d, 0x54, 0x2d, 0x31, 0x39, 0x39, 0x33, 0x37, 0x3a, 0x31, 0x32, 0x32, 0x2d, 0x31, 0x38, 0x2d, 0x31, 0x2d] ++
    [0x31, 0x31, 0x2d, 0x31, 0x3a, 0x64, 0x66, 0x66, 0x66, 0x66, 0x66, 0x65, 0x66, 0x2d, 0x64, 0x64, 0x66, 0x65, 0x63, 0x62] ++
    [0x37, 0x66, 0x2d, 0x62, 0x66, 0x66, 0x61, 0x66, 0x66, 0x66, 0x66, 0x2d, 0x62, 0x66, 0x66, 0x66, 0x66, 0x66, 0x66, 0x36]
  fillByte := 0x8b
  func2Premix := false
  xlanes := 4096
  nRange := by decide
  pos1Range := by decide
  shiftRange := by decide
  parityNonzero := by decide
  xlanesRange := by decide

/-- Which configuration the build selected: OPEN in the spec (D4). Nothing in Lean can evaluate it, so a claim about
`Config.build` holds for every configuration. Log entry 1. -/
opaque Config.choice : Option Config

/-- The configuration of the core as built (R5: "One configuration is selected per build; it never varies at runtime").
TOY only makes the definition total: no proof can tell whether it is the one chosen. -/
def Config.build : Config := Config.choice.getD Config.toy

end Sys2Proof
end

