-- ==== Sys2Proof/Syntax.lean ====
section
/-!
DEFINITION. The syntax of everything a host can ask of the core: the twelve commands (spec/30_encoding.md R74), the raw
command word (R70), the eight host registers (spec/10_state.md R30), the host events and pseudo-instructions of a host
script (R80, R81), and the turns by which a script fixes the order of host events and micro-steps (spec/00_scope.md R10).
-/

namespace Sys2Proof

/-- The twelve commands of R74, one constructor per row of spec/opcode_table.json. A command carries no operand: the
operands are the registers `A0` and `A1` (R72). -/
inductive Instr where
  /-- IDLEN, R160 -/
  | idlen
  /-- IDBYTE, R161 -/
  | idbyte
  /-- MINSZ32, R162 -/
  | minsz32
  /-- MINSZ64, R163 -/
  | minsz64
  /-- FILL32, R100 -/
  | fill32
  /-- FILL64, R101 -/
  | fill64
  /-- SEED, R120 -/
  | seed
  /-- SEEDARR, R122 -/
  | seedarr
  /-- CMPEQ, R154 -/
  | cmpeq
  /-- CMPNE, R155 -/
  | cmpne
  /-- EXPORT, R152 -/
  | exportImage
  /-- IMPORT, R153 -/
  | importImage
  deriving DecidableEq, Repr

/-- The command word format `CW` of R70: the opcode in bits 3:0, the reserved field in bits 31:4. -/
structure CommandWord where
  op : BitVec 4
  rsv : BitVec 28
  deriving DecidableEq, Repr

/-- Why a command word is illegal (R75): a reserved bit is set, or the opcode is none of the twelve. -/
inductive DecodeError where
  | reservedBits
  | unassignedOp
  deriving DecidableEq, Repr

/-- The eight host registers of R30. -/
inductive HostReg where
  | cmd | a0 | a1 | result | status | cursor | errcmd | errinfo
  deriving DecidableEq, Repr

/-- One primitive statement of a host script (R80): one host event. Registers are named by their byte offset (R30), lanes
of XMEM by their lane address (R50). -/
inductive HostEvent where
  /-- `WR reg, v`: a 32-bit write of `v` at byte offset `off` of the register block. -/
  | wr (off : Nat) (v : Lane)
  /-- `RD reg`: a 32-bit read at byte offset `off`. -/
  | rd (off : Nat)
  /-- `WAIT`: repeat `RD STATUS` until `BUSY` reads 0. -/
  | wait
  /-- `XWR a, v`: host write of lane `X[a]`. -/
  | xwr (a : Nat) (v : Lane)
  /-- `XRD a`: host read of lane `X[a]`. -/
  | xrd (a : Nat)
  /-- `RESET`: assert and release the reset input (R190). -/
  | reset
  deriving DecidableEq, Repr

/-- Who moves next. A list of turns is one total order of host events and micro-steps (R10, R61). -/
inductive Turn where
  /-- the host performs one event (micro-step level) -/
  | host (e : HostEvent)
  /-- the core performs one micro-step, if a command is running (micro-step level) -/
  | core
  /-- the host writes `w` to `CMD` and the command runs to its completion, as ONE atomic transition (the command level
  of R10) -/
  | command (w : Lane)
  deriving DecidableEq, Repr

/-- The command statements of R81, which expand to primitive statements, and `XFILL`. -/
inductive Pseudo where
  | idlen
  | idbyte (k : Lane)
  | minsz32
  | minsz64
  | fill32 (n b : Lane)
  | fill64 (n b : Lane)
  | seed (s : Lane)
  | seedarr (len b : Lane)
  | cmpeq (b : Lane)
  | cmpne (b : Lane)
  | exportImage (b : Lane)
  | importImage (b : Lane)
  | xfill (a : Nat) (vs : List Lane)
  deriving DecidableEq, Repr

end Sys2Proof
end

