-- ==== Sys2Proof/WellFormed.lean ====
section
/-!
DEFINITION. Which command words, host events and scripts are well formed. A command (`Instr`) has no operand field (R72), so
every `Instr` is well formed; what can be ill formed is the 32-bit word that is to name one, and a host access to a place
that does not exist.
-/

namespace Sys2Proof

/-- R70, R75: the reserved field must be 0 and the opcode one of 1 to 12. -/
def CommandWord.wellFormed (cw : CommandWord) : Bool :=
  cw.rsv == 0 && decide (1 ≤ cw.op.toNat) && decide (cw.op.toNat ≤ 12)

/-- R30: the register block has eight 32-bit registers at byte offsets 0x00 to 0x1C, and every access is aligned. -/
def registerOffsetOk (off : Nat) : Bool := off % 4 == 0 && decide (off ≤ 0x1C)

/-- R50: a lane address is a natural number below `XLANES`. -/
def laneAddressOk (c : Config) (a : Nat) : Bool := decide (a < c.xlanes)

/-- A host event is well formed when the register or the lane it names exists. -/
def HostEvent.wellFormed (c : Config) : HostEvent → Bool
  | .wr off _ => registerOffsetOk off
  | .rd off => registerOffsetOk off
  | .wait => true
  | .xwr a _ => laneAddressOk c a
  | .xrd a => laneAddressOk c a
  | .reset => true

/-- A turn is well formed when its host event is. An illegal command word is no ill-formed turn: the core rejects it
with a cause (R75). -/
def Turn.wellFormed (c : Config) : Turn → Bool
  | .host e => e.wellFormed c
  | .core => true
  | .command _ => true

/-- Every turn of the script is well formed. -/
def scriptWellFormed (c : Config) (ts : List Turn) : Bool := ts.all (Turn.wellFormed c)

end Sys2Proof
end

