-- ==== Sys2Proof/Decode.lean ====
section
/-!
DEFINITION. Decoding of command words (spec/30_encoding.md R70, R71, R74, R75), total on every 32-bit value and refusing by
name; after it the encoder, written from the same opcode map; and the byte offsets of the host registers (spec/10_state.md
R30).
-/

namespace Sys2Proof

/-- R70: the two fields of a command word. -/
def CommandWord.ofBits (w : Lane) : CommandWord where
  op := w.extractLsb' 0 4
  rsv := w.extractLsb' 4 28

/-- The opcode map of R74, read from opcode to command; the four other values are unassigned (R75). -/
def decodeOp (op : BitVec 4) : Option Instr :=
  match op.toNat with
  | 0x1 => some .idlen
  | 0x2 => some .idbyte
  | 0x3 => some .minsz32
  | 0x4 => some .minsz64
  | 0x5 => some .fill32
  | 0x6 => some .fill64
  | 0x7 => some .seed
  | 0x8 => some .seedarr
  | 0x9 => some .cmpeq
  | 0xA => some .cmpne
  | 0xB => some .exportImage
  | 0xC => some .importImage
  | _ => none

/-- R70, R71, R75: "the decoder reads bits 3:0 and checks that bits 31:4 are zero". -/
def decode (w : Lane) : Except DecodeError Instr :=
  if (CommandWord.ofBits w).rsv = 0 then
    match decodeOp (CommandWord.ofBits w).op with
    | some i => .ok i
    | none => .error .unassignedOp
  else .error .reservedBits

/-- The opcode map of R74, read from command to opcode. -/
def Instr.opcode : Instr → BitVec 4
  | .idlen => 0x1
  | .idbyte => 0x2
  | .minsz32 => 0x3
  | .minsz64 => 0x4
  | .fill32 => 0x5
  | .fill64 => 0x6
  | .seed => 0x7
  | .seedarr => 0x8
  | .cmpeq => 0x9
  | .cmpne => 0xA
  | .exportImage => 0xB
  | .importImage => 0xC

/-- R70: the word with opcode in bits 3:0 and the reserved field in bits 31:4. -/
def CommandWord.toBits (cw : CommandWord) : Lane := cw.rsv ++ cw.op

/-- The command word of a command: its opcode, with `RSV` written as 0 (R70, R74). -/
def encode (i : Instr) : Lane := CommandWord.toBits { op := i.opcode, rsv := 0 }

/-- The command this decoder reads from a row of spec/opcode_table.json whose bits are `w`: a command is one 32-bit word,
so bits above 31 must be 0. -/
def decodeTableWord (nbits w : Nat) : Option Instr :=
  if nbits ≤ 32 ∧ w < 2 ^ 32 then (decode (BitVec.ofNat 32 w)).toOption else none

/-- The byte offset of a host register from the core's base address (R30). -/
def HostReg.offset : HostReg → Nat
  | .cmd => 0x00
  | .a0 => 0x04
  | .a1 => 0x08
  | .result => 0x0C
  | .status => 0x10
  | .cursor => 0x14
  | .errcmd => 0x18
  | .errinfo => 0x1C

/-- The host register at a byte offset; "the core has no other host-visible register" (R30). -/
def HostReg.ofOffset : Nat → Option HostReg
  | 0x00 => some .cmd
  | 0x04 => some .a0
  | 0x08 => some .a1
  | 0x0C => some .result
  | 0x10 => some .status
  | 0x14 => some .cursor
  | 0x18 => some .errcmd
  | 0x1C => some .errinfo
  | _ => none

end Sys2Proof
end

