-- ==== Sys2Proof/Machine/State.lean ====
section
/-!
DEFINITION. The state of the machine as plain data (spec/10_state.md): the generator state, the lifecycle, the error record,
the host registers, the sequencing state, the working registers, the latches, the external memory, and the host as the
second agent (its script of turns and what it has read). Also the reasons a step can stop, and the state after reset.
-/

namespace Sys2Proof.Machine

/-- XMEM, listed byte by byte: byte `b` of lane `X[a]` has byte address `4 * a + b` (R52). The canonical form is
`Memory.wf` (Machine/Ops.lean). -/
abbrev Memory := List Host.Cell

/-- The lifecycle of R25. The 2-bit value 3 "never occurs" and cannot be written down (U11). -/
inductive Life where
  /-- `UNINIT`, 0 -/
  | uninit
  /-- `SEEDED`, 1 -/
  | seeded
  /-- `STREAMING`, 2 -/
  | streaming
  deriving DecidableEq, Repr

/-- The cause codes of R171, held by `LAST` and `FCAUSE`. Codes 9 to 15 "never occur" and cannot be written down (U11). -/
inductive Cause where
  | ok | illegalCmd | busy | notSeeded | cursorNotExhausted | badCount | misaligned | outOfRange | badImage
  deriving DecidableEq, Repr

/-- The loop the controller is in: the `PHASE` values of R36. Values 13 to 15 "never occur" (U11). -/
inductive Phase where
  | idle | seedLoop | arrPattern | arrMix0 | arrKey | arrPad | arrWhiten | certify | gen | copyback | exporting | importing
  | compare
  deriving DecidableEq, Repr

/-- Why the machine stops with a fault. No command raises one: a command that breaks a precondition is rejected in a next
state (R172). Both faults are SAFE: the spec gives no behaviour for an access to a place that does not exist. -/
inductive Fault where
  /-- Raised by the host events `WR` and `RD` at a byte offset where R30 has no register: "All accesses are 32 bits wide and
  aligned; the core has no other host-visible register". Safe. Log entry 9. -/
  | noSuchRegister (off : Nat)
  /-- Raised by the host events `XWR` and `XRD` at a lane address that is not below `XLANES` (R50). Safe. Log entry 9. -/
  | noSuchLane (a : Nat)
  deriving DecidableEq, Repr

/-- Why an instruction has no meaning. No instruction is refused: every row of the opcode table has its meaning. -/
inductive Refusal where
  /-- Raised by an arm of `exec` whose instruction has no meaning yet. Safe. No arm raises it. -/
  | notModelled (mnemonic : String)
  deriving DecidableEq, Repr

/-- The whole state. -/
structure State where
  /-- the immutable configuration of this core (R5, R8): the argument the model takes, carried along and written by no
  step. Log entry 1. -/
  cfg : Config
  /-- the State Store `S[0..N-1]` (R20), also read as lanes `SL` (R21) -/
  store : List Word
  /-- `CURSOR` (R23) -/
  cursor : Lane
  /-- `LIFE` (R25) -/
  life : Life
  /-- `FAULT`, sticky (R27) -/
  fault : Bool
  /-- `FCAUSE`, the cause of the first rejection since reset (R27) -/
  fcause : Cause
  /-- `ERRCMD`, the command word of that rejection (R27) -/
  errcmd : Lane
  /-- `ERRINFO`, what R174 records for it (R27) -/
  errinfo : Lane
  /-- `LAST`, the outcome of the most recent command (R28) -/
  last : Cause
  /-- host register `A0` (R32) -/
  a0 : Lane
  /-- host register `A1` (R32) -/
  a1 : Lane
  /-- host register `RESULT` (R33) -/
  result : Lane
  /-- `BUSY` (R36) -/
  busy : Bool
  /-- `PHASE` (R36) -/
  phase : Phase
  /-- working register `R1`: the word two positions before the write target (R37) -/
  r1 : Word
  /-- working register `R2`: the word one position before the write target (R37) -/
  r2 : Word
  /-- the loop index `IDX` (R37) -/
  idx : Lane
  /-- the iteration counter `JDX` (R37) -/
  jdx : Lane
  /-- the mixing accumulator `RACC`; bit 0 is the running equality in COMPARE (R37) -/
  racc : Lane
  /-- `CNT`: the word count of a fill or the iteration bound of the key-array seed (R37) -/
  cnt : Lane
  /-- `INNER`, the parity accumulator (R37) -/
  inner : Lane
  /-- latch `OPL` (R38) -/
  opl : BitVec 4
  /-- latch `A0L` (R38) -/
  a0l : Lane
  /-- latch `A1L` (R38) -/
  a1l : Lane
  /-- latch `CURL`, the cursor lane of an image (R38) -/
  curl : Lane
  /-- the external memory XMEM (R50) -/
  xmem : Memory
  /-- the host agent: the turns still to come, first one first (R9, R10, R61). The model's own field, log entry 6. -/
  script : List Turn
  /-- the host agent: the values its `RD` and `XRD` events returned, latest first. The model's own field, log entry 11. -/
  readback : List Lane
  deriving DecidableEq, Repr

/-- A core of configuration `c` right after power-on: the table of R39, an XMEM with nothing listed, and a host that has
asked for nothing yet. The State Store, the working registers and the latches, to which R39 gives no value, hold 0
(DESIGN CHOICE, log entries 2 and 3). -/
def State.init (c : Config) : State where
  cfg := c
  store := List.replicate c.n 0
  cursor := 0
  life := .uninit
  fault := false
  fcause := .ok
  errcmd := 0
  errinfo := 0
  last := .ok
  a0 := 0
  a1 := 0
  result := 0
  busy := false
  phase := .idle
  r1 := 0
  r2 := 0
  idx := 0
  jdx := 0
  racc := 0
  cnt := 0
  inner := 0
  opl := 0
  a0l := 0
  a1l := 0
  curl := 0
  xmem := []
  script := []
  readback := []

/-- The machine right after reset, built for the configuration the build selected (R39, R191). -/
def State.reset : State := State.init Config.build

end Sys2Proof.Machine
end

