-- ==== Sys2Proof/Machine/Ops.lean ====
section
/-!
DEFINITION. The named operations every meaning shares: lanes and words (spec/00_scope.md R13, spec/20_memory.md R51 to R53),
XMEM as a canonical list of bytes, the two views of the State Store (spec/10_state.md R20 to R22), loading the latches (R38),
the completion of a command (spec/30_encoding.md R77), the REJECTION of a command, which is this core's one exception
(spec/60_exceptions.md R172), and reset (spec/70_reset_and_hazards.md R190).
-/

namespace Sys2Proof.Machine

/-! ### Lanes and words -/

/-- `W.lane[j] = W[32*j+31 : 32*j]` (R13). -/
def wordLane (w : Word) (j : Fin 4) : Lane := w.extractLsb' (32 * j.val) 32

/-- `W = W.lane[3] ‖ W.lane[2] ‖ W.lane[1] ‖ W.lane[0]` (R13). -/
def wordOfLanes (l0 l1 l2 l3 : Lane) : Word := l3 ++ l2 ++ l1 ++ l0

/-- The word `w` with its lane `j` replaced by `v` and no other bit changed (R22). -/
def setWordLane (w : Word) (j : Fin 4) (v : Lane) : Word :=
  wordOfLanes (if j = 0 then v else wordLane w 0) (if j = 1 then v else wordLane w 1) (if j = 2 then v else wordLane w 2)
    (if j = 3 then v else wordLane w 3)

/-! ### XMEM -/

/-- What a byte of XMEM that nothing has written reads as. The spec gives XMEM no power-up content (R59); its own test
programs start from an XMEM of zeros. DESIGN CHOICE, unsafe, log entry 4. -/
def Memory.blank : Byte := 0

/-- One byte of XMEM. -/
def Memory.readByte : Memory → Nat → Byte
  | [], _ => Memory.blank
  | (b, v) :: m, a => if a = b then v else Memory.readByte m a

/-- The listing with the byte at `a` taken out. -/
def Memory.eraseByte : Memory → Nat → Memory
  | [], _ => []
  | (b, v) :: m, a => if a = b then m else (b, v) :: Memory.eraseByte m a

/-- The listing with the entry `(a, v)` put in its place, in place of one at `a`. -/
def Memory.insertByte : Memory → Nat → Byte → Memory
  | [], a, v => [(a, v)]
  | (b, u) :: m, a, v =>
    if a < b then (a, v) :: (b, u) :: m else if a = b then (a, v) :: m else (b, u) :: Memory.insertByte m a v

/-- Write one byte, keeping the canonical form: writing what an unlisted address reads as removes the entry. -/
def Memory.writeByte (m : Memory) (a : Nat) (v : Byte) : Memory :=
  if v = Memory.blank then Memory.eraseByte m a else Memory.insertByte m a v

/-- The canonical form: addresses strictly rising, and no entry equal to what an unlisted address reads as. -/
@[reducible] def Memory.wf (m : Memory) : Prop :=
  (m.map Prod.fst).Pairwise (· < ·) ∧ ∀ e ∈ m, e.2 ≠ Memory.blank

/-- Every listed byte lies inside an XMEM of `xlanes` lanes. -/
@[reducible] def Memory.within (m : Memory) (xlanes : Nat) : Prop := ∀ e ∈ m, e.1 < 4 * xlanes

/-- `MemRead(a, 32)` (R14, R51): lane `X[a]`, little-endian in its four bytes (R52). -/
def Memory.readLane (m : Memory) (a : Nat) : Lane :=
  m.readByte (4 * a + 3) ++ m.readByte (4 * a + 2) ++ m.readByte (4 * a + 1) ++ m.readByte (4 * a)

/-- `MemWrite(a, 32, v)` (R14, R51): byte `b` of the lane is `v[8*b+7 : 8*b]` (R52). -/
def Memory.writeLane (m : Memory) (a : Nat) (v : Lane) : Memory :=
  (((m.writeByte (4 * a) (v.extractLsb' 0 8)).writeByte (4 * a + 1) (v.extractLsb' 8 8)).writeByte (4 * a + 2)
    (v.extractLsb' 16 8)).writeByte (4 * a + 3) (v.extractLsb' 24 8)

/-- `MemRead(a, 128) = X[a+3] ‖ X[a+2] ‖ X[a+1] ‖ X[a]` (R14, R51), written `XW[a]`. -/
def Memory.readWord (m : Memory) (a : Nat) : Word :=
  wordOfLanes (m.readLane a) (m.readLane (a + 1)) (m.readLane (a + 2)) (m.readLane (a + 3))

/-- `MemWrite(a, 128, v)` (R14, R51): lane `j` goes to `X[a+j]`. -/
def Memory.writeWord (m : Memory) (a : Nat) (w : Word) : Memory :=
  (((m.writeLane a (wordLane w 0)).writeLane (a + 1) (wordLane w 1)).writeLane (a + 2) (wordLane w 2)).writeLane (a + 3)
    (wordLane w 3)

/-- 64-bit lane `k` of the buffer at lane address `base` is `X[base + 2k + 1] ‖ X[base + 2k]` (R53). -/
def Memory.readLane64 (m : Memory) (base k : Nat) : BitVec 64 :=
  m.readLane (base + 2 * k + 1) ++ m.readLane (base + 2 * k)

/-! ### The State Store -/

/-- `S[k]` (R20). An index outside the store, which no run reaches (R179), reads 0: log entry 18. -/
def storeWord (S : List Word) (k : Nat) : Word := S.getD k 0

/-- `SL[L] = S[L div 4].lane[L mod 4]` (R21). -/
def storeLane (S : List Word) (L : Nat) : Lane := wordLane (storeWord S (L / 4)) (Fin.ofNat 4 L)

/-- `SL[L] <- v`: changes lane `L mod 4` of `S[L div 4]` and no other bit (R22). -/
def setStoreLane (S : List Word) (L : Nat) (v : Lane) : List Word :=
  S.set (L / 4) (setWordLane (storeWord S (L / 4)) (Fin.ofNat 4 L) v)

/-- The store whose lanes are `f 0`, `f 1`, …, `f (4 * n - 1)` (R21: `S[k] = SL[4k+3] ‖ SL[4k+2] ‖ SL[4k+1] ‖ SL[4k]`). -/
def storeOfLanes (n : Nat) (f : Nat → Lane) : List Word :=
  (List.range n).map fun k => wordOfLanes (f (4 * k)) (f (4 * k + 1)) (f (4 * k + 2)) (f (4 * k + 3))

/-! ### Accepting, completing, rejecting, resetting -/

/-- R76: `OPL <- w[3:0]; A0L <- A0; A1L <- A1`. -/
def latch (i : Instr) (s : State) : State := { s with opl := i.opcode, a0l := s.a0, a1l := s.a1 }

/-- R76: `BUSY <- 1; PHASE <- first phase of the command`. -/
def enterPhase (p : Phase) (s : State) : State := { s with busy := true, phase := p }

/-- R77: `LAST <- OK; PHASE <- IDLE; BUSY <- 0`, the part of a completion step that every command shares. -/
def complete (s : State) : State := { s with last := .ok, phase := .idle, busy := false }

/-- R172: `raise <Cause>(info)` for the command word `w`. `LAST` takes the cause; the error record is written only by the
first rejection since reset; nothing else changes. There is no vector and no return (R172, R176). -/
def reject (cause : Cause) (w info : Lane) (s : State) : State :=
  if s.fault then { s with last := cause }
  else { s with last := cause, fault := true, fcause := cause, errcmd := w, errinfo := info }

/-- R190, R191, R203: the reset input. Everything of the core goes to the values of R39, a running command is abandoned;
XMEM, the configuration and the host keep what they have. Log entries 2, 3, 17. -/
def resetCore (s : State) : State :=
  { State.init s.cfg with xmem := s.xmem, script := s.script, readback := s.readback }

end Sys2Proof.Machine
end

