-- ==== Sys2Proof/Machine/Certify.lean ====
section
/-!
DEFINITION. Period Certification (spec/43_period_certification.md R140 to R145): the parity fold of `SL[0..3]`, the one-bit
correction, and the CERTIFY micro-step that ends SEED and SEEDARR.
-/

namespace Sys2Proof.Machine

/-- R141: the masked lanes XORed together. -/
def parityMasked (c : Config) (S : List Word) : Lane :=
  (storeLane S 0 &&& c.parity[0]) ^^^ (storeLane S 1 &&& c.parity[1]) ^^^ (storeLane S 2 &&& c.parity[2]) ^^^
    (storeLane S 3 &&& c.parity[3])

/-- R141: one step `inner ^ (inner >> k)` of the fold. -/
def foldStep (x : Lane) (k : Nat) : Lane := x ^^^ (x >>> k)

/-- R141: the steps 16, 8, 4, 2, 1. -/
def foldLane (x : Lane) : Lane := foldStep (foldStep (foldStep (foldStep (foldStep x 16) 8) 4) 2) 1

/-- R141, R145: the value that CERTIFY leaves in `INNER`; its bit 0 is `fold`. Log entry 12. -/
def parityInner (c : Config) (S : List Word) : Lane := foldLane (parityMasked c S)

/-- R141: `fold`. -/
def parityFold (c : Config) (S : List Word) : Bool := (parityInner c S).getLsbD 0

/-- R143: the first `i` with `PARITY[i] != 0`. -/
def parityIndex (c : Config) : Option (Fin 4) := [0, 1, 2, 3].find? fun i : Fin 4 => c.parity[i] ≠ 0

/-- R143: the lowest set bit of a parity word, `p & (0 - p)`. -/
def lowestSetBit (p : Lane) : Lane := p &&& (0 - p)

/-- R143: the correction, which inverts one bit of `SL[i]`. -/
def correctStore (c : Config) (S : List Word) : List Word :=
  match parityIndex c with
  | some i => setStoreLane S i.val (storeLane S i.val ^^^ lowestSetBit c.parity[i])
  | none => S

/-- R142, R143: the State Store after the phase. -/
def certifyStore (c : Config) (S : List Word) : List Word := if parityFold c S then S else correctStore c S

/-- R145: the CERTIFY micro-step, the completion step of the seed commands. -/
def certifyStep (s : State) : State :=
  complete { s with inner := parityInner s.cfg s.store, store := certifyStore s.cfg s.store, life := .seeded }

end Sys2Proof.Machine
end

