-- ==== Sys2Proof/Machine/Recursion.lean ====
section
/-!
DEFINITION. The Recursion Engine (spec/40_recursion.md): the two 128-bit byte shifts, the combinational function `REC`, and
the word stream of a state (R97).
-/

namespace Sys2Proof.Machine

/-- R91: `(W * 2^(8*s)) mod 2^128`. -/
def lshift128 (w : Word) (s : Nat) : Word := w <<< (8 * s)

/-- R92: `W div 2^(8*s)`. -/
def rshift128 (w : Word) (s : Nat) : Word := w >>> (8 * s)

/-- Lane `j` of `REC(a, b, cw, d)` (R94): T0 ^ T1 ^ T2 ^ T3 ^ T4 of R93. -/
def recLane (c : Config) (a b cw d : Word) (j : Fin 4) : Lane :=
  wordLane a j ^^^ wordLane (lshift128 a c.sl2) j ^^^ ((wordLane b j >>> c.sr1) &&& c.msk[j]) ^^^
    wordLane (rshift128 cw c.sr2) j ^^^ (wordLane d j <<< c.sl1)

/-- `REC(a, b, cw, d)` (R90, R94): `a` is the word at the write position, `b` the one `POS1` ahead, `cw` the one two before
(the spec's `c`) and `d` the one before. -/
def sfmtRec (c : Config) (a b cw d : Word) : Word :=
  wordOfLanes (recLane c a b cw d 0) (recLane c a b cw d 1) (recLane c a b cw d 2) (recLane c a b cw d 3)

/-- The first `N + k` words of the stream of the State Store `S` (R97): `S` itself, then `k` new words, word `N + k` being
`REC(w[k], w[k + POS1], w[N + k - 2], w[N + k - 1])`. -/
def streamUpTo (c : Config) (S : List Word) : Nat → List Word
  | 0 => S
  | k + 1 =>
    streamUpTo c S k ++
      [sfmtRec c ((streamUpTo c S k).getD k 0) ((streamUpTo c S k).getD (k + c.pos1) 0)
        ((streamUpTo c S k).getD (c.n + k - 2) 0) ((streamUpTo c S k).getD (c.n + k - 1) 0)]

/-- Word `w[j]` of the stream of `S` (R97). -/
def streamWord (c : Config) (S : List Word) (j : Nat) : Word := (streamUpTo c S (j + 1 - c.n)).getD j 0

end Sys2Proof.Machine
end

