-- ==== Sys2Proof/Machine/FillPhases.lean ====
section
/-!
DEFINITION. The loop controller of the Array Generator (spec/41_array_fill.md R104 to R108): GEN entry, the GEN micro-step
with its modulo-N operand addressing, the COPYBACK micro-step and the completion of a fill.
-/

namespace Sys2Proof.Machine

/-- R104: GEN entry for a fill of `words` words. -/
def enterGen (words : Nat) (s : State) : State :=
  enterPhase .gen
    { s with
      cnt := BitVec.ofNat 32 words
      r1 := storeWord s.store (s.cfg.n - 2)
      r2 := storeWord s.store (s.cfg.n - 1)
      idx := 0 }

/-- R105: operand with circular index `k`: from the State Store before the wrap, from the buffer after it. -/
def fillOperand (s : State) (k : Nat) : Word :=
  if k < s.cfg.n then storeWord s.store k else s.xmem.readWord (s.a1l.toNat + 4 * (k - s.cfg.n))

/-- R106: one micro-step of GEN. -/
def genStep (s : State) : State :=
  let i := s.idx.toNat
  let v := sfmtRec s.cfg (fillOperand s i) (fillOperand s (i + s.cfg.pos1)) s.r1 s.r2
  let s := { s with xmem := s.xmem.writeWord (s.a1l.toNat + 4 * i) v, r1 := s.r2, r2 := v, idx := s.idx + 1 }
  if i + 1 = s.cnt.toNat then { s with idx := 0, phase := .copyback } else s

/-- R107, R108: one micro-step of COPYBACK; the last one is the completion step of the fill. -/
def copybackStep (s : State) : State :=
  let j := s.idx.toNat
  let v := s.xmem.readWord (s.a1l.toNat + 4 * (s.cnt.toNat - s.cfg.n + j))
  let s := { s with store := s.store.set j v, idx := s.idx + 1 }
  if j + 1 = s.cfg.n then complete { s with cursor := BitVec.ofNat 32 s.cfg.n32, life := .streaming } else s

end Sys2Proof.Machine
end

