-- ==== Sys2Proof/Machine/Operands.lean ====
section
/-!
DEFINITION. Operands and preconditions (spec/30_encoding.md R72, R73, R76; spec/60_exceptions.md R171, R173, R174): the count
conversions, the region lengths, the range and alignment checks in unbounded integers (spec/20_memory.md R54, R55), the
ordered list of checks of a command, and the accept step that every command shares.
-/

namespace Sys2Proof.Machine

/-- One precondition check: whether it fails now, and what `raise` it does then. -/
structure Check where
  fails : Bool
  cause : Cause
  info : Lane
  deriving DecidableEq, Repr

/-- R173: "Only the first failing check is reported". -/
def firstFailure (cs : List Check) : Option Check := cs.find? Check.fails

/-- R73: the number of words a FILL32 of `A0` 32-bit lanes produces. -/
def fill32Words (a0 : Lane) : Nat := a0.toNat / 4

/-- R73: the region length of FILL32, in lanes. -/
def fill32Length (a0 : Lane) : Nat := a0.toNat

/-- R73: the number of words a FILL64 of `A0` 64-bit lanes produces. -/
def fill64Words (a0 : Lane) : Nat := a0.toNat / 2

/-- R73: the region length of FILL64, in lanes, in unbounded integers. -/
def fill64Length (a0 : Lane) : Nat := 2 * a0.toNat

/-- R150: an image is `N + 1` words. -/
def imageLength (c : Config) : Nat := 4 * (c.n + 1)

/-- R171, R174: `NOT_SEEDED(0)`. -/
def checkSeeded (s : State) : Check := { fails := s.life = .uninit, cause := .notSeeded, info := 0 }

/-- R171, R174: `CURSOR_NOT_EXHAUSTED(CURSOR)`. -/
def checkExhausted (s : State) : Check :=
  { fails := s.cursor.toNat ≠ s.cfg.n32, cause := .cursorNotExhausted, info := s.cursor }

/-- R171, R174: `BAD_COUNT(A0)` of FILL32. -/
def checkCount32 (s : State) : Check :=
  { fails := s.a0.toNat % 4 ≠ 0 ∨ s.a0.toNat < s.cfg.n32, cause := .badCount, info := s.a0 }

/-- R171, R174: `BAD_COUNT(A0)` of FILL64. -/
def checkCount64 (s : State) : Check :=
  { fails := s.a0.toNat % 2 ≠ 0 ∨ s.a0.toNat < s.cfg.n64, cause := .badCount, info := s.a0 }

/-- R54, R171, R174: `MISALIGNED(A1)`. -/
def checkAligned (s : State) : Check := { fails := s.a1.toNat % 4 ≠ 0, cause := .misaligned, info := s.a1 }

/-- R55, R171, R174: `OUT_OF_RANGE(A1)` for a region of `len` lanes at `A1`, without wrap. -/
def checkRange (len : Nat) (s : State) : Check :=
  { fails := s.cfg.xlanes < s.a1.toNat + len, cause := .outOfRange, info := s.a1 }

/-- R123: SEEDARR checks its key region only when the key is not empty. -/
def checkKeyRange (s : State) : Check :=
  { fails := s.a0.toNat ≠ 0 ∧ s.cfg.xlanes < s.a1.toNat + s.a0.toNat, cause := .outOfRange, info := s.a1 }

/-- R161: `OUT_OF_RANGE(A0)` of IDBYTE. -/
def checkByteIndex (s : State) : Check := { fails := s.cfg.idlen ≤ s.a0.toNat, cause := .outOfRange, info := s.a0 }

/-- R157: the trailer word of the image at `A1`. -/
def imageTrailer (s : State) : Word := s.xmem.readWord (s.a1.toNat + s.cfg.n32)

/-- R157, R171, R174: `BAD_IMAGE(A1)`. -/
def checkImage (s : State) : Check :=
  { fails := s.cfg.n32 < (wordLane (imageTrailer s) 0).toNat ∨ wordLane (imageTrailer s) 1 ≠ 0 ∨
      wordLane (imageTrailer s) 2 ≠ 0 ∨ wordLane (imageTrailer s) 3 ≠ 0,
    cause := .badImage, info := s.a1 }

/-- R173: the checks of FILL32, in order. -/
def fill32Checks (s : State) : List Check :=
  [checkSeeded s, checkExhausted s, checkCount32 s, checkAligned s, checkRange (fill32Length s.a0) s]

/-- R173: the checks of FILL64, in order. -/
def fill64Checks (s : State) : List Check :=
  [checkSeeded s, checkExhausted s, checkCount64 s, checkAligned s, checkRange (fill64Length s.a0) s]

/-- R173: the checks of EXPORT, in order. -/
def exportChecks (s : State) : List Check := [checkSeeded s, checkAligned s, checkRange (imageLength s.cfg) s]

/-- R157, R173: the checks of IMPORT, in order. -/
def importChecks (s : State) : List Check := [checkAligned s, checkRange (imageLength s.cfg) s, checkImage s]

/-- R154, R173: the checks of CMPEQ and CMPNE, in order. -/
def compareChecks (s : State) : List Check := checkSeeded s :: importChecks s

/-- The accept step of R76 for the command `i` with the checks `checks` and, when none fails, `enter` (write `RESULT` and
complete, or set up the first phase). `BUSY` comes before everything else and leaves the latches alone; the latches are
loaded before the other checks (C7). Log entry 13. -/
def acceptWith (i : Instr) (checks : State → List Check) (enter : State → State) (s : State) : State :=
  if s.busy then reject .busy (encode i) (encode i) s
  else
    match firstFailure (checks s) with
    | some c => reject c.cause (encode i) c.info (latch i s)
    | none => enter (latch i s)

/-- R76: an illegal command word `w` is rejected with `BUSY(w)` while a command runs and with `ILLEGAL_CMD(w)` otherwise. -/
def rejectIllegal (w : Lane) (s : State) : State :=
  if s.busy then reject .busy w w s else reject .illegalCmd w w s

end Sys2Proof.Machine
end

