-- ==== Sys2Proof/Machine/ImagePhases.lean ====
section
/-!
DEFINITION. The phases of the image commands (spec/44_comparator_and_image.md R150 to R157): EXPORT, IMPORT and COMPARE entry
and micro-steps.
-/

namespace Sys2Proof.Machine

/-- R150, R152: the trailer word: lanes `CURSOR`, 0, 0, 0. -/
def trailerWord (cursor : Lane) : Word := wordOfLanes cursor 0 0 0

/-- R152: `IDX <- 0 ; PHASE <- EXPORT ; BUSY <- 1`. -/
def enterExport (s : State) : State := enterPhase .exporting { s with idx := 0 }

/-- R152: one micro-step of EXPORT: step `k < N` writes word `k`, step `N` writes the trailer and completes.
In this and the two other image phases the last step leaves `IDX` incremented: DEDUCED, log entry 20. -/
def exportStep (s : State) : State :=
  let k := s.idx.toNat
  let v := if k < s.cfg.n then storeWord s.store k else trailerWord s.cursor
  let s := { s with xmem := s.xmem.writeWord (s.a1l.toNat + 4 * k) v, idx := s.idx + 1 }
  if k = s.cfg.n then complete s else s

/-- R153, R157: `CURL <- t.lane[0] ; IDX <- 0 ; PHASE <- IMPORT ; BUSY <- 1`. -/
def enterImport (s : State) : State := enterPhase .importing { s with curl := wordLane (imageTrailer s) 0, idx := 0 }

/-- R153: one micro-step of IMPORT; the last one completes. -/
def importStep (s : State) : State :=
  let k := s.idx.toNat
  let s := { s with store := s.store.set k (s.xmem.readWord (s.a1l.toNat + 4 * k)), idx := s.idx + 1 }
  if k + 1 = s.cfg.n then complete { s with cursor := s.curl, life := .streaming } else s

/-- R154, R157: `CURL <- t.lane[0] ; RACC <- (CURSOR = CURL) ? 1 : 0 ; IDX <- 0 ; PHASE <- COMPARE ; BUSY <- 1`. -/
def enterCompare (s : State) : State :=
  enterPhase .compare
    { s with
      curl := wordLane (imageTrailer s) 0
      racc := if s.cursor = wordLane (imageTrailer s) 0 then 1 else 0
      idx := 0 }

/-- R154, R155: what the last COMPARE step writes to `RESULT`: the equality for CMPEQ, its negation for CMPNE, told apart by
the latched opcode. -/
def compareResult (opl : BitVec 4) (racc : Lane) : Lane :=
  if opl = Instr.opcode .cmpne then (if racc.getLsbD 0 then 0 else 1) else (if racc.getLsbD 0 then 1 else 0)

/-- R154: `RACC[0] <- RACC[0] & (S[k] = XW[B + 4*k])`, the other bits of `RACC` as they are. -/
def compareAcc (racc : Lane) (eq : Bool) : Lane := if eq then racc else racc &&& ~~~1

/-- R154: one micro-step of COMPARE; the last one writes `RESULT` and completes. -/
def compareStep (s : State) : State :=
  let k := s.idx.toNat
  let eq : Bool := storeWord s.store k = s.xmem.readWord (s.a1l.toNat + 4 * k)
  let s := { s with racc := compareAcc s.racc eq, idx := s.idx + 1 }
  if k + 1 = s.cfg.n then complete { s with result := compareResult s.opl s.racc } else s

end Sys2Proof.Machine
end

