-- ==== Sys2Proof/Machine/SeedPhases.lean ====
section
/-!
DEFINITION. The phases of the seed FSM (spec/42_seed.md): the scalar recurrence (R120, R121), the scrambling functions (R124,
R131), the constants `LAG` and `MID` (R126), the rounds of the key-array passes (R128 to R132), and one micro-step per phase.
-/

namespace Sys2Proof.Machine

/-! ### Scalar seed -/

/-- R120: `1812433253 * (x ^ (x >> 30)) + i`, modulo 2^32. -/
def seedNext (x : Lane) (i : Lane) : Lane := 1812433253 * (x ^^^ (x >>> 30)) + i

/-- R121: one micro-step of `SEED_LOOP`. -/
def seedLoopStep (s : State) : State :=
  let i := s.idx.toNat
  let v := if i = 0 then s.a0l else seedNext (storeLane s.store (i - 1)) s.idx
  let s := { s with store := setStoreLane s.store i v, idx := s.idx + 1 }
  if i + 1 = s.cfg.n32 then { s with cursor := BitVec.ofNat 32 s.cfg.n32, phase := .certify } else s

/-! ### Key-array seed: functions and constants -/

/-- R124: `func1(x) = (x ^ (x >> 27)) * 1664525`. -/
def func1 (x : Lane) : Lane := (x ^^^ (x >>> 27)) * 1664525

/-- R131: `func2`, with or without the premix. -/
def func2 (premix : Bool) (t : Lane) : Lane := (if premix then t ^^^ (t >>> 27) else t) * 1566083941

/-- R126: `LAG`, a function of `N32`. -/
def seedLag (n32 : Nat) : Nat := if 623 ≤ n32 then 11 else if 68 ≤ n32 then 7 else if 39 ≤ n32 then 5 else 3

/-- R126: `MID = (N32 - LAG) div 2`. -/
def seedMid (n32 : Nat) : Nat := (n32 - seedLag n32) / 2

/-- R125: the word whose sixteen bytes are `FILL_BYTE`. -/
def patternWord (c : Config) : Word :=
  let l := c.fillByte ++ c.fillByte ++ c.fillByte ++ c.fillByte
  wordOfLanes l l l l

/-- R127: `CNT = max(KL + 1, N32) - 1`, formed in unbounded integers. -/
def seedCount (c : Config) (kl : Nat) : Nat := max (kl + 1) c.n32 - 1

/-! ### Key-array seed: the rounds on the State Store -/

/-- What a round leaves: the State Store and the accumulator `r`. -/
structure Mixed where
  store : List Word
  acc : Lane
  deriving DecidableEq, Repr

/-- R128: pass (c), the initial mix with key length `kl`. -/
def mixInitial (c : Config) (kl : Lane) (S : List Word) : Mixed :=
  let n := c.n32
  let mid := seedMid n
  let r := func1 (storeLane S 0 ^^^ storeLane S mid ^^^ storeLane S (n - 1))
  let S := setStoreLane S mid (storeLane S mid + r)
  let r := r + kl
  let S := setStoreLane S (mid + seedLag n) (storeLane S (mid + seedLag n) + r)
  { store := setStoreLane S 0 r, acc := r }

/-- R129, R130: one round of passes (d) at rotating index `i`, where `add` is `key[j] + i` in the key loop and `i` in the pad
loop. -/
def mixRound (c : Config) (i : Nat) (add : Lane) (S : List Word) : Mixed :=
  let n := c.n32
  let m := (i + seedMid n) % n
  let ml := (i + seedMid n + seedLag n) % n
  let r := func1 (storeLane S i ^^^ storeLane S m ^^^ storeLane S ((i + n - 1) % n))
  let S := setStoreLane S m (storeLane S m + r)
  let r := r + add
  let S := setStoreLane S ml (storeLane S ml + r)
  { store := setStoreLane S i r, acc := r }

/-- R132: one round of pass (e), the whitening, at rotating index `i`. -/
def whitenRound (c : Config) (i : Nat) (S : List Word) : Mixed :=
  let n := c.n32
  let m := (i + seedMid n) % n
  let ml := (i + seedMid n + seedLag n) % n
  let r := func2 c.func2Premix (storeLane S i + storeLane S m + storeLane S ((i + n - 1) % n))
  let S := setStoreLane S m (storeLane S m ^^^ r)
  let r := r - BitVec.ofNat 32 i
  let S := setStoreLane S ml (storeLane S ml ^^^ r)
  { store := setStoreLane S i r, acc := r }

/-- `(i + 1) mod N32`, the next rotating index (R129, R130, R132). -/
def nextIndex (c : Config) (idx : Lane) : Lane := BitVec.ofNat 32 ((idx.toNat + 1) % c.n32)

/-! ### Key-array seed: the micro-steps -/

/-- R125: one micro-step of `ARR_PATTERN`. -/
def arrPatternStep (s : State) : State :=
  let k := s.idx.toNat
  let s := { s with store := s.store.set k (patternWord s.cfg), idx := s.idx + 1 }
  if k + 1 = s.cfg.n then { s with phase := .arrMix0 } else s

/-- R128: the one micro-step of `ARR_MIX0`. -/
def arrMix0Step (s : State) : State :=
  let x := mixInitial s.cfg s.a0l s.store
  { s with
    store := x.store
    racc := x.acc
    idx := 1
    jdx := 0
    cnt := BitVec.ofNat 32 (seedCount s.cfg s.a0l.toNat)
    phase := if 0 < s.a0l.toNat then .arrKey else .arrPad }

/-- R129: one micro-step of `ARR_KEY`; the key entry is read from XMEM now (R204). -/
def arrKeyStep (s : State) : State :=
  let j := s.jdx.toNat
  let k := s.xmem.readLane (s.a1l.toNat + j)
  let x := mixRound s.cfg s.idx.toNat (k + s.idx) s.store
  let s := { s with store := x.store, racc := x.acc, idx := nextIndex s.cfg s.idx, jdx := s.jdx + 1 }
  if j + 1 = s.a0l.toNat then
    if s.a0l.toNat < s.cnt.toNat then { s with phase := .arrPad } else { s with jdx := 0, phase := .arrWhiten }
  else s

/-- R130: one micro-step of `ARR_PAD`; it touches no XMEM. -/
def arrPadStep (s : State) : State :=
  let j := s.jdx.toNat
  let x := mixRound s.cfg s.idx.toNat s.idx s.store
  let s := { s with store := x.store, racc := x.acc, idx := nextIndex s.cfg s.idx, jdx := s.jdx + 1 }
  if j + 1 = s.cnt.toNat then { s with jdx := 0, phase := .arrWhiten } else s

/-- R132: one micro-step of `ARR_WHITEN`. -/
def arrWhitenStep (s : State) : State :=
  let j := s.jdx.toNat
  let x := whitenRound s.cfg s.idx.toNat s.store
  let s := { s with store := x.store, racc := x.acc, idx := nextIndex s.cfg s.idx, jdx := s.jdx + 1 }
  if j + 1 = s.cfg.n32 then { s with cursor := BitVec.ofNat 32 s.cfg.n32, phase := .certify } else s

end Sys2Proof.Machine
end

