-- ==== Sys2Proof/Machine/Micro.lean ====
section
/-!
DEFINITION. One micro-step of the running command (spec/10_state.md R36), several of them, the exact number a command takes
(spec/70_reset_and_hazards.md R202), and the command level as their closure (spec/00_scope.md R10).
-/

namespace Sys2Proof.Machine

/-- One micro-step of the phase the core is in. An idle core does nothing (R191). -/
def microStep (s : State) : State :=
  match s.phase with
  | .idle => s
  | .seedLoop => seedLoopStep s
  | .arrPattern => arrPatternStep s
  | .arrMix0 => arrMix0Step s
  | .arrKey => arrKeyStep s
  | .arrPad => arrPadStep s
  | .arrWhiten => arrWhitenStep s
  | .certify => certifyStep s
  | .gen => genStep s
  | .copyback => copybackStep s
  | .exporting => exportStep s
  | .importing => importStep s
  | .compare => compareStep s

/-- `k` micro-steps with no host event between them. -/
def microSteps : Nat → State → State
  | 0, s => s
  | k + 1, s => microSteps k (microStep s)

/-- R202: the micro-steps a command takes after its accept step, from the operands and the configuration at accept. -/
def microCount (i : Instr) (s : State) : Nat :=
  match i with
  | .idlen | .idbyte | .minsz32 | .minsz64 => 0
  | .fill32 => s.a0.toNat / 4 + s.cfg.n
  | .fill64 => s.a0.toNat / 2 + s.cfg.n
  | .seed => s.cfg.n32 + 1
  | .seedarr => s.cfg.n + s.cfg.n32 + max (s.a0.toNat + 1) s.cfg.n32 + 1
  | .exportImage => s.cfg.n + 1
  | .importImage | .cmpeq | .cmpne => s.cfg.n

/-- The command level of R10: the accept step of `i` and then every micro-step of the command, as one transition. After a
rejection there is none (R202). While another command runs, the accept step rejects `i` and nothing else happens: the running
command is not disturbed (R172, R195). DESIGN CHOICE, log entry 8. -/
def commandLevel (i : Instr) (accept : State → State) (s : State) : State :=
  if s.busy || !(accept s).busy then accept s else microSteps (microCount i s) (accept s)

end Sys2Proof.Machine
end

