-- ==== Sys2Proof/Machine/Accessors.lean ====
section
/-!
DEFINITION. The identification and minimum-buffer-size accessors (spec/45_accessors.md): accept steps and meanings of IDLEN,
IDBYTE, MINSZ32, MINSZ64. "The accept step is also the completion step" (R36).
-/

namespace Sys2Proof.Machine

/-- R76: write `RESULT` and complete, all in the accept step. -/
def finishAccessor (v : Lane) (s : State) : State := { s with result := v, last := .ok }

/-- R160: `RESULT <- IDLEN`. A string of 2^32 bytes or more: log entry 14. -/
def acceptIdlen (s : State) : State :=
  acceptWith .idlen (fun _ => []) (finishAccessor (BitVec.ofNat 32 s.cfg.idlen)) s

/-- R161: `RESULT <- zext_32(IDSTR[A0])` when `A0 < IDLEN`. -/
def acceptIdbyte (s : State) : State :=
  acceptWith .idbyte (fun s => [checkByteIndex s]) (finishAccessor ((s.cfg.idstr.getD s.a0.toNat 0).setWidth 32)) s

/-- R162: `RESULT <- N32`. -/
def acceptMinsz32 (s : State) : State :=
  acceptWith .minsz32 (fun _ => []) (finishAccessor (BitVec.ofNat 32 s.cfg.n32)) s

/-- R163: `RESULT <- N64`. -/
def acceptMinsz64 (s : State) : State :=
  acceptWith .minsz64 (fun _ => []) (finishAccessor (BitVec.ofNat 32 s.cfg.n64)) s

/-- IDLEN at the command level (R160). -/
def execIdlen (s : State) : Host.Outcome State Fault Refusal := .next (commandLevel .idlen acceptIdlen s)

/-- IDBYTE at the command level (R161). -/
def execIdbyte (s : State) : Host.Outcome State Fault Refusal := .next (commandLevel .idbyte acceptIdbyte s)

/-- MINSZ32 at the command level (R162). -/
def execMinsz32 (s : State) : Host.Outcome State Fault Refusal := .next (commandLevel .minsz32 acceptMinsz32 s)

/-- MINSZ64 at the command level (R163). -/
def execMinsz64 (s : State) : Host.Outcome State Fault Refusal := .next (commandLevel .minsz64 acceptMinsz64 s)

end Sys2Proof.Machine
end

