-- ==== Sys2Proof/Machine/Fill.lean ====
section
/-!
DEFINITION. FILL32 and FILL64 (spec/41_array_fill.md R100, R101): accept steps and meanings.
-/

namespace Sys2Proof.Machine

/-- R100: the accept step of FILL32, with GEN entry for `A0 div 4` words. -/
def acceptFill32 (s : State) : State := acceptWith .fill32 fill32Checks (enterGen (fill32Words s.a0)) s

/-- R101: the accept step of FILL64, with GEN entry for `A0 div 2` words. -/
def acceptFill64 (s : State) : State := acceptWith .fill64 fill64Checks (enterGen (fill64Words s.a0)) s

/-- FILL32 at the command level (R100). -/
def execFill32 (s : State) : Host.Outcome State Fault Refusal := .next (commandLevel .fill32 acceptFill32 s)

/-- FILL64 at the command level (R101). -/
def execFill64 (s : State) : Host.Outcome State Fault Refusal := .next (commandLevel .fill64 acceptFill64 s)

end Sys2Proof.Machine
end

