-- ==== Sys2Proof/Machine/Flags.lean ====
section
/-!
DEFINITION. The status flags and their encodings: the lifecycle code (spec/10_state.md R25), the cause codes
(spec/60_exceptions.md R171), the phase codes (R36), the `STATUS` view (R34), and the reads and writes of the host registers
(R30 to R35). The core has no arithmetic flags (R29).
-/

namespace Sys2Proof.Machine

/-- R25. -/
def lifeCode : Life → BitVec 2
  | .uninit => 0
  | .seeded => 1
  | .streaming => 2

/-- R171. -/
def causeCode : Cause → BitVec 4
  | .ok => 0
  | .illegalCmd => 1
  | .busy => 2
  | .notSeeded => 3
  | .cursorNotExhausted => 4
  | .badCount => 5
  | .misaligned => 6
  | .outOfRange => 7
  | .badImage => 8

/-- R36. -/
def phaseCode : Phase → BitVec 4
  | .idle => 0
  | .seedLoop => 1
  | .arrPattern => 2
  | .arrMix0 => 3
  | .arrKey => 4
  | .arrPad => 5
  | .arrWhiten => 6
  | .certify => 7
  | .gen => 8
  | .copyback => 9
  | .exporting => 10
  | .importing => 11
  | .compare => 12

/-- R34: `STATUS`, a view with no storage of its own: reserved 31:16 read as 0, `PHASE` 15:12, `LAST` 11:8, `FCAUSE` 7:4,
`FAULT` 3, `LIFE` 2:1, `BUSY` 0. -/
def statusView (s : State) : Lane :=
  (0 : BitVec 16) ++ phaseCode s.phase ++ causeCode s.last ++ causeCode s.fcause ++ BitVec.ofBool s.fault ++
    lifeCode s.life ++ BitVec.ofBool s.busy

/-- R30 to R35: what a host read of a register returns. A read changes nothing. -/
def readHostReg (r : HostReg) (s : State) : Lane :=
  match r with
  | .cmd => 0
  | .a0 => s.a0
  | .a1 => s.a1
  | .result => s.result
  | .status => statusView s
  | .cursor => s.cursor
  | .errcmd => s.errcmd
  | .errinfo => s.errinfo

/-- R32, R35: what a host write of a register other than `CMD` does: `A0` and `A1` take the value, also while a command
runs; a write to a read-only register is ignored. A write to `CMD` is the accept step (Machine/Accept.lean). -/
def writeOperandReg (r : HostReg) (v : Lane) (s : State) : State :=
  match r with
  | .a0 => { s with a0 := v }
  | .a1 => { s with a1 := v }
  | .cmd | .result | .status | .cursor | .errcmd | .errinfo => s

end Sys2Proof.Machine
end

