-- ==== Sys2Proof/Machine/Image.lean ====
section
/-!
DEFINITION. CMPEQ, CMPNE, EXPORT and IMPORT (spec/44_comparator_and_image.md R152 to R155): accept steps and meanings.
-/

namespace Sys2Proof.Machine

/-- R154. -/
def acceptCmpeq (s : State) : State := acceptWith .cmpeq compareChecks enterCompare s

/-- R155: as CMPEQ but for the opcode, which the last COMPARE step reads. -/
def acceptCmpne (s : State) : State := acceptWith .cmpne compareChecks enterCompare s

/-- R152. -/
def acceptExport (s : State) : State := acceptWith .exportImage exportChecks enterExport s

/-- R153. -/
def acceptImport (s : State) : State := acceptWith .importImage importChecks enterImport s

/-- CMPEQ at the command level (R154). -/
def execCmpeq (s : State) : Host.Outcome State Fault Refusal := .next (commandLevel .cmpeq acceptCmpeq s)

/-- CMPNE at the command level (R155). -/
def execCmpne (s : State) : Host.Outcome State Fault Refusal := .next (commandLevel .cmpne acceptCmpne s)

/-- EXPORT at the command level (R152). -/
def execExport (s : State) : Host.Outcome State Fault Refusal := .next (commandLevel .exportImage acceptExport s)

/-- IMPORT at the command level (R153). -/
def execImport (s : State) : Host.Outcome State Fault Refusal := .next (commandLevel .importImage acceptImport s)

end Sys2Proof.Machine
end

