-- ==== Sys2Proof/Machine/Seed.lean ====
section
/-!
DEFINITION. SEED and SEEDARR (spec/42_seed.md R120 to R123, R136): accept steps and meanings.
-/

namespace Sys2Proof.Machine

/-- R121: `IDX <- 0 ; PHASE <- SEED_LOOP ; BUSY <- 1`. -/
def enterSeed (s : State) : State := enterPhase .seedLoop { s with idx := 0 }

/-- R136: `IDX <- 0 ; PHASE <- ARR_PATTERN ; BUSY <- 1`. -/
def enterSeedarr (s : State) : State := enterPhase .arrPattern { s with idx := 0 }

/-- R120: SEED has no precondition of its own. -/
def acceptSeed (s : State) : State := acceptWith .seed (fun _ => []) enterSeed s

/-- R123: SEEDARR checks the range of its key. -/
def acceptSeedarr (s : State) : State := acceptWith .seedarr (fun s => [checkKeyRange s]) enterSeedarr s

/-- SEED at the command level (R120). -/
def execSeed (s : State) : Host.Outcome State Fault Refusal := .next (commandLevel .seed acceptSeed s)

/-- SEEDARR at the command level (R122). -/
def execSeedarr (s : State) : Host.Outcome State Fault Refusal := .next (commandLevel .seedarr acceptSeedarr s)

end Sys2Proof.Machine
end

