-- ==== Sys2Proof/Machine/Accept.lean ====
section
/-!
DEFINITION. The micro-step level of the host interface: the accept step of any command word (spec/30_encoding.md R76), the
host events of R80 with the registers of spec/10_state.md R30, and the expansion of the command statements of R81.
-/

namespace Sys2Proof.Machine

/-- The accept step of a command (R76), alone. -/
def acceptCommand (i : Instr) (s : State) : State :=
  match i with
  | .idlen => acceptIdlen s
  | .idbyte => acceptIdbyte s
  | .minsz32 => acceptMinsz32 s
  | .minsz64 => acceptMinsz64 s
  | .fill32 => acceptFill32 s
  | .fill64 => acceptFill64 s
  | .seed => acceptSeed s
  | .seedarr => acceptSeedarr s
  | .cmpeq => acceptCmpeq s
  | .cmpne => acceptCmpne s
  | .exportImage => acceptExport s
  | .importImage => acceptImport s

/-- R31, R76: what a host write of `w` to `CMD` does, as one micro-step. -/
def acceptWord (w : Lane) (s : State) : State :=
  match decode w with
  | .ok i => acceptCommand i s
  | .error _ => rejectIllegal w s

/-- R31, R32, R35: a host write to a register. -/
def writeHostReg (r : HostReg) (v : Lane) (s : State) : State :=
  match r with
  | .cmd => acceptWord v s
  | .a0 | .a1 | .result | .status | .cursor | .errcmd | .errinfo => writeOperandReg r v s

/-- What a host read returned, kept for a test to look at (R194, log entry 11). -/
def recordRead (v : Lane) (s : State) : State := { s with readback := v :: s.readback }

/-- One host event of R80, its turn already taken from the script. `WAIT` is not here: it lasts while `BUSY` reads 1
(Machine/Step.lean). An access to a register or a lane that does not exist faults. -/
def hostEvent (e : HostEvent) (s : State) : Host.Outcome State Fault Refusal :=
  match e with
  | .wr off v =>
    match HostReg.ofOffset off with
    | some r => .next (writeHostReg r v s)
    | none => .fault (.noSuchRegister off)
  | .rd off =>
    match HostReg.ofOffset off with
    | some r => .next (recordRead (readHostReg r s) s)
    | none => .fault (.noSuchRegister off)
  | .wait => .next s
  | .xwr a v => if a < s.cfg.xlanes then .next { s with xmem := s.xmem.writeLane a v } else .fault (.noSuchLane a)
  | .xrd a => if a < s.cfg.xlanes then .next (recordRead (s.xmem.readLane a) s) else .fault (.noSuchLane a)
  | .reset => .next (resetCore s)

/-- `WAIT` (R80): while `BUSY` reads 1 the core goes on by one micro-step and the turn stays; then the turn is over.
DESIGN CHOICE, log entry 10. -/
def waitTurn (rest : List Turn) (s : State) : State :=
  if s.busy then microStep s else { s with script := rest }

/-- What a step does that is not a host event: one micro-step if a command runs (R10); an idle core waits (R191). Log
entry 19. -/
def coreTurn (s : State) : State := if s.busy then microStep s else s

/-! ### The host script's command statements -/

/-- `WR A0, v`. -/
def wrA0 (v : Lane) : Turn := .host (.wr (HostReg.offset .a0) v)

/-- `WR A1, v`. -/
def wrA1 (v : Lane) : Turn := .host (.wr (HostReg.offset .a1) v)

/-- `WR CMD, w ; WAIT` with the command word of `i`. -/
def issueAndWait (i : Instr) : List Turn := [.host (.wr (HostReg.offset .cmd) (encode i)), .host .wait]

/-- `RD RESULT`. -/
def rdResult : Turn := .host (.rd (HostReg.offset .result))

/-- `XWR a, v0 ; XWR a+1, v1 ; ...` -/
def xfillTurns : Nat → List Lane → List Turn
  | _, [] => []
  | a, v :: vs => .host (.xwr a v) :: xfillTurns (a + 1) vs

/-- R81: the expansion of a command statement into primitive statements. -/
def expandPseudo : Pseudo → List Turn
  | .idlen => issueAndWait .idlen ++ [rdResult]
  | .idbyte k => wrA0 k :: issueAndWait .idbyte ++ [rdResult]
  | .minsz32 => issueAndWait .minsz32 ++ [rdResult]
  | .minsz64 => issueAndWait .minsz64 ++ [rdResult]
  | .fill32 n b => wrA0 n :: wrA1 b :: issueAndWait .fill32
  | .fill64 n b => wrA0 n :: wrA1 b :: issueAndWait .fill64
  | .seed v => wrA0 v :: issueAndWait .seed
  | .seedarr len b => wrA0 len :: wrA1 b :: issueAndWait .seedarr
  | .cmpeq b => wrA1 b :: issueAndWait .cmpeq ++ [rdResult]
  | .cmpne b => wrA1 b :: issueAndWait .cmpne ++ [rdResult]
  | .exportImage b => wrA1 b :: issueAndWait .exportImage
  | .importImage b => wrA1 b :: issueAndWait .importImage
  | .xfill a vs => xfillTurns a vs

end Sys2Proof.Machine
end

