-- ==== Sys2Proof/Machine/Dispatch.lean ====
section
/-!
DEFINITION. The meaning of every command of spec/opcode_table.json, one arm each: the command level of spec/00_scope.md R10.
-/

namespace Sys2Proof.Machine

def exec (i : Instr) (s : State) : Host.Outcome State Fault Refusal :=
  match i with
  | .idlen => Sys2Proof.Machine.execIdlen s
  | .idbyte => Sys2Proof.Machine.execIdbyte s
  | .minsz32 => Sys2Proof.Machine.execMinsz32 s
  | .minsz64 => Sys2Proof.Machine.execMinsz64 s
  | .fill32 => Sys2Proof.Machine.execFill32 s
  | .fill64 => Sys2Proof.Machine.execFill64 s
  | .seed => Sys2Proof.Machine.execSeed s
  | .seedarr => Sys2Proof.Machine.execSeedarr s
  | .cmpeq => Sys2Proof.Machine.execCmpeq s
  | .cmpne => Sys2Proof.Machine.execCmpne s
  | .exportImage => Sys2Proof.Machine.execExport s
  | .importImage => Sys2Proof.Machine.execImport s

end Sys2Proof.Machine
end

