-- ==== Sys2Proof/Machine/Step.lean ====
section
/-!
DEFINITION. One step of the machine: the next turn of the host's script, or one micro-step of the running command when the
host has nothing to do. The core has no program counter and fetches nothing (spec/10_state.md R36): what stands in the place
of a fetch is the next turn that issues a command word.
-/

namespace Sys2Proof.Machine

/-- Run a command word at the command level: the meaning of the command it decodes to, or the rejection of an illegal word
(R75, R76). -/
def runWord (w : Lane) (s : State) : Host.Outcome State Fault Refusal :=
  match decode w with
  | .ok i => exec i s
  | .error _ => .next (rejectIllegal w s)

/-- One step. -/
def step (s : State) : Host.Outcome State Fault Refusal :=
  match s.script with
  | [] => .next (coreTurn s)
  | .core :: rest => .next (coreTurn { s with script := rest })
  | .command w :: rest => runWord w { s with script := rest }
  | .host .wait :: rest => .next (waitTurn rest s)
  | .host e :: rest => hostEvent e { s with script := rest }

/-- The state whose very next step runs the command word `w` of `nbits` bits: the host issues it, at the command level,
before anything else it has to do. Log entry 6. -/
def State.withFetchWord (s : State) (nbits w : Nat) : State :=
  { s with script := .command (BitVec.ofNat 32 (w % 2 ^ nbits)) :: s.script }

end Sys2Proof.Machine
end

