-- ==== Sys2Proof/Machine/CommandLevel.lean ====
section
/-!
DEFINITION. The command level of the spec written out by itself, loop by loop (spec/42_seed.md R120, R122 to R135;
spec/44_comparator_and_image.md R150), with no phase and no micro-step in it. The machine does not use this file: claims
compare the closure of the micro-steps with it. The stream of a fill (R97) stands in Machine/Recursion.lean.
-/

namespace Sys2Proof.Machine

/-! ### Scalar seed -/

/-- R120: `lane[0] = seed; lane[i] = 1812433253 * (lane[i-1] ^ (lane[i-1] >> 30)) + i`. -/
def seedLaneAt (seed : Lane) : Nat → Lane
  | 0 => seed
  | i + 1 => 1812433253 * (seedLaneAt seed i ^^^ (seedLaneAt seed i >>> 30)) + BitVec.ofNat 32 (i + 1)

/-- R120: the State Store that SEED leaves. -/
def seededStore (c : Config) (seed : Lane) : List Word := certifyStore c (storeOfLanes c.n (seedLaneAt seed))

/-! ### Key-array seed -/

/-- R122: `key[j] = X[A1 + j]` for `0 <= j < KL`. -/
def keyEntries (m : Memory) (base kl : Nat) : List Lane := (List.range kl).map fun j => m.readLane (base + j)

/-- A State Store and the rotating index that goes with it between two passes. -/
structure PassState where
  store : List Word
  index : Nat
  deriving DecidableEq, Repr

/-- R129: pass (d1), one round for each key entry in order. -/
def keyLoop (c : Config) : List Lane → PassState → PassState
  | [], p => p
  | k :: ks, p =>
    keyLoop c ks
      { store := (mixRound c p.index (k + BitVec.ofNat 32 p.index) p.store).store, index := (p.index + 1) % c.n32 }

/-- R130: pass (d2), `k` rounds with the index alone. -/
def padLoop (c : Config) : Nat → PassState → PassState
  | 0, p => p
  | k + 1, p =>
    padLoop c k { store := (mixRound c p.index (BitVec.ofNat 32 p.index) p.store).store, index := (p.index + 1) % c.n32 }

/-- R132: pass (e), `k` whitening rounds. -/
def whitenLoop (c : Config) : Nat → PassState → PassState
  | 0, p => p
  | k + 1, p => whitenLoop c k { store := (whitenRound c p.index p.store).store, index := (p.index + 1) % c.n32 }

/-- R125, R128: the State Store after the pattern fill and the initial mix, with the rotating index 1. -/
def keyStart (c : Config) (kl : Nat) : PassState :=
  { store := (mixInitial c (BitVec.ofNat 32 kl) (List.replicate c.n (patternWord c))).store, index := 1 }

/-- R135: the passes in their fixed order, up to certification. -/
def keyPasses (c : Config) (key : List Lane) : PassState :=
  whitenLoop c c.n32 (padLoop c (seedCount c key.length - key.length) (keyLoop c key (keyStart c key.length)))

/-- R122, R133: the State Store that SEEDARR leaves. -/
def keyedStore (c : Config) (key : List Lane) : List Word := certifyStore c (keyPasses c key).store

/-! ### Images -/

/-- R150: the `N` state words of the image at `base`. -/
def imageStore (c : Config) (m : Memory) (base : Nat) : List Word :=
  (List.range c.n).map fun k => m.readWord (base + 4 * k)

/-- R151: the image at `A1` holds the core's own generator state. -/
@[reducible] def imageEqual (s : State) : Prop :=
  s.cursor = wordLane (imageTrailer s) 0 ∧ s.store = imageStore s.cfg s.xmem s.a1.toNat

end Sys2Proof.Machine
end

