-- ==== Sys2Proof/Safety.lean ====
section
/-!
DEFINITION. What claims call a good state and a good outcome: the invariant every step keeps, when a command runs normally, and
what a rejection and a completed command leave, written out field by field.
-/

namespace Sys2Proof.Machine

/-- No command runs: the state in which a command is accepted or rejected on its own merits. -/
@[reducible] def State.Idle (s : State) : Prop := s.busy = false ∧ s.phase = .idle

/-- R123: the latched key region lies inside XMEM, or the key is empty. -/
@[reducible] def State.KeyInRange (s : State) : Prop := s.a0l.toNat = 0 ∨ s.a1l.toNat + s.a0l.toNat ≤ s.cfg.xlanes

/-- R105, R108: the latched buffer of a running fill is aligned, holds at least `N` words and lies inside XMEM. -/
@[reducible] def State.BufferInRange (s : State) : Prop :=
  s.life ≠ .uninit ∧ s.a1l.toNat % 4 = 0 ∧ s.cfg.n ≤ s.cnt.toNat ∧ s.a1l.toNat + 4 * s.cnt.toNat ≤ s.cfg.xlanes

/-- R150: the latched image base is aligned and the image lies inside XMEM. -/
@[reducible] def State.ImageInRange (s : State) : Prop :=
  s.a1l.toNat % 4 = 0 ∧ s.a1l.toNat + imageLength s.cfg ≤ s.cfg.xlanes

/-- What holds while each phase runs (R36, R37, R179): the loop indices are below their bounds, and every address the phase
will use lies in the region the accept step checked. -/
def State.PhaseOk (s : State) : Prop :=
  match s.phase with
  | .idle => True
  | .seedLoop => s.idx.toNat < s.cfg.n32
  | .arrPattern => s.idx.toNat < s.cfg.n ∧ s.KeyInRange
  | .arrMix0 => s.KeyInRange
  | .arrKey =>
    s.idx.toNat < s.cfg.n32 ∧ s.jdx.toNat < s.a0l.toNat ∧ s.cnt.toNat = seedCount s.cfg s.a0l.toNat ∧ s.KeyInRange
  | .arrPad => s.idx.toNat < s.cfg.n32 ∧ s.jdx.toNat < s.cnt.toNat ∧ s.cnt.toNat = seedCount s.cfg s.a0l.toNat
  | .arrWhiten => s.idx.toNat < s.cfg.n32 ∧ s.jdx.toNat < s.cfg.n32
  | .certify => s.cursor.toNat = s.cfg.n32
  | .gen => s.idx.toNat < s.cnt.toNat ∧ s.BufferInRange
  | .copyback => s.idx.toNat < s.cfg.n ∧ s.BufferInRange
  | .exporting => s.idx.toNat ≤ s.cfg.n ∧ s.life ≠ .uninit ∧ s.ImageInRange
  | .importing => s.idx.toNat < s.cfg.n ∧ s.curl.toNat ≤ s.cfg.n32 ∧ s.ImageInRange
  | .compare => s.idx.toNat < s.cfg.n ∧ s.life ≠ .uninit ∧ (s.racc = 0 ∨ s.racc = 1) ∧ s.ImageInRange

/-- The invariant of the machine. -/
structure State.Inv (s : State) : Prop where
  /-- R20: "array length fixed at N" -/
  storeLength : s.store.length = s.cfg.n
  /-- R23: "No rule ever makes `CURSOR > N32`" -/
  cursorRange : s.cursor.toNat ≤ s.cfg.n32
  /-- XMEM is listed in canonical form -/
  memoryForm : s.xmem.wf
  /-- R50: XMEM has lanes below `XLANES` only -/
  memoryRange : s.xmem.within s.cfg.xlanes
  /-- R36: "While `BUSY = 0`, `PHASE = IDLE`", and every phase of a running command is another -/
  idlePhase : s.busy = false ↔ s.phase = .idle
  /-- R27, R34: `FCAUSE`, `ERRCMD` and `ERRINFO` are 0 until the first rejection, whose cause is not `OK` -/
  errorRecord : if s.fault then s.fcause ≠ .ok else s.fcause = .ok ∧ s.errcmd = 0 ∧ s.errinfo = 0
  /-- R39: an idle core that was never seeded has the cursor that reset left -/
  uninitCursor : s.busy = false → s.life = .uninit → s.cursor = 0
  /-- R179: no access of a running command is out of range -/
  phaseOk : s.PhaseOk

/-- R172, R174 at a command's own accept step, and R76 for the latches: what the rejection of `i` with `cause` and `info`
leaves, field by field. -/
def rejectedState (cause : Cause) (i : Instr) (info : Lane) (s : State) : State :=
  { s with
    last := cause
    fault := true
    fcause := if s.fault then s.fcause else cause
    errcmd := if s.fault then s.errcmd else encode i
    errinfo := if s.fault then s.errinfo else info
    opl := i.opcode
    a0l := s.a0
    a1l := s.a1 }

/-- What a rejection with the command word `w` leaves when the latches are not loaded (causes `BUSY` and `ILLEGAL_CMD`,
R76). -/
def unlatchedRejection (cause : Cause) (w : Lane) (s : State) : State :=
  { s with
    last := cause
    fault := true
    fcause := if s.fault then s.fcause else cause
    errcmd := if s.fault then s.errcmd else w
    errinfo := if s.fault then s.errinfo else w }

/-- R157: the trailer of the image at `A1` is well formed. -/
@[reducible] def ImageTrailerOk (s : State) : Prop :=
  (wordLane (imageTrailer s) 0).toNat ≤ s.cfg.n32 ∧ wordLane (imageTrailer s) 1 = 0 ∧ wordLane (imageTrailer s) 2 = 0 ∧
    wordLane (imageTrailer s) 3 = 0

/-- R157: the image at `A1` passes every check. -/
@[reducible] def ImageOk (s : State) : Prop :=
  s.a1.toNat % 4 = 0 ∧ s.a1.toNat + 4 * (s.cfg.n + 1) ≤ s.cfg.xlanes ∧ ImageTrailerOk s

/-- R100: the preconditions of FILL32, on an idle core with a State Store of `N` words and an XMEM in canonical form. -/
structure Fill32Ready (s : State) : Prop where
  idle : s.Idle
  storeLength : s.store.length = s.cfg.n
  memoryForm : s.xmem.wf
  seeded : s.life ≠ .uninit
  exhausted : s.cursor.toNat = s.cfg.n32
  countExact : s.a0.toNat % 4 = 0
  countEnough : s.cfg.n32 ≤ s.a0.toNat
  aligned : s.a1.toNat % 4 = 0
  inRange : s.a1.toNat + s.a0.toNat ≤ s.cfg.xlanes

/-- R101: the preconditions of FILL64. -/
structure Fill64Ready (s : State) : Prop where
  idle : s.Idle
  storeLength : s.store.length = s.cfg.n
  memoryForm : s.xmem.wf
  seeded : s.life ≠ .uninit
  exhausted : s.cursor.toNat = s.cfg.n32
  countExact : s.a0.toNat % 2 = 0
  countEnough : s.cfg.n64 ≤ s.a0.toNat
  aligned : s.a1.toNat % 4 = 0
  inRange : s.a1.toNat + 2 * s.a0.toNat ≤ s.cfg.xlanes

/-- The effect of a fill of `words` words (R100, R102): `words` words of the stream in the buffer, the last `N` of them in
the State Store, every byte outside the buffer as before, and nothing else changed but the flags, the latches and the
working registers of the loop. -/
structure FillEffect (i : Instr) (words : Nat) (s t : State) : Prop where
  frame : t =
    { s with
      store := (List.range s.cfg.n).map fun k => streamWord s.cfg s.store (words + k)
      cursor := BitVec.ofNat 32 s.cfg.n32
      life := .streaming
      last := .ok
      xmem := t.xmem
      opl := i.opcode
      a0l := s.a0
      a1l := s.a1
      r1 := t.r1
      r2 := t.r2
      idx := t.idx
      cnt := t.cnt }
  output : ∀ k < words, t.xmem.readWord (s.a1.toNat + 4 * k) = streamWord s.cfg s.store (s.cfg.n + k)
  outside : ∀ b, b < 4 * s.a1.toNat ∨ 4 * (s.a1.toNat + 4 * words) ≤ b → t.xmem.readByte b = s.xmem.readByte b
  memoryForm : t.xmem.wf

/-- The run of the machine, in the host's terms. -/
def runSteps (k : Nat) (s : State) : Host.Outcome State Fault Refusal :=
  match k with
  | 0 => .next s
  | k + 1 =>
    match step s with
    | .next t => runSteps k t
    | .fault r => .fault r
    | .refused r => .refused r

end Sys2Proof.Machine
end

