-- ==== Sys2Proof/Certificates/Slice0/Obligations.lean ====
section
/-!
DEFINITION. The statements for the provers, each a `def Obligations.<Name> : Prop`. Every statement is about every state and
therefore about every configuration, every content of XMEM and every host; none rests on a value at reset that the model chose
(log entries 2, 3, 4), unless its docstring says so.
-/

open Sys2Proof Sys2Proof.Machine

/-! ### Command words -/

/-- R74 and the decoding table of spec/95_test_vectors.md 2.9: the twelve words, and words that are illegal (R75). -/
def Obligations.CommandWordsDecode : Prop :=
  decode 0x00000001 = .ok .idlen ∧ decode 0x00000002 = .ok .idbyte ∧ decode 0x00000003 = .ok .minsz32 ∧
  decode 0x00000004 = .ok .minsz64 ∧ decode 0x00000005 = .ok .fill32 ∧ decode 0x00000006 = .ok .fill64 ∧
  decode 0x00000007 = .ok .seed ∧ decode 0x00000008 = .ok .seedarr ∧ decode 0x00000009 = .ok .cmpeq ∧
  decode 0x0000000A = .ok .cmpne ∧ decode 0x0000000B = .ok .exportImage ∧ decode 0x0000000C = .ok .importImage ∧
  decode 0x00000000 = .error .unassignedOp ∧ decode 0x0000000D = .error .unassignedOp ∧
  decode 0x0000000E = .error .unassignedOp ∧ decode 0x0000000F = .error .unassignedOp ∧
  decode 0x00000010 = .error .reservedBits ∧ decode 0x00000015 = .error .reservedBits ∧
  decode 0x80000005 = .error .reservedBits ∧ decode 0xFFFFFFFF = .error .reservedBits

/-- R70, R71, R75: decoding and encoding agree in both directions, and the words no command has are exactly the illegal
ones of R75. -/
def Obligations.DecodeInvertsEncode : Prop :=
  (∀ i : Instr, decode (encode i) = .ok i) ∧
  (∀ (w : Lane) (i : Instr), decode w = .ok i → w = encode i) ∧
  (∀ w : Lane, (∃ e, decode w = .error e) ↔
    w.extractLsb' 4 28 ≠ 0 ∨ w.extractLsb' 0 4 = 0 ∨ w.extractLsb' 0 4 = 13 ∨ w.extractLsb' 0 4 = 14 ∨
      w.extractLsb' 0 4 = 15)

/-- R75 (with R76, R171, R174): a word whose field `RSV` is not 0 or whose `OP` is 0, 13, 14 or 15, issued at either level on a
core that runs no command, is rejected with `ILLEGAL_CMD`, its own bits as `ERRCMD` and `ERRINFO`, and "does nothing else":
the record says what every other field holds. -/
def Obligations.IllegalWordIsRejected : Prop :=
  ∀ (s : State) (w : Lane) (rest : List Turn),
    w.extractLsb' 4 28 ≠ 0 ∨ w.extractLsb' 0 4 = 0 ∨ w.extractLsb' 0 4 = 13 ∨ w.extractLsb' 0 4 = 14 ∨
      w.extractLsb' 0 4 = 15 →
    s.busy = false →
    s.script = .command w :: rest ∨ s.script = .host (.wr 0x00 w) :: rest →
    step s = .next (unlatchedRejection .illegalCmd w { s with script := rest })

/-- The step runs the decoded command: where the host's next turn issues a word that decodes to `i`, the step is `exec i` of
the state with that turn taken. `withFetchWord` puts exactly such a turn in front. -/
def Obligations.StepRunsDecodedCommand : Prop :=
  (∀ (s : State) (w : Lane) (i : Instr) (rest : List Turn),
    s.script = .command w :: rest → decode w = .ok i → step s = exec i { s with script := rest }) ∧
  (∀ (s : State) (i : Instr), step (s.withFetchWord 32 (encode i).toNat) = exec i s)

/-- R31: a host write to `CMD` is the accept step with that word; a read of `CMD` returns 0 and has no effect. -/
def Obligations.CmdWriteIsAcceptStep : Prop :=
  (∀ (s : State) (w : Lane) (i : Instr) (rest : List Turn),
    s.script = .host (.wr 0x00 w) :: rest → decode w = .ok i → step s = .next (acceptCommand i { s with script := rest })) ∧
  (∀ (s : State) (rest : List Turn),
    s.script = .host (.rd 0x00) :: rest → step s = .next { s with script := rest, readback := 0 :: s.readback })

/-! ### Host registers -/

/-- R34: every field of `STATUS`, read at offset 0x10, and the reserved bits; a read changes nothing of the core; and in a state
that meets the invariant `FCAUSE` reads 0 while `FAULT` reads 0, and `PHASE` reads 0 while `BUSY` reads 0. -/
def Obligations.StatusRegisterFields : Prop :=
  ∀ (s : State) (rest : List Turn), s.script = .host (.rd 0x10) :: rest →
    ∃ v : Lane, step s = .next { s with script := rest, readback := v :: s.readback } ∧
      v.extractLsb' 0 1 = BitVec.ofBool s.busy ∧ v.extractLsb' 1 2 = lifeCode s.life ∧
      v.extractLsb' 3 1 = BitVec.ofBool s.fault ∧ v.extractLsb' 4 4 = causeCode s.fcause ∧
      v.extractLsb' 8 4 = causeCode s.last ∧ v.extractLsb' 12 4 = phaseCode s.phase ∧ v.extractLsb' 16 16 = 0 ∧
      (s.Inv → (s.fault = false → v.extractLsb' 4 4 = 0) ∧ (s.busy = false → v.extractLsb' 12 4 = 0))

/-- R32: `A0` and `A1` hold what the host last wrote, also while a command runs; no command, no accept step and no micro-step
writes them; the accept step copies them into the latches; and a running command uses only the latches, so that a later write
changes nothing but the register itself. -/
def Obligations.OperandRegistersBelongToHost : Prop :=
  (∀ (s : State) (v : Lane) (rest : List Turn), s.script = .host (.wr 0x04 v) :: rest →
    step s = .next { s with script := rest, a0 := v }) ∧
  (∀ (s : State) (v : Lane) (rest : List Turn), s.script = .host (.wr 0x08 v) :: rest →
    step s = .next { s with script := rest, a1 := v }) ∧
  (∀ (i : Instr) (s t : State), exec i s = .next t → t.a0 = s.a0 ∧ t.a1 = s.a1) ∧
  (∀ s : State, (microStep s).a0 = s.a0 ∧ (microStep s).a1 = s.a1) ∧
  (∀ (i : Instr) (s : State), (acceptCommand i s).a0 = s.a0 ∧ (acceptCommand i s).a1 = s.a1) ∧
  (∀ (i : Instr) (s : State), s.busy = false →
    (acceptCommand i s).a0l = s.a0 ∧ (acceptCommand i s).a1l = s.a1 ∧ (acceptCommand i s).opl = i.opcode) ∧
  (∀ (s : State) (x y : Lane) (k : Nat),
    microSteps k { s with a0 := x, a1 := y } = { microSteps k s with a0 := x, a1 := y })

/-- R35: writes to the five read-only registers change nothing and raise nothing; reads of every register are allowed at any
time, return the current value and change nothing; and the last micro-step of the loop of SEED, and of SEEDARR, leaves a
`CURSOR` that the host can read before `BUSY` clears. -/
def Obligations.ReadOnlyRegistersIgnoreWrites : Prop :=
  (∀ (s : State) (r : HostReg) (v : Lane) (rest : List Turn),
    r = .result ∨ r = .status ∨ r = .cursor ∨ r = .errcmd ∨ r = .errinfo →
    s.script = .host (.wr r.offset v) :: rest → step s = .next { s with script := rest }) ∧
  (∀ (s : State) (r : HostReg) (rest : List Turn), s.script = .host (.rd r.offset) :: rest →
    step s = .next { s with script := rest, readback := readHostReg r s :: s.readback }) ∧
  (∀ s : State, readHostReg .a0 s = s.a0 ∧ readHostReg .a1 s = s.a1 ∧ readHostReg .result s = s.result ∧
    readHostReg .cursor s = s.cursor ∧ readHostReg .errcmd s = s.errcmd ∧ readHostReg .errinfo s = s.errinfo ∧
    readHostReg .status s = statusView s ∧ readHostReg .cmd s = 0) ∧
  (∀ s : State, s.phase = .seedLoop → s.idx.toNat + 1 = s.cfg.n32 →
    (microStep s).cursor.toNat = s.cfg.n32 ∧ (microStep s).busy = s.busy ∧ (microStep s).life = s.life) ∧
  (∀ s : State, s.phase = .arrWhiten → s.jdx.toNat + 1 = s.cfg.n32 →
    (microStep s).cursor.toNat = s.cfg.n32 ∧ (microStep s).busy = s.busy ∧ (microStep s).life = s.life)

/-- R33: `RESULT` is written only by the completion of the six commands that return something. -/
def Obligations.ResultWriters : Prop :=
  (∀ (i : Instr) (s t : State), s.Idle → exec i s = .next t → t.result ≠ s.result →
    t.last = .ok ∧ (i = .idlen ∨ i = .idbyte ∨ i = .minsz32 ∨ i = .minsz64 ∨ i = .cmpeq ∨ i = .cmpne)) ∧
  (∀ (i : Instr) (s t : State), s.busy = true → exec i s = .next t → t.result = s.result) ∧
  (∀ s : State, (microStep s).result ≠ s.result → s.phase = .compare ∧ (microStep s).busy = false)

/-! ### Rejections -/

/-- R76, R171, R172, R195: while a command runs, every command is rejected with `BUSY`: `LAST` and, the first time, the error
record, and not one other field; the same for an illegal word, at either level. -/
def Obligations.BusyRejectsEveryCommand : Prop :=
  ∀ s : State, s.busy = true →
    (∀ i : Instr, exec i s = .next (unlatchedRejection .busy (encode i) s) ∧
      acceptCommand i s = unlatchedRejection .busy (encode i) s) ∧
    (∀ (w : Lane) (rest : List Turn), s.script = .command w :: rest ∨ s.script = .host (.wr 0x00 w) :: rest →
      step s = .next (unlatchedRejection .busy w { s with script := rest }))

/-- R100, R101, R171, R173, R174: the preconditions of the two fills, in their order, with the cause, the command word and the
information each failure records. -/
def Obligations.FillCheckOrder : Prop :=
  ∀ s : State, s.Idle →
    (s.life = .uninit →
      exec .fill32 s = .next (rejectedState .notSeeded .fill32 0 s) ∧
      exec .fill64 s = .next (rejectedState .notSeeded .fill64 0 s)) ∧
    (s.life ≠ .uninit → s.cursor.toNat ≠ s.cfg.n32 →
      exec .fill32 s = .next (rejectedState .cursorNotExhausted .fill32 s.cursor s) ∧
      exec .fill64 s = .next (rejectedState .cursorNotExhausted .fill64 s.cursor s)) ∧
    (s.life ≠ .uninit → s.cursor.toNat = s.cfg.n32 →
      (s.a0.toNat % 4 ≠ 0 ∨ s.a0.toNat < s.cfg.n32 →
        exec .fill32 s = .next (rejectedState .badCount .fill32 s.a0 s)) ∧
      (s.a0.toNat % 2 ≠ 0 ∨ s.a0.toNat < s.cfg.n64 →
        exec .fill64 s = .next (rejectedState .badCount .fill64 s.a0 s)) ∧
      (s.a0.toNat % 4 = 0 → s.cfg.n32 ≤ s.a0.toNat →
        (s.a1.toNat % 4 ≠ 0 → exec .fill32 s = .next (rejectedState .misaligned .fill32 s.a1 s)) ∧
        (s.a1.toNat % 4 = 0 → s.cfg.xlanes < s.a1.toNat + s.a0.toNat →
          exec .fill32 s = .next (rejectedState .outOfRange .fill32 s.a1 s))) ∧
      (s.a0.toNat % 2 = 0 → s.cfg.n64 ≤ s.a0.toNat →
        (s.a1.toNat % 4 ≠ 0 → exec .fill64 s = .next (rejectedState .misaligned .fill64 s.a1 s)) ∧
        (s.a1.toNat % 4 = 0 → s.cfg.xlanes < s.a1.toNat + 2 * s.a0.toNat →
          exec .fill64 s = .next (rejectedState .outOfRange .fill64 s.a1 s))))

/-- R152, R153, R154, R155, R157, R173, R174: the preconditions of EXPORT, IMPORT, CMPEQ and CMPNE, in their order. -/
def Obligations.ImageCheckOrder : Prop :=
  ∀ s : State, s.Idle →
    (∀ i : Instr, i = .exportImage ∨ i = .cmpeq ∨ i = .cmpne → s.life = .uninit →
      exec i s = .next (rejectedState .notSeeded i 0 s)) ∧
    (∀ i : Instr, (i = .exportImage ∨ i = .cmpeq ∨ i = .cmpne) ∧ s.life ≠ .uninit ∨ i = .importImage →
      (s.a1.toNat % 4 ≠ 0 → exec i s = .next (rejectedState .misaligned i s.a1 s)) ∧
      (s.a1.toNat % 4 = 0 → s.cfg.xlanes < s.a1.toNat + 4 * (s.cfg.n + 1) →
        exec i s = .next (rejectedState .outOfRange i s.a1 s)) ∧
      (s.a1.toNat % 4 = 0 → s.a1.toNat + 4 * (s.cfg.n + 1) ≤ s.cfg.xlanes → ¬ ImageTrailerOk s → i ≠ .exportImage →
        exec i s = .next (rejectedState .badImage i s.a1 s)))

/-- R123, R161, R173, R174: SEEDARR rejects a key that does not fit XMEM, IDBYTE an index at or past the end of the string. -/
def Obligations.KeyAndByteChecks : Prop :=
  ∀ s : State, s.Idle →
    (s.a0.toNat ≠ 0 → s.cfg.xlanes < s.a1.toNat + s.a0.toNat →
      exec .seedarr s = .next (rejectedState .outOfRange .seedarr s.a1 s)) ∧
    (s.cfg.idlen ≤ s.a0.toNat → exec .idbyte s = .next (rejectedState .outOfRange .idbyte s.a0 s))

/-- R172, R175: on an idle core a command either ends with `LAST = OK`, or it is a rejection and has changed nothing but `LAST`,
the error record and the latches. -/
def Obligations.RejectedCommandChangesNothing : Prop :=
  ∀ (i : Instr) (s t : State), s.Idle → exec i s = .next t → t.last ≠ .ok →
    ∃ (cause : Cause) (info : Lane), cause ≠ .ok ∧ t = rejectedState cause i info s

/-- R27, R176: once `FAULT = 1`, no step but a reset changes the error record; a step that changes it is a first rejection, whose
cause `FCAUSE` and `LAST` then hold; and a reset clears it. -/
def Obligations.FirstRejectionIsSticky : Prop :=
  (∀ s t : State, s.fault = true → step s = .next t → (∀ rest, s.script ≠ .host .reset :: rest) →
    t.fault = true ∧ t.fcause = s.fcause ∧ t.errcmd = s.errcmd ∧ t.errinfo = s.errinfo) ∧
  (∀ s t : State, step s = .next t → (∀ rest, s.script ≠ .host .reset :: rest) →
    ¬ (t.fault = s.fault ∧ t.fcause = s.fcause ∧ t.errcmd = s.errcmd ∧ t.errinfo = s.errinfo) →
    s.fault = false ∧ t.fault = true ∧ t.last ≠ .ok ∧ t.fcause = t.last) ∧
  (∀ (s : State) (rest : List Turn), s.script = .host .reset :: rest →
    ∃ t : State, step s = .next t ∧ t.fault = false ∧ t.fcause = .ok ∧ t.errcmd = 0 ∧ t.errinfo = 0)

/-! ### Lifecycle -/

/-- R26: the transitions of `LIFE`, each in a completion step and by nothing else; SEEDED and STREAMING differ in nothing but
the field itself; and a command that would read the State Store of an unseeded core is rejected. -/
def Obligations.LifeTransitions : Prop :=
  (∀ (i : Instr) (s t : State), s.Idle → exec i s = .next t →
    (t.last ≠ .ok → t.life = s.life) ∧
    (t.last = .ok →
      (i = .seed ∨ i = .seedarr → t.life = .seeded) ∧
      (i = .fill32 ∨ i = .fill64 → s.life ≠ .uninit ∧ t.life = .streaming) ∧
      (i = .importImage → t.life = .streaming) ∧
      (i = .idlen ∨ i = .idbyte ∨ i = .minsz32 ∨ i = .minsz64 ∨ i = .cmpeq ∨ i = .cmpne ∨ i = .exportImage →
        t.life = s.life))) ∧
  (∀ s : State, (microStep s).life ≠ s.life → (microStep s).busy = false) ∧
  (∀ (i : Instr) (s : State), (acceptCommand i s).life = s.life) ∧
  (∀ s : State, (resetCore s).life = .uninit) ∧
  (∀ (i : Instr) (s t : State), s.Idle → s.life ≠ .uninit → exec i s = .next t → ∀ l : Life, l ≠ .uninit →
    exec i { s with life := l } = .next { t with life :=
      if t.last ≠ .ok then l else if i = .seed ∨ i = .seedarr then .seeded else
        if i = .fill32 ∨ i = .fill64 ∨ i = .importImage then .streaming else l }) ∧
  (∀ (i : Instr) (s : State), s.Idle → s.life = .uninit →
    i = .fill32 ∨ i = .fill64 ∨ i = .exportImage ∨ i = .cmpeq ∨ i = .cmpne →
    exec i s = .next (rejectedState .notSeeded i 0 s))

/-- R191, R203, R39: a reset, in any state and in the middle of any command, leaves every field to which R39 gives a value at
that value, XMEM and the configuration untouched, and no command running. -/
def Obligations.ResetFromAnyState : Prop :=
  ∀ (s : State) (rest : List Turn), s.script = .host .reset :: rest →
    ∃ t : State, step s = .next t ∧ t.life = .uninit ∧ t.cursor = 0 ∧ t.busy = false ∧ t.phase = .idle ∧
      t.fault = false ∧ t.fcause = .ok ∧ t.errcmd = 0 ∧ t.errinfo = 0 ∧ t.last = .ok ∧ t.a0 = 0 ∧ t.a1 = 0 ∧ t.result = 0 ∧
      statusView t = 0 ∧ t.store.length = s.cfg.n ∧ t.xmem = s.xmem ∧ t.cfg = s.cfg ∧ t.script = rest ∧
      t.readback = s.readback

/-! ### Accessors -/

/-- R160, R162, R163: IDLEN, MINSZ32 and MINSZ64 complete in every state of the generator, with their value in `RESULT`,
`LAST = OK`, the latches loaded, and nothing else changed; with the spec's values for TOY and REF. IDLEN's value is the length of
`IDSTR` modulo 2^32; that this is so for a string of 2^32 bytes or more is the model's reading, log entry 14 (DEDUCED). -/
def Obligations.SizeAccessorsComplete : Prop :=
  (∀ s : State, s.Idle →
    exec .idlen s = .next { latch .idlen s with result := BitVec.ofNat 32 s.cfg.idstr.length, last := .ok } ∧
    exec .minsz32 s = .next { latch .minsz32 s with result := BitVec.ofNat 32 (4 * s.cfg.n), last := .ok } ∧
    exec .minsz64 s = .next { latch .minsz64 s with result := BitVec.ofNat 32 (2 * s.cfg.n), last := .ok }) ∧
  Config.toy.idlen = 17 ∧ Config.ref.idlen = 60 ∧ Config.toy.n32 = 16 ∧ Config.ref.n32 = 624 ∧ Config.toy.n64 = 8 ∧
  Config.ref.n64 = 312

/-- R161: IDBYTE with an index inside the string completes with that byte, zero-extended. -/
def Obligations.IdbyteReadsOneByte : Prop :=
  ∀ (s : State) (h : s.a0.toNat < s.cfg.idstr.length), s.Idle →
    exec .idbyte s = .next { latch .idbyte s with result := (s.cfg.idstr[s.a0.toNat]).setWidth 32, last := .ok }

/-! ### The Recursion Engine -/

/-- R91, R92: the two byte shifts as arithmetic on the 128-bit value, with the spec's two examples. -/
def Obligations.ByteShiftsAreArithmetic : Prop :=
  (∀ (w : Word) (k : Nat), k ≤ 15 → (lshift128 w k).toNat = w.toNat * 2 ^ (8 * k) % 2 ^ 128) ∧
  (∀ (w : Word) (k : Nat), k ≤ 15 → (rshift128 w k).toNat = w.toNat / 2 ^ (8 * k)) ∧
  lshift128 (wordOfLanes 0x80000000 0 0 0) 1 = wordOfLanes 0 0x00000080 0 0 ∧
  rshift128 (wordOfLanes 0 0x00000001 0 0) 1 = wordOfLanes 0x01000000 0 0 0

/-- R94: each lane of `REC` is the XOR of its five terms, the two whole-word shifts written as shifts of the 128-bit value (so
that they carry bits across lanes, R96); all-zero operands give zero; and the rule's worked example for REF. -/
def Obligations.RecursionLaneFormula : Prop :=
  (∀ (c : Config) (a b cw d : Word) (j : Fin 4),
    wordLane (sfmtRec c a b cw d) j =
      wordLane a j ^^^ wordLane (a <<< (8 * c.sl2)) j ^^^ ((wordLane b j >>> c.sr1) &&& c.msk[j]) ^^^
        wordLane (cw >>> (8 * c.sr2)) j ^^^ (wordLane d j <<< c.sl1)) ∧
  (∀ c : Config, sfmtRec c 0 0 0 0 = 0) ∧
  sfmtRec Config.ref (wordOfLanes 1 0 0 0) 0 0 0 = wordOfLanes 0x00000101 0 0 0

/-- R95: `REC` is linear over GF(2). -/
def Obligations.RecursionIsLinear : Prop :=
  ∀ (c : Config) (a a' b b' cw cw' d d' : Word),
    sfmtRec c (a ^^^ a') (b ^^^ b') (cw ^^^ cw') (d ^^^ d') = sfmtRec c a b cw d ^^^ sfmtRec c a' b' cw' d'

/-- R97: the stream of a State Store: its first `N` words are the store, and every later word is `REC` of the four words the
rule names. -/
def Obligations.StreamRecurrence : Prop :=
  ∀ (c : Config) (S : List Word), S.length = c.n →
    (∀ j < c.n, streamWord c S j = storeWord S j) ∧
    (∀ j, c.n ≤ j →
      streamWord c S j =
        sfmtRec c (streamWord c S (j - c.n)) (streamWord c S (j - c.n + c.pos1)) (streamWord c S (j - 2))
          (streamWord c S (j - 1)))

/-! ### The Array Generator -/

/-- R100, R102, R105, R108, R109, R111, R112: a FILL32 whose preconditions hold completes, with `C = A0 div 4` words of the
stream in the buffer, the last `N` of them in the State Store, and nothing else changed. -/
def Obligations.Fill32ProducesStream : Prop :=
  ∀ s : State, Fill32Ready s → ∃ t : State, exec .fill32 s = .next t ∧ FillEffect .fill32 (s.a0.toNat / 4) s t

/-- R101, R53: a FILL64 whose preconditions hold completes with the effect of a fill of `C = A0 div 2` words, and its 64-bit
lane `k` is the 64-bit half of the stream word it lies in, lower half first. -/
def Obligations.Fill64ProducesStream : Prop :=
  ∀ s : State, Fill64Ready s → ∃ t : State, exec .fill64 s = .next t ∧ FillEffect .fill64 (s.a0.toNat / 2) s t ∧
    ∀ k < s.a0.toNat,
      t.xmem.readLane64 s.a1.toNat k = (streamWord s.cfg s.store (s.cfg.n + k / 2)).extractLsb' (64 * (k % 2)) 64

/-- R101: "exactly that of FILL32 with `C = A0 div 2`": the two entry points leave the same State Store, cursor, lifecycle and
XMEM, bit for bit. -/
def Obligations.Fill64AgreesWithFill32 : Prop :=
  ∀ (s : State) (k : Lane), 2 * s.a0.toNat = k.toNat → Fill64Ready s →
    ∃ t u : State, exec .fill64 s = .next t ∧ exec .fill32 { s with a0 := k } = .next u ∧
      t.store = u.store ∧ t.xmem = u.xmem ∧ t.cursor = u.cursor ∧ t.life = u.life ∧ t.last = u.last

/-- R110: one fill of `c1 + c2` lanes equals a fill of `c1` lanes followed by a fill of `c2` lanes into the adjoining region. -/
def Obligations.FillChunkingDoesNotMatter : Prop :=
  ∀ (s : State) (c1 c2 : Lane), Fill32Ready { s with a0 := c1 + c2 } →
    c1.toNat + c2.toNat < 2 ^ 32 → c1.toNat % 4 = 0 → s.cfg.n32 ≤ c1.toNat → s.cfg.n32 ≤ c2.toNat →
    ∃ t u v : State,
      exec .fill32 { s with a0 := c1 + c2 } = .next t ∧
      exec .fill32 { s with a0 := c1 } = .next u ∧
      exec .fill32 { u with a0 := c2, a1 := s.a1 + c1 } = .next v ∧
      v.store = t.store ∧ v.xmem = t.xmem ∧ v.cursor = t.cursor ∧ v.life = t.life ∧ v.last = .ok ∧ t.last = .ok

/-- R156 (replay): two cores with equal generator states that issue the same fill hold equal states after it, whatever buffer
addresses they used. -/
def Obligations.ReplayIgnoresBuffer : Prop :=
  ∀ s s' : State, Fill32Ready s → Fill32Ready s' → s.cfg = s'.cfg → s.store = s'.store → s.a0 = s'.a0 →
    ∃ t t' : State, exec .fill32 s = .next t ∧ exec .fill32 s' = .next t' ∧ t.store = t'.store ∧ t.cursor = t'.cursor ∧
      ∀ L < s.a0.toNat, t.xmem.readLane (s.a1.toNat + L) = t'.xmem.readLane (s'.a1.toNat + L)

/-! ### The Seed Initializers -/

/-- R120, R121, R133: SEED completes on every idle core whose State Store has its length, with the State Store of the scalar
recurrence after certification, and changes nothing else but the flags, the latches, `IDX` and `INNER`. -/
def Obligations.ScalarSeedCompletes : Prop :=
  ∀ s : State, s.Idle → s.store.length = s.cfg.n →
    ∃ t : State, exec .seed s = .next t ∧
      t = { latch .seed s with
            store := seededStore s.cfg s.a0
            cursor := BitVec.ofNat 32 s.cfg.n32
            life := .seeded
            last := .ok
            idx := t.idx
            inner := t.inner }

/-- R122, R125 to R135: SEEDARR with a key that is empty or lies inside XMEM completes, with the State Store of the six passes
after certification, and changes nothing else but the flags, the latches and the working registers of the passes. -/
def Obligations.KeyArraySeedCompletes : Prop :=
  ∀ s : State, s.Idle → s.store.length = s.cfg.n → (s.a0.toNat = 0 ∨ s.a1.toNat + s.a0.toNat ≤ s.cfg.xlanes) →
    ∃ t : State, exec .seedarr s = .next t ∧
      t = { latch .seedarr s with
            store := keyedStore s.cfg (keyEntries s.xmem s.a1.toNat s.a0.toNat)
            cursor := BitVec.ofNat 32 s.cfg.n32
            life := .seeded
            last := .ok
            idx := t.idx
            jdx := t.jdx
            racc := t.racc
            cnt := t.cnt
            inner := t.inner }

/-- R128: the initial mix, lane by lane. -/
def Obligations.InitialMixLanes : Prop :=
  ∀ (c : Config) (kl : Lane) (S : List Word), S.length = c.n →
    let mid := seedMid c.n32
    let r0 := func1 (storeLane S 0 ^^^ storeLane S mid ^^^ storeLane S (c.n32 - 1))
    (mixInitial c kl S).acc = r0 + kl ∧ (mixInitial c kl S).store.length = c.n ∧
    ∀ L < c.n32, storeLane (mixInitial c kl S).store L =
      if L = 0 then r0 + kl else if L = mid + seedLag c.n32 then storeLane S L + (r0 + kl) else
        if L = mid then storeLane S L + r0 else storeLane S L

/-- R129, R130, R132: a round of the key and pad loops, and a round of the whitening, lane by lane: which three lanes are read,
which three are written, and with what. -/
def Obligations.KeyArrayRoundLanes : Prop :=
  ∀ (c : Config) (i : Nat) (add : Lane) (S : List Word), S.length = c.n → i < c.n32 →
    let m := (i + seedMid c.n32) % c.n32
    let ml := (i + seedMid c.n32 + seedLag c.n32) % c.n32
    let p := (i + c.n32 - 1) % c.n32
    let r0 := func1 (storeLane S i ^^^ storeLane S m ^^^ storeLane S p)
    let q0 := func2 c.func2Premix (storeLane S i + storeLane S m + storeLane S p)
    (mixRound c i add S).acc = r0 + add ∧ (mixRound c i add S).store.length = c.n ∧
    (∀ L < c.n32, storeLane (mixRound c i add S).store L =
      if L = i then r0 + add else if L = ml then storeLane S L + (r0 + add) else if L = m then storeLane S L + r0 else
        storeLane S L) ∧
    (whitenRound c i S).acc = q0 - BitVec.ofNat 32 i ∧ (whitenRound c i S).store.length = c.n ∧
    (∀ L < c.n32, storeLane (whitenRound c i S).store L =
      if L = i then q0 - BitVec.ofNat 32 i else if L = ml then storeLane S L ^^^ (q0 - BitVec.ofNat 32 i) else
        if L = m then storeLane S L ^^^ q0 else storeLane S L)

/-- R126: `LAG` and `MID` by their thresholds, the spec's values, and the four distinct lane offsets. -/
def Obligations.LagAndMid : Prop :=
  (∀ n : Nat, (623 ≤ n → seedLag n = 11) ∧ (68 ≤ n → n < 623 → seedLag n = 7) ∧ (39 ≤ n → n < 68 → seedLag n = 5) ∧
    (n < 39 → seedLag n = 3) ∧ seedMid n = (n - seedLag n) / 2) ∧
  ([8, 16, 36, 40, 64, 68, 620, 624, 2492].map fun n => (seedLag n, seedMid n)) =
    [(3, 2), (3, 6), (3, 16), (5, 17), (5, 29), (7, 30), (7, 306), (11, 306), (11, 1240)] ∧
  (∀ c : Config, 2 ≤ seedMid c.n32 ∧ seedMid c.n32 + seedLag c.n32 < c.n32 - 1 ∧
    0 < seedMid c.n32 ∧ seedMid c.n32 < seedMid c.n32 + seedLag c.n32)

/-- R124, R131: the scrambling functions as arithmetic modulo 2^32, with the spec's values. -/
def Obligations.ScramblingFunctions : Prop :=
  (∀ x : Lane, (func1 x).toNat = (x.toNat ^^^ x.toNat / 2 ^ 27) * 1664525 % 2 ^ 32) ∧
  (∀ x : Lane, (func2 false x).toNat = x.toNat * 1566083941 % 2 ^ 32) ∧
  (∀ x : Lane, (func2 true x).toNat = (x.toNat ^^^ x.toNat / 2 ^ 27) * 1566083941 % 2 ^ 32) ∧
  func1 0 = 0 ∧ func1 1 = 0x0019660D ∧ func1 0x8B8B8B8B = 0x51BF72D2 ∧ func1 0xFFFFFFFF = 0xFCD33E60 ∧
  func2 false 1 = 0x5D588B65 ∧ func2 true 1 = 0x5D588B65 ∧ func2 false 0x8B8B8B8B = 0x499A86D7 ∧
  func2 true 0x8B8B8B8B = 0xC1CAB1C2

/-- R138: SEED and SEEDARR are accepted in every lifecycle state and forget what went before: cores of one configuration with
the same seed, or the same key, hold the same generator state afterwards. -/
def Obligations.ReseedForgetsState : Prop :=
  ∀ s s' : State, s.Idle → s'.Idle → s.store.length = s.cfg.n → s'.store.length = s'.cfg.n → s.cfg = s'.cfg →
    s.a0 = s'.a0 →
    (∃ t t' : State, exec .seed s = .next t ∧ exec .seed s' = .next t' ∧ t.last = .ok ∧ t'.last = .ok ∧
      t.store = t'.store ∧ t.cursor = t'.cursor ∧ t.life = .seeded ∧ t'.life = .seeded) ∧
    (s.a0.toNat = 0 ∨ s.a1.toNat + s.a0.toNat ≤ s.cfg.xlanes ∧ s'.a1.toNat + s.a0.toNat ≤ s.cfg.xlanes →
      (∀ j < s.a0.toNat, s.xmem.readLane (s.a1.toNat + j) = s'.xmem.readLane (s'.a1.toNat + j)) →
      ∃ t t' : State, exec .seedarr s = .next t ∧ exec .seedarr s' = .next t' ∧ t.last = .ok ∧ t'.last = .ok ∧
        t.store = t'.store ∧ t.cursor = t'.cursor ∧ t.life = .seeded ∧ t'.life = .seeded)

/-- R134: SEEDARR with `A0 = 0` is accepted whatever `A1` and XMEM hold; XMEM is neither read nor written; the key loop is
skipped, the pad loop runs `N32 - 1` times and the whitening `N32` times. -/
def Obligations.ZeroLengthKey : Prop :=
  ∀ s : State, s.Idle → s.store.length = s.cfg.n → s.a0 = 0 →
    (∃ t : State, exec .seedarr s = .next t ∧ t.last = .ok ∧ t.xmem = s.xmem ∧
      t.store = certifyStore s.cfg
        (whitenLoop s.cfg s.cfg.n32 (padLoop s.cfg (s.cfg.n32 - 1) (keyStart s.cfg 0))).store) ∧
    (∀ (m : Memory) (b : Lane), ∃ t t' : State, exec .seedarr s = .next t ∧
      exec .seedarr { s with xmem := m, a1 := b } = .next t' ∧ t'.store = t.store ∧ t'.cursor = t.cursor ∧ t'.xmem = m)

/-! ### Period Certification -/

/-- R141: `fold` is the XOR of all 128 bits of `S[0] & PARITY`. -/
def Obligations.ParityFoldIsXorOfAllBits : Prop :=
  ∀ (c : Config) (S : List Word),
    parityFold c S =
      (List.range 128).foldl
        (fun acc k => acc ^^ ((storeWord S 0 &&& wordOfLanes c.parity[0] c.parity[1] c.parity[2] c.parity[3]).getLsbD k)) false

/-- R142, R143: with fold 1 nothing is written; with fold 0 exactly one bit of the State Store is inverted, in the first lane
whose parity word is not 0 and at the place of that word's least significant 1; with the spec's two examples. -/
def Obligations.CertificationFlipsOneBit : Prop :=
  (∀ (c : Config) (S : List Word), parityFold c S = true → certifyStore c S = S) ∧
  (∀ (c : Config) (S : List Word), S.length = c.n → parityFold c S = false →
    ∃ (i : Fin 4) (b : Nat), (∀ j : Fin 4, j < i → c.parity[j] = 0) ∧ b < 32 ∧ (c.parity[i]).getLsbD b = true ∧
      (∀ b' < b, (c.parity[i]).getLsbD b' = false) ∧ (certifyStore c S).length = c.n ∧
      ∀ L < c.n32, ∀ k < 32,
        (storeLane (certifyStore c S) L).getLsbD k = ((storeLane S L).getLsbD k ^^ decide (L = i.val ∧ k = b))) ∧
  parityIndex Config.ref = some 0 ∧ lowestSetBit Config.ref.parity[0] = 0x1 ∧
  parityIndex Config.toy = some 1 ∧ lowestSetBit Config.toy.parity[1] = 0x10

/-- R144: after the phase the fold is 1, so that a second run changes nothing. -/
def Obligations.CertificationPostcondition : Prop :=
  ∀ (c : Config) (S : List Word), S.length = c.n →
    parityFold c (certifyStore c S) = true ∧ certifyStore c (certifyStore c S) = certifyStore c S

/-- R140, R144, R145: SEED and SEEDARR leave a State Store whose fold is 1. -/
def Obligations.SeededStateIsCertified : Prop :=
  ∀ (i : Instr) (s t : State), i = .seed ∨ i = .seedarr → s.Idle → s.store.length = s.cfg.n → exec i s = .next t →
    t.last = .ok → parityFold t.cfg t.store = true

/-! ### Images -/

/-- R150, R152: EXPORT on a seeded core, with an aligned base and an image that fits, completes; the image holds the `N` words
and the trailer, every byte outside it is as before, and nothing else changed but `LAST`, the latches and `IDX`. -/
def Obligations.ExportWritesImage : Prop :=
  ∀ s : State, s.Idle → s.store.length = s.cfg.n → s.xmem.wf → s.life ≠ .uninit → s.a1.toNat % 4 = 0 →
    s.a1.toNat + 4 * (s.cfg.n + 1) ≤ s.cfg.xlanes →
    ∃ t : State, exec .exportImage s = .next t ∧
      t = { latch .exportImage s with xmem := t.xmem, last := .ok, idx := t.idx } ∧
      (∀ k < s.cfg.n, t.xmem.readWord (s.a1.toNat + 4 * k) = storeWord s.store k) ∧
      (∀ L < s.cfg.n32, t.xmem.readLane (s.a1.toNat + L) = storeLane s.store L) ∧
      t.xmem.readLane (s.a1.toNat + s.cfg.n32) = s.cursor ∧
      t.xmem.readLane (s.a1.toNat + s.cfg.n32 + 1) = 0 ∧ t.xmem.readLane (s.a1.toNat + s.cfg.n32 + 2) = 0 ∧
      t.xmem.readLane (s.a1.toNat + s.cfg.n32 + 3) = 0 ∧
      (∀ b, b < 4 * s.a1.toNat ∨ 4 * (s.a1.toNat + 4 * (s.cfg.n + 1)) ≤ b → t.xmem.readByte b = s.xmem.readByte b) ∧
      t.xmem.wf

/-- R153: IMPORT of an image that passes the checks completes in every lifecycle state: the State Store and the cursor are the
image's, `LIFE` is STREAMING, XMEM is as before, and nothing else changed but `LAST`, the latches and `IDX`. -/
def Obligations.ImportLoadsImage : Prop :=
  ∀ s : State, s.Idle → s.store.length = s.cfg.n → ImageOk s →
    ∃ t : State, exec .importImage s = .next t ∧
      t = { latch .importImage s with
            store := imageStore s.cfg s.xmem s.a1.toNat
            cursor := s.xmem.readLane (s.a1.toNat + s.cfg.n32)
            life := .streaming
            last := .ok
            curl := s.xmem.readLane (s.a1.toNat + s.cfg.n32)
            idx := t.idx }

/-- R151, R154, R155: CMPEQ and CMPNE on a seeded core with an image that passes the checks complete, with 1 and 0 in `RESULT`
(0 and 1 for CMPNE) as the generator state and the image are equal or not, and change nothing else but `LAST`, the latches,
`IDX` and `RACC`. -/
def Obligations.CompareAnswersEquality : Prop :=
  ∀ s : State, s.Idle → s.store.length = s.cfg.n → s.life ≠ .uninit → ImageOk s →
    (∃ t : State, exec .cmpeq s = .next t ∧
      t = { latch .cmpeq s with
            result := if imageEqual s then 1 else 0
            last := .ok
            curl := s.xmem.readLane (s.a1.toNat + s.cfg.n32)
            racc := t.racc
            idx := t.idx }) ∧
    (∃ t : State, exec .cmpne s = .next t ∧
      t = { latch .cmpne s with
            result := if imageEqual s then 0 else 1
            last := .ok
            curl := s.xmem.readLane (s.a1.toNat + s.cfg.n32)
            racc := t.racc
            idx := t.idx })

/-- R156 (reflexive) and R153 (corner case): after an EXPORT that completes, CMPEQ and CMPNE with the same base give 1 and 0, and
IMPORT with the same base leaves the State Store and the cursor as they are. -/
def Obligations.ExportThenCompareAndImport : Prop :=
  ∀ s : State, s.Inv → s.Idle → s.life ≠ .uninit → s.a1.toNat % 4 = 0 →
    s.a1.toNat + 4 * (s.cfg.n + 1) ≤ s.cfg.xlanes →
    ∃ t u v w : State, exec .exportImage s = .next t ∧
      exec .cmpeq t = .next u ∧ u.result = 1 ∧ u.last = .ok ∧
      exec .cmpne t = .next v ∧ v.result = 0 ∧ v.last = .ok ∧
      exec .importImage t = .next w ∧ w.store = s.store ∧ w.cursor = s.cursor ∧ w.life = .streaming ∧ w.last = .ok

/-! ### The whole machine -/

/-- The invariant of the machine (R20, R23, R27, R36, R50, R179) is kept by every step: every command, every host event, every
micro-step, at both levels. -/
def Obligations.StepKeepsInvariant : Prop :=
  ∀ s t : State, s.Inv → step s = .next t → t.Inv

/-- The invariant holds right after reset, for the configuration the build selected and for every other. It rests on no value
that log entries 2 and 3 choose, but for the length of the State Store. -/
def Obligations.ResetMeetsInvariant : Prop :=
  State.reset.Inv ∧ ∀ c : Config, (State.init c).Inv

/-- R8: no step changes the configuration. -/
def Obligations.ConfigNeverChanges : Prop :=
  ∀ s t : State, step s = .next t → t.cfg = s.cfg

/-- R10: the command level is the closure of the micro-step level. A host write of a command's word to `CMD`, followed by as many
turns of the core as R202 gives the command, reaches the state that the command level reaches in one step. -/
def Obligations.MicroStepsReachCommandLevel : Prop :=
  ∀ (s : State) (i : Instr) (rest : List Turn), s.Idle →
    s.script = .host (.wr 0x00 (encode i)) :: (List.replicate (microCount i s) Turn.core ++ rest) →
    ∃ t : State, exec i { s with script := rest } = .next t ∧ runSteps (microCount i s + 1) s = .next t

/-- R80, R81: the expansion `WR CMD, w ; WAIT` of a command statement ends, and ends in the state of the command level. -/
def Obligations.IssueAndWaitReachesCommandLevel : Prop :=
  ∀ (s : State) (i : Instr) (rest : List Turn), s.Idle → s.script = issueAndWait i ++ rest →
    ∃ (t : State) (k : Nat), exec i { s with script := rest } = .next t ∧ t.busy = false ∧ runSteps k s = .next t

/-- R202: an accepted command takes exactly the number of micro-steps of the table: `BUSY` reads 1 before the last of them and 0
after it. -/
def Obligations.MicroStepCountsAreExact : Prop :=
  ∀ (s : State) (i : Instr), s.Idle → (acceptCommand i s).busy = true →
    (∀ k < microCount i s, (microSteps k (acceptCommand i s)).busy = true) ∧
    (microSteps (microCount i s) (acceptCommand i s)).busy = false ∧
    (microSteps (microCount i s) (acceptCommand i s)).last = .ok

/-- R77, R202: from every state that meets the invariant, a running command completes within a bounded number of micro-steps. -/
def Obligations.RunningCommandCompletes : Prop :=
  ∀ s : State, s.Inv → s.busy = true →
    ∃ k ≤ 2 ^ 34, (microSteps k s).busy = false ∧ (microSteps k s).phase = .idle ∧ (microSteps k s).last = .ok

/-- R30, R50, R170, R172: a script that names only registers and lanes that exist never stops the machine, whatever words it
issues; an access to a register or a lane that does not exist stops it with the fault that names it. -/
def Obligations.WellFormedScriptNeverStops : Prop :=
  (∀ s : State, scriptWellFormed s.cfg s.script = true →
    ∃ t : State, step s = .next t ∧ scriptWellFormed t.cfg t.script = true) ∧
  (∀ (s : State) (off : Nat) (v : Lane) (rest : List Turn), registerOffsetOk off = false →
    (s.script = .host (.wr off v) :: rest → step s = .fault (.noSuchRegister off)) ∧
    (s.script = .host (.rd off) :: rest → step s = .fault (.noSuchRegister off))) ∧
  (∀ (s : State) (a : Nat) (v : Lane) (rest : List Turn), s.cfg.xlanes ≤ a →
    (s.script = .host (.xwr a v) :: rest → step s = .fault (.noSuchLane a)) ∧
    (s.script = .host (.xrd a) :: rest → step s = .fault (.noSuchLane a)))

/-- R51, R52, R58: a host write of a lane puts byte `b` of the value at byte address `4 * a + b` and leaves every other byte, and a
host read after it returns the value; lane `j` of a word is lane `a + j`. -/
def Obligations.XmemReadsLastWrite : Prop :=
  (∀ (s : State) (a : Nat) (v : Lane) (rest : List Turn), s.xmem.wf → a < s.cfg.xlanes →
    s.script = .host (.xwr a v) :: .host (.xrd a) :: rest →
    ∃ t u : State, step s = .next t ∧ step t = .next u ∧ u.readback = v :: s.readback ∧ u.script = rest ∧
      u = { s with script := rest, readback := v :: s.readback, xmem := t.xmem } ∧ t.xmem.wf ∧
      (∀ b < 4, t.xmem.readByte (4 * a + b) = v.extractLsb' (8 * b) 8) ∧
      (∀ b, b < 4 * a ∨ 4 * a + 4 ≤ b → t.xmem.readByte b = s.xmem.readByte b)) ∧
  (∀ (m : Memory) (a : Nat) (w : Word), m.wf →
    (∀ j : Fin 4, (m.writeWord a w).readLane (a + j.val) = wordLane w j) ∧
    (∀ j : Fin 4, wordLane (m.readWord a) j = m.readLane (a + j.val)))

/-- R21, R22: the State Store has two views of one storage. A write of lane `L` changes bits `32*(L mod 4)+31` down to
`32*(L mod 4)` of `S[L div 4]` and no other bit; a write of a word is seen through its four lanes and no other. -/
def Obligations.StoreHasTwoViews : Prop :=
  (∀ (S : List Word) (L : Nat) (v : Lane), L < 4 * S.length →
    storeLane (setStoreLane S L v) L = v ∧
    ∀ k < S.length, ∀ b < 128,
      (storeWord (setStoreLane S L v) k).getLsbD b =
        if k = L / 4 ∧ b / 32 = L % 4 then v.getLsbD (b % 32) else (storeWord S k).getLsbD b) ∧
  (∀ (S : List Word) (k L : Nat) (w : Word), k < S.length →
    storeLane (S.set k w) L = if L / 4 = k then wordLane w (Fin.ofNat 4 L) else storeLane S L) ∧
  (∀ (S : List Word) (k : Nat),
    storeWord S k = storeLane S (4 * k + 3) ++ storeLane S (4 * k + 2) ++ storeLane S (4 * k + 1) ++ storeLane S (4 * k))

/-- R24, R76: who writes the generator state. No host event but a reset does, not even the accept step of a command; of the
phases only the seed passes, certification, COPYBACK and IMPORT write the State Store; and GEN and EXPORT alone write XMEM. -/
def Obligations.GeneratorStateWriters : Prop :=
  (∀ (s t : State) (e : HostEvent) (rest : List Turn), s.script = .host e :: rest → e ≠ .reset → e ≠ .wait →
    step s = .next t → t.store = s.store ∧ t.cursor = s.cursor ∧ t.life = s.life) ∧
  (∀ s : State, s.phase = .gen ∨ s.phase = .exporting ∨ s.phase = .compare ∨ s.phase = .idle →
    (microStep s).store = s.store ∧ (microStep s).cursor = s.cursor) ∧
  (∀ s : State, s.phase ≠ .gen → s.phase ≠ .exporting → (microStep s).xmem = s.xmem) ∧
  (∀ (i : Instr) (s : State), (acceptCommand i s).store = s.store ∧ (acceptCommand i s).cursor = s.cursor ∧
    (acceptCommand i s).xmem = s.xmem)

/-- R62: the one synchronisation point. When a command has completed, at the command level, `BUSY` reads 0 and `PHASE` 0, and what
the host reads back of `RESULT`, `CURSOR` and `STATUS` is final: an idle core changes nothing until the host's next turn. -/
def Obligations.IdleCoreWaits : Prop :=
  (∀ (i : Instr) (s t : State), s.Idle → exec i s = .next t → t.Idle) ∧
  (∀ s : State, s.Idle → s.script = [] → step s = .next s) ∧
  (∀ (s : State) (rest : List Turn), s.Idle → s.script = .core :: rest → step s = .next { s with script := rest })
end

