-- ==== Sys2Proof/Laws/State.lean ====
section
/-!
SUPPORT. One lemma per field per named update of the state, each true by `rfl` and tagged `@[simp]`, so that no later proof
unfolds a record update; and what a rejection and a reset leave of each field.
-/

namespace Sys2Proof.Machine

@[simp] theorem latch_cfg (i : Instr) (s : State) : (latch i s).cfg = s.cfg := rfl
@[simp] theorem latch_store (i : Instr) (s : State) : (latch i s).store = s.store := rfl
@[simp] theorem latch_cursor (i : Instr) (s : State) : (latch i s).cursor = s.cursor := rfl
@[simp] theorem latch_life (i : Instr) (s : State) : (latch i s).life = s.life := rfl
@[simp] theorem latch_fault (i : Instr) (s : State) : (latch i s).fault = s.fault := rfl
@[simp] theorem latch_fcause (i : Instr) (s : State) : (latch i s).fcause = s.fcause := rfl
@[simp] theorem latch_errcmd (i : Instr) (s : State) : (latch i s).errcmd = s.errcmd := rfl
@[simp] theorem latch_errinfo (i : Instr) (s : State) : (latch i s).errinfo = s.errinfo := rfl
@[simp] theorem latch_last (i : Instr) (s : State) : (latch i s).last = s.last := rfl
@[simp] theorem latch_a0 (i : Instr) (s : State) : (latch i s).a0 = s.a0 := rfl
@[simp] theorem latch_a1 (i : Instr) (s : State) : (latch i s).a1 = s.a1 := rfl
@[simp] theorem latch_result (i : Instr) (s : State) : (latch i s).result = s.result := rfl
@[simp] theorem latch_busy (i : Instr) (s : State) : (latch i s).busy = s.busy := rfl
@[simp] theorem latch_phase (i : Instr) (s : State) : (latch i s).phase = s.phase := rfl
@[simp] theorem latch_r1 (i : Instr) (s : State) : (latch i s).r1 = s.r1 := rfl
@[simp] theorem latch_r2 (i : Instr) (s : State) : (latch i s).r2 = s.r2 := rfl
@[simp] theorem latch_idx (i : Instr) (s : State) : (latch i s).idx = s.idx := rfl
@[simp] theorem latch_jdx (i : Instr) (s : State) : (latch i s).jdx = s.jdx := rfl
@[simp] theorem latch_racc (i : Instr) (s : State) : (latch i s).racc = s.racc := rfl
@[simp] theorem latch_cnt (i : Instr) (s : State) : (latch i s).cnt = s.cnt := rfl
@[simp] theorem latch_inner (i : Instr) (s : State) : (latch i s).inner = s.inner := rfl
@[simp] theorem latch_opl (i : Instr) (s : State) : (latch i s).opl = i.opcode := rfl
@[simp] theorem latch_a0l (i : Instr) (s : State) : (latch i s).a0l = s.a0 := rfl
@[simp] theorem latch_a1l (i : Instr) (s : State) : (latch i s).a1l = s.a1 := rfl
@[simp] theorem latch_curl (i : Instr) (s : State) : (latch i s).curl = s.curl := rfl
@[simp] theorem latch_xmem (i : Instr) (s : State) : (latch i s).xmem = s.xmem := rfl
@[simp] theorem latch_script (i : Instr) (s : State) : (latch i s).script = s.script := rfl
@[simp] theorem latch_readback (i : Instr) (s : State) : (latch i s).readback = s.readback := rfl

@[simp] theorem enterPhase_cfg (p : Phase) (s : State) : (enterPhase p s).cfg = s.cfg := rfl
@[simp] theorem enterPhase_store (p : Phase) (s : State) : (enterPhase p s).store = s.store := rfl
@[simp] theorem enterPhase_cursor (p : Phase) (s : State) : (enterPhase p s).cursor = s.cursor := rfl
@[simp] theorem enterPhase_life (p : Phase) (s : State) : (enterPhase p s).life = s.life := rfl
@[simp] theorem enterPhase_fault (p : Phase) (s : State) : (enterPhase p s).fault = s.fault := rfl
@[simp] theorem enterPhase_fcause (p : Phase) (s : State) : (enterPhase p s).fcause = s.fcause := rfl
@[simp] theorem enterPhase_errcmd (p : Phase) (s : State) : (enterPhase p s).errcmd = s.errcmd := rfl
@[simp] theorem enterPhase_errinfo (p : Phase) (s : State) : (enterPhase p s).errinfo = s.errinfo := rfl
@[simp] theorem enterPhase_last (p : Phase) (s : State) : (enterPhase p s).last = s.last := rfl
@[simp] theorem enterPhase_a0 (p : Phase) (s : State) : (enterPhase p s).a0 = s.a0 := rfl
@[simp] theorem enterPhase_a1 (p : Phase) (s : State) : (enterPhase p s).a1 = s.a1 := rfl
@[simp] theorem enterPhase_result (p : Phase) (s : State) : (enterPhase p s).result = s.result := rfl
@[simp] theorem enterPhase_busy (p : Phase) (s : State) : (enterPhase p s).busy = true := rfl
@[simp] theorem enterPhase_phase (p : Phase) (s : State) : (enterPhase p s).phase = p := rfl
@[simp] theorem enterPhase_r1 (p : Phase) (s : State) : (enterPhase p s).r1 = s.r1 := rfl
@[simp] theorem enterPhase_r2 (p : Phase) (s : State) : (enterPhase p s).r2 = s.r2 := rfl
@[simp] theorem enterPhase_idx (p : Phase) (s : State) : (enterPhase p s).idx = s.idx := rfl
@[simp] theorem enterPhase_jdx (p : Phase) (s : State) : (enterPhase p s).jdx = s.jdx := rfl
@[simp] theorem enterPhase_racc (p : Phase) (s : State) : (enterPhase p s).racc = s.racc := rfl
@[simp] theorem enterPhase_cnt (p : Phase) (s : State) : (enterPhase p s).cnt = s.cnt := rfl
@[simp] theorem enterPhase_inner (p : Phase) (s : State) : (enterPhase p s).inner = s.inner := rfl
@[simp] theorem enterPhase_opl (p : Phase) (s : State) : (enterPhase p s).opl = s.opl := rfl
@[simp] theorem enterPhase_a0l (p : Phase) (s : State) : (enterPhase p s).a0l = s.a0l := rfl
@[simp] theorem enterPhase_a1l (p : Phase) (s : State) : (enterPhase p s).a1l = s.a1l := rfl
@[simp] theorem enterPhase_curl (p : Phase) (s : State) : (enterPhase p s).curl = s.curl := rfl
@[simp] theorem enterPhase_xmem (p : Phase) (s : State) : (enterPhase p s).xmem = s.xmem := rfl
@[simp] theorem enterPhase_script (p : Phase) (s : State) : (enterPhase p s).script = s.script := rfl
@[simp] theorem enterPhase_readback (p : Phase) (s : State) : (enterPhase p s).readback = s.readback := rfl

@[simp] theorem complete_cfg (s : State) : (complete s).cfg = s.cfg := rfl
@[simp] theorem complete_store (s : State) : (complete s).store = s.store := rfl
@[simp] theorem complete_cursor (s : State) : (complete s).cursor = s.cursor := rfl
@[simp] theorem complete_life (s : State) : (complete s).life = s.life := rfl
@[simp] theorem complete_fault (s : State) : (complete s).fault = s.fault := rfl
@[simp] theorem complete_fcause (s : State) : (complete s).fcause = s.fcause := rfl
@[simp] theorem complete_errcmd (s : State) : (complete s).errcmd = s.errcmd := rfl
@[simp] theorem complete_errinfo (s : State) : (complete s).errinfo = s.errinfo := rfl
@[simp] theorem complete_last (s : State) : (complete s).last = .ok := rfl
@[simp] theorem complete_a0 (s : State) : (complete s).a0 = s.a0 := rfl
@[simp] theorem complete_a1 (s : State) : (complete s).a1 = s.a1 := rfl
@[simp] theorem complete_result (s : State) : (complete s).result = s.result := rfl
@[simp] theorem complete_busy (s : State) : (complete s).busy = false := rfl
@[simp] theorem complete_phase (s : State) : (complete s).phase = .idle := rfl
@[simp] theorem complete_r1 (s : State) : (complete s).r1 = s.r1 := rfl
@[simp] theorem complete_r2 (s : State) : (complete s).r2 = s.r2 := rfl
@[simp] theorem complete_idx (s : State) : (complete s).idx = s.idx := rfl
@[simp] theorem complete_jdx (s : State) : (complete s).jdx = s.jdx := rfl
@[simp] theorem complete_racc (s : State) : (complete s).racc = s.racc := rfl
@[simp] theorem complete_cnt (s : State) : (complete s).cnt = s.cnt := rfl
@[simp] theorem complete_inner (s : State) : (complete s).inner = s.inner := rfl
@[simp] theorem complete_opl (s : State) : (complete s).opl = s.opl := rfl
@[simp] theorem complete_a0l (s : State) : (complete s).a0l = s.a0l := rfl
@[simp] theorem complete_a1l (s : State) : (complete s).a1l = s.a1l := rfl
@[simp] theorem complete_curl (s : State) : (complete s).curl = s.curl := rfl
@[simp] theorem complete_xmem (s : State) : (complete s).xmem = s.xmem := rfl
@[simp] theorem complete_script (s : State) : (complete s).script = s.script := rfl
@[simp] theorem complete_readback (s : State) : (complete s).readback = s.readback := rfl

@[simp] theorem finishAccessor_cfg (v : Lane) (s : State) : (finishAccessor v s).cfg = s.cfg := rfl
@[simp] theorem finishAccessor_store (v : Lane) (s : State) : (finishAccessor v s).store = s.store := rfl
@[simp] theorem finishAccessor_cursor (v : Lane) (s : State) : (finishAccessor v s).cursor = s.cursor := rfl
@[simp] theorem finishAccessor_life (v : Lane) (s : State) : (finishAccessor v s).life = s.life := rfl
@[simp] theorem finishAccessor_fault (v : Lane) (s : State) : (finishAccessor v s).fault = s.fault := rfl
@[simp] theorem finishAccessor_fcause (v : Lane) (s : State) : (finishAccessor v s).fcause = s.fcause := rfl
@[simp] theorem finishAccessor_errcmd (v : Lane) (s : State) : (finishAccessor v s).errcmd = s.errcmd := rfl
@[simp] theorem finishAccessor_errinfo (v : Lane) (s : State) : (finishAccessor v s).errinfo = s.errinfo := rfl
@[simp] theorem finishAccessor_last (v : Lane) (s : State) : (finishAccessor v s).last = .ok := rfl
@[simp] theorem finishAccessor_a0 (v : Lane) (s : State) : (finishAccessor v s).a0 = s.a0 := rfl
@[simp] theorem finishAccessor_a1 (v : Lane) (s : State) : (finishAccessor v s).a1 = s.a1 := rfl
@[simp] theorem finishAccessor_result (v : Lane) (s : State) : (finishAccessor v s).result = v := rfl
@[simp] theorem finishAccessor_busy (v : Lane) (s : State) : (finishAccessor v s).busy = s.busy := rfl
@[simp] theorem finishAccessor_phase (v : Lane) (s : State) : (finishAccessor v s).phase = s.phase := rfl
@[simp] theorem finishAccessor_r1 (v : Lane) (s : State) : (finishAccessor v s).r1 = s.r1 := rfl
@[simp] theorem finishAccessor_r2 (v : Lane) (s : State) : (finishAccessor v s).r2 = s.r2 := rfl
@[simp] theorem finishAccessor_idx (v : Lane) (s : State) : (finishAccessor v s).idx = s.idx := rfl
@[simp] theorem finishAccessor_jdx (v : Lane) (s : State) : (finishAccessor v s).jdx = s.jdx := rfl
@[simp] theorem finishAccessor_racc (v : Lane) (s : State) : (finishAccessor v s).racc = s.racc := rfl
@[simp] theorem finishAccessor_cnt (v : Lane) (s : State) : (finishAccessor v s).cnt = s.cnt := rfl
@[simp] theorem finishAccessor_inner (v : Lane) (s : State) : (finishAccessor v s).inner = s.inner := rfl
@[simp] theorem finishAccessor_opl (v : Lane) (s : State) : (finishAccessor v s).opl = s.opl := rfl
@[simp] theorem finishAccessor_a0l (v : Lane) (s : State) : (finishAccessor v s).a0l = s.a0l := rfl
@[simp] theorem finishAccessor_a1l (v : Lane) (s : State) : (finishAccessor v s).a1l = s.a1l := rfl
@[simp] theorem finishAccessor_curl (v : Lane) (s : State) : (finishAccessor v s).curl = s.curl := rfl
@[simp] theorem finishAccessor_xmem (v : Lane) (s : State) : (finishAccessor v s).xmem = s.xmem := rfl
@[simp] theorem finishAccessor_script (v : Lane) (s : State) : (finishAccessor v s).script = s.script := rfl
@[simp] theorem finishAccessor_readback (v : Lane) (s : State) : (finishAccessor v s).readback = s.readback := rfl

@[simp] theorem recordRead_cfg (v : Lane) (s : State) : (recordRead v s).cfg = s.cfg := rfl
@[simp] theorem recordRead_store (v : Lane) (s : State) : (recordRead v s).store = s.store := rfl
@[simp] theorem recordRead_cursor (v : Lane) (s : State) : (recordRead v s).cursor = s.cursor := rfl
@[simp] theorem recordRead_life (v : Lane) (s : State) : (recordRead v s).life = s.life := rfl
@[simp] theorem recordRead_fault (v : Lane) (s : State) : (recordRead v s).fault = s.fault := rfl
@[simp] theorem recordRead_fcause (v : Lane) (s : State) : (recordRead v s).fcause = s.fcause := rfl
@[simp] theorem recordRead_errcmd (v : Lane) (s : State) : (recordRead v s).errcmd = s.errcmd := rfl
@[simp] theorem recordRead_errinfo (v : Lane) (s : State) : (recordRead v s).errinfo = s.errinfo := rfl
@[simp] theorem recordRead_last (v : Lane) (s : State) : (recordRead v s).last = s.last := rfl
@[simp] theorem recordRead_a0 (v : Lane) (s : State) : (recordRead v s).a0 = s.a0 := rfl
@[simp] theorem recordRead_a1 (v : Lane) (s : State) : (recordRead v s).a1 = s.a1 := rfl
@[simp] theorem recordRead_result (v : Lane) (s : State) : (recordRead v s).result = s.result := rfl
@[simp] theorem recordRead_busy (v : Lane) (s : State) : (recordRead v s).busy = s.busy := rfl
@[simp] theorem recordRead_phase (v : Lane) (s : State) : (recordRead v s).phase = s.phase := rfl
@[simp] theorem recordRead_r1 (v : Lane) (s : State) : (recordRead v s).r1 = s.r1 := rfl
@[simp] theorem recordRead_r2 (v : Lane) (s : State) : (recordRead v s).r2 = s.r2 := rfl
@[simp] theorem recordRead_idx (v : Lane) (s : State) : (recordRead v s).idx = s.idx := rfl
@[simp] theorem recordRead_jdx (v : Lane) (s : State) : (recordRead v s).jdx = s.jdx := rfl
@[simp] theorem recordRead_racc (v : Lane) (s : State) : (recordRead v s).racc = s.racc := rfl
@[simp] theorem recordRead_cnt (v : Lane) (s : State) : (recordRead v s).cnt = s.cnt := rfl
@[simp] theorem recordRead_inner (v : Lane) (s : State) : (recordRead v s).inner = s.inner := rfl
@[simp] theorem recordRead_opl (v : Lane) (s : State) : (recordRead v s).opl = s.opl := rfl
@[simp] theorem recordRead_a0l (v : Lane) (s : State) : (recordRead v s).a0l = s.a0l := rfl
@[simp] theorem recordRead_a1l (v : Lane) (s : State) : (recordRead v s).a1l = s.a1l := rfl
@[simp] theorem recordRead_curl (v : Lane) (s : State) : (recordRead v s).curl = s.curl := rfl
@[simp] theorem recordRead_xmem (v : Lane) (s : State) : (recordRead v s).xmem = s.xmem := rfl
@[simp] theorem recordRead_script (v : Lane) (s : State) : (recordRead v s).script = s.script := rfl
@[simp] theorem recordRead_readback (v : Lane) (s : State) : (recordRead v s).readback = v :: s.readback := rfl

@[simp] theorem resetCore_cfg (s : State) : (resetCore s).cfg = s.cfg := rfl
@[simp] theorem resetCore_store (s : State) : (resetCore s).store = List.replicate s.cfg.n 0 := rfl
@[simp] theorem resetCore_cursor (s : State) : (resetCore s).cursor = 0 := rfl
@[simp] theorem resetCore_life (s : State) : (resetCore s).life = .uninit := rfl
@[simp] theorem resetCore_fault (s : State) : (resetCore s).fault = false := rfl
@[simp] theorem resetCore_fcause (s : State) : (resetCore s).fcause = .ok := rfl
@[simp] theorem resetCore_errcmd (s : State) : (resetCore s).errcmd = 0 := rfl
@[simp] theorem resetCore_errinfo (s : State) : (resetCore s).errinfo = 0 := rfl
@[simp] theorem resetCore_last (s : State) : (resetCore s).last = .ok := rfl
@[simp] theorem resetCore_a0 (s : State) : (resetCore s).a0 = 0 := rfl
@[simp] theorem resetCore_a1 (s : State) : (resetCore s).a1 = 0 := rfl
@[simp] theorem resetCore_result (s : State) : (resetCore s).result = 0 := rfl
@[simp] theorem resetCore_busy (s : State) : (resetCore s).busy = false := rfl
@[simp] theorem resetCore_phase (s : State) : (resetCore s).phase = .idle := rfl
@[simp] theorem resetCore_r1 (s : State) : (resetCore s).r1 = 0 := rfl
@[simp] theorem resetCore_r2 (s : State) : (resetCore s).r2 = 0 := rfl
@[simp] theorem resetCore_idx (s : State) : (resetCore s).idx = 0 := rfl
@[simp] theorem resetCore_jdx (s : State) : (resetCore s).jdx = 0 := rfl
@[simp] theorem resetCore_racc (s : State) : (resetCore s).racc = 0 := rfl
@[simp] theorem resetCore_cnt (s : State) : (resetCore s).cnt = 0 := rfl
@[simp] theorem resetCore_inner (s : State) : (resetCore s).inner = 0 := rfl
@[simp] theorem resetCore_opl (s : State) : (resetCore s).opl = 0 := rfl
@[simp] theorem resetCore_a0l (s : State) : (resetCore s).a0l = 0 := rfl
@[simp] theorem resetCore_a1l (s : State) : (resetCore s).a1l = 0 := rfl
@[simp] theorem resetCore_curl (s : State) : (resetCore s).curl = 0 := rfl
@[simp] theorem resetCore_xmem (s : State) : (resetCore s).xmem = s.xmem := rfl
@[simp] theorem resetCore_script (s : State) : (resetCore s).script = s.script := rfl
@[simp] theorem resetCore_readback (s : State) : (resetCore s).readback = s.readback := rfl

/-! A rejection (R172): only `LAST` and the error record. -/

@[simp] theorem reject_cfg (c : Cause) (w v : Lane) (s : State) : (reject c w v s).cfg = s.cfg := by
  unfold reject; split <;> rfl
@[simp] theorem reject_store (c : Cause) (w v : Lane) (s : State) : (reject c w v s).store = s.store := by
  unfold reject; split <;> rfl
@[simp] theorem reject_cursor (c : Cause) (w v : Lane) (s : State) : (reject c w v s).cursor = s.cursor := by
  unfold reject; split <;> rfl
@[simp] theorem reject_life (c : Cause) (w v : Lane) (s : State) : (reject c w v s).life = s.life := by
  unfold reject; split <;> rfl
@[simp] theorem reject_fault (c : Cause) (w v : Lane) (s : State) : (reject c w v s).fault = true := by
  unfold reject; split
  · next h => exact h
  · rfl
@[simp] theorem reject_fcause (c : Cause) (w v : Lane) (s : State) :
    (reject c w v s).fcause = if s.fault then s.fcause else c := by
  unfold reject; split <;> rfl
@[simp] theorem reject_errcmd (c : Cause) (w v : Lane) (s : State) :
    (reject c w v s).errcmd = if s.fault then s.errcmd else w := by
  unfold reject; split <;> rfl
@[simp] theorem reject_errinfo (c : Cause) (w v : Lane) (s : State) :
    (reject c w v s).errinfo = if s.fault then s.errinfo else v := by
  unfold reject; split <;> rfl
@[simp] theorem reject_last (c : Cause) (w v : Lane) (s : State) : (reject c w v s).last = c := by
  unfold reject; split <;> rfl
@[simp] theorem reject_a0 (c : Cause) (w v : Lane) (s : State) : (reject c w v s).a0 = s.a0 := by
  unfold reject; split <;> rfl
@[simp] theorem reject_a1 (c : Cause) (w v : Lane) (s : State) : (reject c w v s).a1 = s.a1 := by
  unfold reject; split <;> rfl
@[simp] theorem reject_result (c : Cause) (w v : Lane) (s : State) : (reject c w v s).result = s.result := by
  unfold reject; split <;> rfl
@[simp] theorem reject_busy (c : Cause) (w v : Lane) (s : State) : (reject c w v s).busy = s.busy := by
  unfold reject; split <;> rfl
@[simp] theorem reject_phase (c : Cause) (w v : Lane) (s : State) : (reject c w v s).phase = s.phase := by
  unfold reject; split <;> rfl
@[simp] theorem reject_r1 (c : Cause) (w v : Lane) (s : State) : (reject c w v s).r1 = s.r1 := by
  unfold reject; split <;> rfl
@[simp] theorem reject_r2 (c : Cause) (w v : Lane) (s : State) : (reject c w v s).r2 = s.r2 := by
  unfold reject; split <;> rfl
@[simp] theorem reject_idx (c : Cause) (w v : Lane) (s : State) : (reject c w v s).idx = s.idx := by
  unfold reject; split <;> rfl
@[simp] theorem reject_jdx (c : Cause) (w v : Lane) (s : State) : (reject c w v s).jdx = s.jdx := by
  unfold reject; split <;> rfl
@[simp] theorem reject_racc (c : Cause) (w v : Lane) (s : State) : (reject c w v s).racc = s.racc := by
  unfold reject; split <;> rfl
@[simp] theorem reject_cnt (c : Cause) (w v : Lane) (s : State) : (reject c w v s).cnt = s.cnt := by
  unfold reject; split <;> rfl
@[simp] theorem reject_inner (c : Cause) (w v : Lane) (s : State) : (reject c w v s).inner = s.inner := by
  unfold reject; split <;> rfl
@[simp] theorem reject_opl (c : Cause) (w v : Lane) (s : State) : (reject c w v s).opl = s.opl := by
  unfold reject; split <;> rfl
@[simp] theorem reject_a0l (c : Cause) (w v : Lane) (s : State) : (reject c w v s).a0l = s.a0l := by
  unfold reject; split <;> rfl
@[simp] theorem reject_a1l (c : Cause) (w v : Lane) (s : State) : (reject c w v s).a1l = s.a1l := by
  unfold reject; split <;> rfl
@[simp] theorem reject_curl (c : Cause) (w v : Lane) (s : State) : (reject c w v s).curl = s.curl := by
  unfold reject; split <;> rfl
@[simp] theorem reject_xmem (c : Cause) (w v : Lane) (s : State) : (reject c w v s).xmem = s.xmem := by
  unfold reject; split <;> rfl
@[simp] theorem reject_script (c : Cause) (w v : Lane) (s : State) : (reject c w v s).script = s.script := by
  unfold reject; split <;> rfl
@[simp] theorem reject_readback (c : Cause) (w v : Lane) (s : State) : (reject c w v s).readback = s.readback := by
  unfold reject; split <;> rfl

/-- Everything a rejection does (R172), in one record. -/
theorem reject_eq (c : Cause) (w v : Lane) (s : State) :
    reject c w v s =
      { s with
        last := c
        fault := true
        fcause := if s.fault then s.fcause else c
        errcmd := if s.fault then s.errcmd else w
        errinfo := if s.fault then s.errinfo else v } := by
  unfold reject
  split
  · next h => cases s; simp_all
  · rfl

/-- A rejection by one of a command's own checks, in the terms of claims. -/
theorem reject_latch_eq (c : Cause) (i : Instr) (v : Lane) (s : State) :
    reject c (encode i) v (latch i s) = rejectedState c i v s := by
  rw [reject_eq]
  rfl

end Sys2Proof.Machine
end

