-- ==== Sys2Proof/Laws/Accept.lean ====
section
/-!
SUPPORT. What the shared accept step can do (spec/30_encoding.md R76): exactly one of a `BUSY` rejection, the first failing
check, or the entry of the command. Every accept step is an instance of it.
-/

namespace Sys2Proof.Machine

/-- The first check that fails stands in the list and does fail. -/
theorem firstFailure_some {cs : List Check} {c : Check} (h : firstFailure cs = some c) : c ∈ cs ∧ c.fails = true :=
  ⟨List.mem_of_find?_eq_some h, List.find?_some h⟩

theorem firstFailure_none {cs : List Check} : firstFailure cs = none ↔ ∀ c ∈ cs, c.fails = false := by
  simp [firstFailure]

@[simp] theorem firstFailure_nil : firstFailure [] = none := rfl

/-- The head of the list is reported if it fails; otherwise the rest decides (R173). -/
theorem firstFailure_cons (c : Check) (cs : List Check) :
    firstFailure (c :: cs) = if c.fails then some c else firstFailure cs := by
  unfold firstFailure
  rw [List.find?_cons]
  cases c.fails <;> rfl

section
variable {i : Instr} {checks : State → List Check} {enter : State → State} {s : State}

theorem acceptWith_busy (h : s.busy = true) : acceptWith i checks enter s = reject .busy (encode i) (encode i) s := by
  simp [acceptWith, h]

theorem acceptWith_rejects {c : Check} (h : s.busy = false) (hc : firstFailure (checks s) = some c) :
    acceptWith i checks enter s = rejectedState c.cause i c.info s := by
  simp only [acceptWith, h, hc, Bool.false_eq_true, if_false]
  exact reject_latch_eq _ _ _ _

theorem acceptWith_enters (h : s.busy = false) (hc : firstFailure (checks s) = none) :
    acceptWith i checks enter s = enter (latch i s) := by
  simp [acceptWith, h, hc]

/-- Everything the accept step can answer. -/
theorem acceptWith_cases (i : Instr) (checks : State → List Check) (enter : State → State) (s : State) :
    (s.busy = true ∧ acceptWith i checks enter s = reject .busy (encode i) (encode i) s) ∨
      (s.busy = false ∧ ∃ c ∈ checks s, c.fails = true ∧ acceptWith i checks enter s = rejectedState c.cause i c.info s) ∨
      (s.busy = false ∧ (∀ c ∈ checks s, c.fails = false) ∧ acceptWith i checks enter s = enter (latch i s)) := by
  cases hb : s.busy with
  | true => exact .inl ⟨rfl, acceptWith_busy hb⟩
  | false =>
    cases hc : firstFailure (checks s) with
    | some c =>
      exact .inr (.inl ⟨rfl, c, (firstFailure_some hc).1, (firstFailure_some hc).2, acceptWith_rejects hb hc⟩)
    | none => exact .inr (.inr ⟨rfl, firstFailure_none.1 hc, acceptWith_enters hb hc⟩)

end

end Sys2Proof.Machine
end

