-- ==== Sys2Proof/Laws/Arith.lean ====
section
/-!
SUPPORT. The bounds of the configuration (spec/00_scope.md R5) as plain arithmetic, and loop indices held in 32-bit registers that
never wrap (spec/10_state.md R36: "no index ever wraps at 2^32").
-/

namespace Sys2Proof.Machine

theorem n32_eq (c : Config) : c.n32 = 4 * c.n := rfl

theorem n64_eq (c : Config) : c.n64 = 2 * c.n := by
  unfold Config.n64 Config.n32
  omega

theorem n32_lt (c : Config) : c.n32 < 2 ^ 32 := by
  have := c.nRange
  unfold Config.n32
  omega

theorem n_lt (c : Config) : c.n < 2 ^ 30 := by
  have := c.nRange
  omega

theorem two_le_n (c : Config) : 2 ≤ c.n := c.nRange.1

theorem pos1_pos (c : Config) : 1 ≤ c.pos1 := c.pos1Range.1

theorem pos1_lt (c : Config) : c.pos1 < c.n := by
  have := c.pos1Range
  have := c.nRange
  omega

theorem xlanes_le (c : Config) : c.xlanes ≤ 2 ^ 32 := c.xlanesRange.1

@[simp] theorem ofNat_n32_toNat (c : Config) : (BitVec.ofNat 32 c.n32).toNat = c.n32 :=
  Nat.mod_eq_of_lt (n32_lt c)

/-- A register that holds the loop index `k` holds `k + 1` after its increment. -/
theorem ofNat_add_one (k : Nat) : BitVec.ofNat 32 k + 1 = BitVec.ofNat 32 (k + 1) := by
  apply BitVec.eq_of_toNat_eq
  simp

theorem ofNat_toNat_of_lt {k : Nat} (h : k < 2 ^ 32) : (BitVec.ofNat 32 k).toNat = k := Nat.mod_eq_of_lt h

theorem toNat_add_one_of_lt {x : Lane} {b : Nat} (h : x.toNat < b) (hb : b ≤ 2 ^ 32) (h' : x.toNat + 1 ≠ b) :
    (x + 1).toNat = x.toNat + 1 := by
  have : (x + 1).toNat = (x.toNat + 1) % 2 ^ 32 := by simp
  rw [this, Nat.mod_eq_of_lt (by omega)]

end Sys2Proof.Machine
end

