-- ==== Sys2Proof/Laws/Micro.lean ====
section
/-!
SUPPORT. Micro-steps and their closure (spec/00_scope.md R10, spec/10_state.md R36): composing them, what an idle core does, and
the fields no micro-step of any phase touches.
-/

namespace Sys2Proof.Machine

@[simp] theorem microSteps_zero (s : State) : microSteps 0 s = s := rfl

theorem microSteps_succ (k : Nat) (s : State) : microSteps (k + 1) s = microSteps k (microStep s) := rfl

theorem microSteps_add (j k : Nat) (s : State) : microSteps (j + k) s = microSteps k (microSteps j s) := by
  induction j generalizing s with
  | zero => simp
  | succ j ih => rw [Nat.succ_add, microSteps_succ, microSteps_succ, ih]

/-- The last micro-step taken out of the front. -/
theorem microSteps_succ' (k : Nat) (s : State) : microSteps (k + 1) s = microStep (microSteps k s) :=
  microSteps_add k 1 s

@[simp] theorem microStep_idle {s : State} (h : s.phase = .idle) : microStep s = s := by
  simp [microStep, h]

@[simp] theorem microSteps_idle {s : State} (h : s.phase = .idle) (k : Nat) : microSteps k s = s := by
  induction k with
  | zero => rfl
  | succ k ih => rw [microSteps_succ, microStep_idle h, ih]

/-- The fields no micro-step writes: the configuration, the host's registers and agent, the error record and the latches. -/
structure MicroFrame (s t : State) : Prop where
  cfg : t.cfg = s.cfg
  fault : t.fault = s.fault
  fcause : t.fcause = s.fcause
  errcmd : t.errcmd = s.errcmd
  errinfo : t.errinfo = s.errinfo
  a0 : t.a0 = s.a0
  a1 : t.a1 = s.a1
  opl : t.opl = s.opl
  a0l : t.a0l = s.a0l
  a1l : t.a1l = s.a1l
  curl : t.curl = s.curl
  script : t.script = s.script
  readback : t.readback = s.readback

theorem MicroFrame.refl (s : State) : MicroFrame s s := ⟨rfl, rfl, rfl, rfl, rfl, rfl, rfl, rfl, rfl, rfl, rfl, rfl, rfl⟩

theorem MicroFrame.trans {s t u : State} (h : MicroFrame s t) (h' : MicroFrame t u) : MicroFrame s u :=
  ⟨h'.cfg.trans h.cfg, h'.fault.trans h.fault, h'.fcause.trans h.fcause, h'.errcmd.trans h.errcmd,
    h'.errinfo.trans h.errinfo, h'.a0.trans h.a0, h'.a1.trans h.a1, h'.opl.trans h.opl, h'.a0l.trans h.a0l,
    h'.a1l.trans h.a1l, h'.curl.trans h.curl, h'.script.trans h.script, h'.readback.trans h.readback⟩

/-- Every micro-step keeps the frame, in every phase. -/
theorem microStep_frame (s : State) : MicroFrame s (microStep s) := by
  unfold microStep
  cases s.phase
  case idle => exact .refl s
  case seedLoop => unfold seedLoopStep; dsimp only; split <;> exact ⟨rfl, rfl, rfl, rfl, rfl, rfl, rfl, rfl, rfl, rfl, rfl, rfl, rfl⟩
  case arrPattern => unfold arrPatternStep; dsimp only; split <;> exact ⟨rfl, rfl, rfl, rfl, rfl, rfl, rfl, rfl, rfl, rfl, rfl, rfl, rfl⟩
  case arrMix0 => exact ⟨rfl, rfl, rfl, rfl, rfl, rfl, rfl, rfl, rfl, rfl, rfl, rfl, rfl⟩
  case arrKey =>
    unfold arrKeyStep; dsimp only
    split
    · split <;> exact ⟨rfl, rfl, rfl, rfl, rfl, rfl, rfl, rfl, rfl, rfl, rfl, rfl, rfl⟩
    · exact ⟨rfl, rfl, rfl, rfl, rfl, rfl, rfl, rfl, rfl, rfl, rfl, rfl, rfl⟩
  case arrPad => unfold arrPadStep; dsimp only; split <;> exact ⟨rfl, rfl, rfl, rfl, rfl, rfl, rfl, rfl, rfl, rfl, rfl, rfl, rfl⟩
  case arrWhiten => unfold arrWhitenStep; dsimp only; split <;> exact ⟨rfl, rfl, rfl, rfl, rfl, rfl, rfl, rfl, rfl, rfl, rfl, rfl, rfl⟩
  case certify => exact ⟨rfl, rfl, rfl, rfl, rfl, rfl, rfl, rfl, rfl, rfl, rfl, rfl, rfl⟩
  case gen => unfold genStep; dsimp only; split <;> exact ⟨rfl, rfl, rfl, rfl, rfl, rfl, rfl, rfl, rfl, rfl, rfl, rfl, rfl⟩
  case copyback => unfold copybackStep; dsimp only; split <;> exact ⟨rfl, rfl, rfl, rfl, rfl, rfl, rfl, rfl, rfl, rfl, rfl, rfl, rfl⟩
  case exporting => unfold exportStep; dsimp only; split <;> exact ⟨rfl, rfl, rfl, rfl, rfl, rfl, rfl, rfl, rfl, rfl, rfl, rfl, rfl⟩
  case importing => unfold importStep; dsimp only; split <;> exact ⟨rfl, rfl, rfl, rfl, rfl, rfl, rfl, rfl, rfl, rfl, rfl, rfl, rfl⟩
  case compare => unfold compareStep; dsimp only; split <;> exact ⟨rfl, rfl, rfl, rfl, rfl, rfl, rfl, rfl, rfl, rfl, rfl, rfl, rfl⟩

theorem microSteps_frame (k : Nat) (s : State) : MicroFrame s (microSteps k s) := by
  induction k generalizing s with
  | zero => exact .refl s
  | succ k ih => exact (microStep_frame s).trans (ih (microStep s))

/-- At the command level: a rejection by `BUSY`, the accept step alone where it leaves no command running, or the micro-steps
after it. -/
theorem commandLevel_busy {i : Instr} {accept : State → State} {s : State} (h : s.busy = true) :
    commandLevel i accept s = accept s := by
  simp [commandLevel, h]

theorem commandLevel_done {i : Instr} {accept : State → State} {s : State} (h : (accept s).busy = false) :
    commandLevel i accept s = accept s := by
  simp [commandLevel, h]

theorem commandLevel_runs {i : Instr} {accept : State → State} {s : State} (h : s.busy = false) (h' : (accept s).busy = true) :
    commandLevel i accept s = microSteps (microCount i s) (accept s) := by
  simp [commandLevel, h, h']

end Sys2Proof.Machine
end

