-- ==== Sys2Proof/Laws/Exec.lean ====
section
/-!
SUPPORT. The twelve meanings in one form: every command is its list of checks and its entry, given to the shared accept step and
closed by the micro-steps (spec/30_encoding.md R76, spec/00_scope.md R10). What `exec` answers in each of the three cases.
-/

namespace Sys2Proof.Machine

/-- The checks of a command, in their order (R173). -/
def commandChecks : Instr → State → List Check
  | .idlen, _ | .minsz32, _ | .minsz64, _ | .seed, _ => []
  | .idbyte, s => [checkByteIndex s]
  | .fill32, s => fill32Checks s
  | .fill64, s => fill64Checks s
  | .seedarr, s => [checkKeyRange s]
  | .cmpeq, s | .cmpne, s => compareChecks s
  | .exportImage, s => exportChecks s
  | .importImage, s => importChecks s

/-- What the accept step of a command does to the latched state once the checks of `s` have passed (R76). -/
def commandEntry : Instr → State → State → State
  | .idlen, s => finishAccessor (BitVec.ofNat 32 s.cfg.idlen)
  | .idbyte, s => finishAccessor ((s.cfg.idstr.getD s.a0.toNat 0).setWidth 32)
  | .minsz32, s => finishAccessor (BitVec.ofNat 32 s.cfg.n32)
  | .minsz64, s => finishAccessor (BitVec.ofNat 32 s.cfg.n64)
  | .fill32, s => enterGen (fill32Words s.a0)
  | .fill64, s => enterGen (fill64Words s.a0)
  | .seed, _ => enterSeed
  | .seedarr, _ => enterSeedarr
  | .cmpeq, _ | .cmpne, _ => enterCompare
  | .exportImage, _ => enterExport
  | .importImage, _ => enterImport

theorem acceptCommand_eq (i : Instr) (s : State) :
    acceptCommand i s = acceptWith i (commandChecks i) (commandEntry i s) s := by
  cases i <;> rfl

theorem exec_eq (i : Instr) (s : State) : exec i s = .next (commandLevel i (acceptCommand i) s) := by
  cases i <;> rfl

/-- Every check has a cause that is not `OK`. -/
theorem commandChecks_cause {i : Instr} {s : State} : ∀ {c : Check}, c ∈ commandChecks i s → c.cause ≠ .ok := by
  cases i <;>
    simp [commandChecks, fill32Checks, fill64Checks, compareChecks, exportChecks, importChecks, checkByteIndex, checkSeeded,
      checkExhausted, checkCount32, checkCount64, checkAligned, checkRange, checkKeyRange, checkImage]

/-- A command that reaches a running core (R172, R195). -/
theorem exec_busy {i : Instr} {s : State} (h : s.busy = true) :
    exec i s = .next (reject .busy (encode i) (encode i) s) ∧ acceptCommand i s = reject .busy (encode i) (encode i) s := by
  have e : acceptCommand i s = reject .busy (encode i) (encode i) s := by rw [acceptCommand_eq, acceptWith_busy h]
  exact ⟨by rw [exec_eq, commandLevel_busy h, e], e⟩

/-- A command whose first failing check is `c` (R172). -/
theorem exec_rejects {i : Instr} {s : State} {c : Check} (h : s.Idle) (hc : firstFailure (commandChecks i s) = some c) :
    exec i s = .next (rejectedState c.cause i c.info s) ∧ acceptCommand i s = rejectedState c.cause i c.info s := by
  have e : acceptCommand i s = rejectedState c.cause i c.info s := by rw [acceptCommand_eq, acceptWith_rejects h.1 hc]
  exact ⟨by rw [exec_eq, commandLevel_done (by rw [e]; exact h.1), e], e⟩

/-- A command that is accepted (R76). -/
theorem exec_enters {i : Instr} {s : State} (h : s.Idle) (hc : firstFailure (commandChecks i s) = none) :
    exec i s = .next (microSteps (microCount i s) (commandEntry i s (latch i s))) ∧
      acceptCommand i s = commandEntry i s (latch i s) := by
  have e : acceptCommand i s = commandEntry i s (latch i s) := by rw [acceptCommand_eq, acceptWith_enters h.1 hc]
  refine ⟨?_, e⟩
  rw [exec_eq]
  cases hb : (commandEntry i s (latch i s)).busy with
  | true => rw [commandLevel_runs h.1 (by rw [e]; exact hb), e]
  | false =>
    rw [commandLevel_done (by rw [e]; exact hb), e]
    cases i <;> first | rfl | cases hb

/-- On an idle core a command is the closure of its micro-steps, whether it is accepted or rejected (R10). -/
theorem exec_closure {i : Instr} {s : State} (h : s.Idle) :
    exec i s = .next (microSteps (microCount i s) (acceptCommand i s)) := by
  cases hc : firstFailure (commandChecks i s) with
  | some c =>
    rw [(exec_rejects h hc).1, (exec_rejects h hc).2, microSteps_idle (show (rejectedState _ _ _ s).phase = .idle from h.2)]
  | none => rw [(exec_enters h hc).1, (exec_enters h hc).2]

/-- Everything `exec` can answer on an idle core. -/
theorem exec_cases (i : Instr) {s : State} (h : s.Idle) :
    (∃ c ∈ commandChecks i s, c.fails = true ∧ exec i s = .next (rejectedState c.cause i c.info s) ∧
        acceptCommand i s = rejectedState c.cause i c.info s) ∨
      ((∀ c ∈ commandChecks i s, c.fails = false) ∧
        exec i s = .next (microSteps (microCount i s) (commandEntry i s (latch i s))) ∧
        acceptCommand i s = commandEntry i s (latch i s)) := by
  cases hc : firstFailure (commandChecks i s) with
  | some c => exact .inl ⟨c, (firstFailure_some hc).1, (firstFailure_some hc).2, exec_rejects h hc⟩
  | none => exact .inr ⟨firstFailure_none.1 hc, exec_enters h hc⟩

end Sys2Proof.Machine
end

