-- ==== Sys2Proof/Laws/Word.lean ====
section
/-!
SUPPORT. Lanes of a word (spec/00_scope.md R13, spec/10_state.md R22): reading back a lane that was put together or replaced,
and a word as the sum of its lanes.
-/

namespace Sys2Proof.Machine

/-- The bits of a word put together from four lanes. -/
theorem getLsbD_wordOfLanes (l0 l1 l2 l3 : Lane) (k : Nat) :
    (wordOfLanes l0 l1 l2 l3).getLsbD k =
      if k < 32 then l0.getLsbD k else if k < 64 then l1.getLsbD (k - 32) else if k < 96 then l2.getLsbD (k - 64)
      else l3.getLsbD (k - 96) := by
  have h : (l3 ++ l2 ++ l1 ++ l0 : BitVec (32 + 32 + 32 + 32)).getLsbD k =
      if k < 32 then l0.getLsbD k else if k < 64 then l1.getLsbD (k - 32) else if k < 96 then l2.getLsbD (k - 64)
      else l3.getLsbD (k - 96) := by
    simp only [BitVec.getLsbD_append]
    have h1 : (k - 32 < 32) = (k < 64 ∨ k < 32) := by apply propext; omega
    have h2 : (k - 32 - 32 < 32) = (k < 96) := by apply propext; omega
    have h3 : k - 32 - 32 = k - 64 := by omega
    have h4 : k - 64 - 32 = k - 96 := by omega
    have h5 : (k - 64 < 32) = (k < 96) := by apply propext; omega
    simp only [h1, h3, h4, h5]
    split
    · rfl
    · next h32 => simp [h32]
  exact h

theorem getLsbD_wordLane (w : Word) (j : Fin 4) (k : Nat) :
    (wordLane w j).getLsbD k = (decide (k < 32) && w.getLsbD (32 * j.val + k)) := by
  simp [wordLane, BitVec.getLsbD_extractLsb']

@[simp] theorem wordLane_wordOfLanes_zero (l0 l1 l2 l3 : Lane) : wordLane (wordOfLanes l0 l1 l2 l3) 0 = l0 := by
  apply BitVec.eq_of_getLsbD_eq
  intro k hk
  rw [getLsbD_wordLane, getLsbD_wordOfLanes]
  simp [hk]

@[simp] theorem wordLane_wordOfLanes_one (l0 l1 l2 l3 : Lane) : wordLane (wordOfLanes l0 l1 l2 l3) 1 = l1 := by
  apply BitVec.eq_of_getLsbD_eq
  intro k hk
  have h : 32 + k < 64 := by omega
  rw [getLsbD_wordLane, getLsbD_wordOfLanes]
  simp [hk, h]

@[simp] theorem wordLane_wordOfLanes_two (l0 l1 l2 l3 : Lane) : wordLane (wordOfLanes l0 l1 l2 l3) 2 = l2 := by
  apply BitVec.eq_of_getLsbD_eq
  intro k hk
  have h0 : ¬ 64 + k < 32 := by omega
  have h : 64 + k < 96 := by omega
  rw [getLsbD_wordLane, getLsbD_wordOfLanes]
  simp [hk, h, h0]

@[simp] theorem wordLane_wordOfLanes_three (l0 l1 l2 l3 : Lane) : wordLane (wordOfLanes l0 l1 l2 l3) 3 = l3 := by
  apply BitVec.eq_of_getLsbD_eq
  intro k hk
  have h0 : ¬ 96 + k < 32 := by omega
  have h1 : ¬ 96 + k < 64 := by omega
  rw [getLsbD_wordLane, getLsbD_wordOfLanes]
  simp [hk, h0, h1]

/-- A word is put together again from its four lanes (R13). -/
@[simp] theorem wordOfLanes_wordLane (w : Word) :
    wordOfLanes (wordLane w 0) (wordLane w 1) (wordLane w 2) (wordLane w 3) = w := by
  apply BitVec.eq_of_getLsbD_eq
  intro k hk
  simp only [getLsbD_wordOfLanes, getLsbD_wordLane]
  split
  · next h => simp [h]
  · split
    · have h1 : k - 32 < 32 := by omega
      have h2 : 32 + (k - 32) = k := by omega
      simp [h1, h2]
    · split
      · have h1 : k - 64 < 32 := by omega
        have h2 : 64 + (k - 64) = k := by omega
        simp [h1, h2]
      · have h1 : k - 96 < 32 := by omega
        have h2 : 96 + (k - 96) = k := by omega
        simp [h1, h2]

/-- Two words with the same four lanes are the same word. -/
theorem word_ext {v w : Word} (h : ∀ j : Fin 4, wordLane v j = wordLane w j) : v = w := by
  rw [← wordOfLanes_wordLane v, ← wordOfLanes_wordLane w, h 0, h 1, h 2, h 3]

/-- A write of one lane: that lane holds the value, the others are as they were (R22). -/
theorem wordLane_setWordLane (w : Word) (j k : Fin 4) (v : Lane) :
    wordLane (setWordLane w j v) k = if j = k then v else wordLane w k := by
  match k with
  | 0 => simp [setWordLane]
  | 1 => simp [setWordLane]
  | 2 => simp [setWordLane]
  | 3 => simp [setWordLane]

@[simp] theorem wordLane_zero (j : Fin 4) : wordLane (0 : Word) j = 0 := by
  simp [wordLane]

theorem wordLane_xor (v w : Word) (j : Fin 4) : wordLane (v ^^^ w) j = wordLane v j ^^^ wordLane w j := by
  simp [wordLane, BitVec.extractLsb'_xor]

end Sys2Proof.Machine
end

