-- ==== Sys2Proof/Laws/Memory.lean ====
section
/-!
SUPPORT. XMEM (spec/20_memory.md R51, R52, R58): a read after a write, what a write leaves alone, and the canonical form, which
every memory operation keeps and in which equal memories are equal lists.
-/

namespace Sys2Proof.Machine

/-! ### Bytes -/

theorem readByte_of_lt_head {m : Memory} {a : Nat} (h : ∀ e ∈ m, a < e.1) : Memory.readByte m a = Memory.blank := by
  induction m with
  | nil => rfl
  | cons e m ih =>
    obtain ⟨b, v⟩ := e
    have hb : a < b := h (b, v) (by simp)
    simp only [Memory.readByte, if_neg (Nat.ne_of_lt hb)]
    exact ih fun e he => h e (by simp [he])

theorem wf_tail {e : Host.Cell} {m : Memory} (h : Memory.wf (e :: m)) : Memory.wf m :=
  ⟨(List.pairwise_cons.1 h.1).2, fun x hx => h.2 x (by simp [hx])⟩

theorem wf_head_lt {e : Host.Cell} {m : Memory} (h : Memory.wf (e :: m)) : ∀ x ∈ m, e.1 < x.1 :=
  fun x hx => (List.pairwise_cons.1 h.1).1 x.1 (List.mem_map_of_mem hx)

theorem wf_cons {e : Host.Cell} {m : Memory} (h : Memory.wf m) (hlt : ∀ x ∈ m, e.1 < x.1) (hv : e.2 ≠ Memory.blank) :
    Memory.wf (e :: m) := by
  refine ⟨List.pairwise_cons.2 ⟨?_, h.1⟩, ?_⟩
  · intro b hb
    obtain ⟨x, hx, rfl⟩ := List.mem_map.1 hb
    exact hlt x hx
  · intro x hx
    rcases List.mem_cons.1 hx with rfl | hx
    · exact hv
    · exact h.2 x hx

theorem mem_eraseByte {m : Memory} {a : Nat} {e : Host.Cell} (h : e ∈ Memory.eraseByte m a) : e ∈ m := by
  induction m with
  | nil => exact h
  | cons x m ih =>
    obtain ⟨b, v⟩ := x
    simp only [Memory.eraseByte] at h
    split at h
    · exact List.mem_cons_of_mem _ h
    · rcases List.mem_cons.1 h with rfl | h
      · simp
      · exact List.mem_cons_of_mem _ (ih h)

theorem mem_insertByte {m : Memory} {a : Nat} {v : Byte} {e : Host.Cell} (h : e ∈ Memory.insertByte m a v) :
    e = (a, v) ∨ e ∈ m := by
  induction m with
  | nil => simpa [Memory.insertByte] using h
  | cons x m ih =>
    obtain ⟨b, u⟩ := x
    simp only [Memory.insertByte] at h
    split at h
    · simpa using h
    · split at h
      · rcases List.mem_cons.1 h with h | h
        · exact .inl h
        · exact .inr (List.mem_cons_of_mem _ h)
      · rcases List.mem_cons.1 h with rfl | h
        · simp
        · rcases ih h with h | h
          · exact .inl h
          · exact .inr (List.mem_cons_of_mem _ h)

theorem eraseByte_wf {m : Memory} (h : Memory.wf m) (a : Nat) : Memory.wf (Memory.eraseByte m a) := by
  induction m with
  | nil => exact h
  | cons x m ih =>
    obtain ⟨b, v⟩ := x
    simp only [Memory.eraseByte]
    split
    · exact wf_tail h
    · exact wf_cons (ih (wf_tail h)) (fun x hx => wf_head_lt h x (mem_eraseByte hx)) (h.2 (b, v) (by simp))

theorem insertByte_wf {m : Memory} (h : Memory.wf m) (a : Nat) {v : Byte} (hv : v ≠ Memory.blank) :
    Memory.wf (Memory.insertByte m a v) := by
  induction m with
  | nil => exact wf_cons h (by simp) hv
  | cons x m ih =>
    obtain ⟨b, u⟩ := x
    simp only [Memory.insertByte]
    split
    · next hab =>
      refine wf_cons h (fun x hx => ?_) hv
      rcases List.mem_cons.1 hx with rfl | hx
      · exact hab
      · exact Nat.lt_trans hab (wf_head_lt h x hx)
    · split
      · next hab =>
        subst hab
        exact wf_cons (wf_tail h) (fun x hx => wf_head_lt h x hx) hv
      · refine wf_cons (ih (wf_tail h)) (fun x hx => ?_) (h.2 (b, u) (by simp))
        rcases mem_insertByte hx with rfl | hx
        · show b < a
          omega
        · exact wf_head_lt h x hx

/-- Every byte write keeps the canonical form. -/
theorem writeByte_wf {m : Memory} (h : Memory.wf m) (a : Nat) (v : Byte) : Memory.wf (m.writeByte a v) := by
  unfold Memory.writeByte
  split
  · exact eraseByte_wf h a
  · next hv => exact insertByte_wf h a hv

theorem writeByte_within {m : Memory} {x a : Nat} (h : m.within x) (ha : a < 4 * x) (v : Byte) :
    (m.writeByte a v).within x := by
  unfold Memory.writeByte
  intro e he
  split at he
  · exact h e (mem_eraseByte he)
  · rcases mem_insertByte he with rfl | he
    · exact ha
    · exact h e he

theorem readByte_eraseByte_ne {m : Memory} {a b : Nat} (hab : b ≠ a) :
    (Memory.eraseByte m a).readByte b = m.readByte b := by
  induction m with
  | nil => rfl
  | cons x m ih =>
    obtain ⟨c, v⟩ := x
    simp only [Memory.eraseByte]
    split
    · next h =>
      subst h
      simp [Memory.readByte, hab]
    · simp only [Memory.readByte, ih]

theorem readByte_insertByte {m : Memory} {a b : Nat} {v : Byte} :
    (Memory.insertByte m a v).readByte b = if b = a then v else m.readByte b := by
  induction m with
  | nil => rfl
  | cons x m ih =>
    obtain ⟨c, u⟩ := x
    simp only [Memory.insertByte]
    split
    · simp only [Memory.readByte]
    · split
      · next h =>
        subst h
        simp only [Memory.readByte]
        split <;> simp_all
      · next h =>
        simp only [Memory.readByte, ih]
        split
        · next hc =>
          have : b ≠ a := by rintro rfl; exact h hc
          simp [this]
        · rfl

/-- Every other byte reads as before a write, whatever form the listing has. -/
theorem readByte_writeByte_ne {m : Memory} {a b : Nat} (v : Byte) (hab : b ≠ a) :
    (m.writeByte a v).readByte b = m.readByte b := by
  unfold Memory.writeByte
  split
  · exact readByte_eraseByte_ne hab
  · simp [readByte_insertByte, hab]

/-- A read after a write to the same byte gives the value written (R58). -/
theorem readByte_writeByte_same {m : Memory} (h : Memory.wf m) (a : Nat) (v : Byte) : (m.writeByte a v).readByte a = v := by
  unfold Memory.writeByte
  split
  · next hv =>
    subst hv
    induction m with
    | nil => rfl
    | cons x m ih =>
      obtain ⟨c, u⟩ := x
      simp only [Memory.eraseByte]
      split
      · next hc =>
        subst hc
        exact readByte_of_lt_head (wf_head_lt h)
      · next hc => simp only [Memory.readByte, if_neg hc, ih (wf_tail h)]
  · simp [readByte_insertByte]

/-- In canonical form, memories that read the same everywhere are the same list. -/
theorem memory_ext {m m' : Memory} (h : Memory.wf m) (h' : Memory.wf m') (heq : ∀ a, m.readByte a = m'.readByte a) :
    m = m' := by
  induction m generalizing m' with
  | nil =>
    cases m' with
    | nil => rfl
    | cons e m' =>
      have := heq e.1
      simp [Memory.readByte] at this
      exact absurd this.symm (h'.2 e (by simp))
  | cons e m ih =>
    cases m' with
    | nil =>
      have := heq e.1
      simp [Memory.readByte] at this
      exact absurd this (h.2 e (by simp))
    | cons e' m' =>
      have hle : ∀ {x y : Host.Cell} {p q : Memory}, Memory.wf (x :: p) → Memory.wf (y :: q) →
          (∀ a, Memory.readByte (x :: p) a = Memory.readByte (y :: q) a) → ¬ x.1 < y.1 := by
        intro x y p q hx hy hxy hlt
        have h1 := hxy x.1
        rw [readByte_of_lt_head (m := y :: q)] at h1
        · simp [Memory.readByte] at h1
          exact hx.2 x (by simp) h1
        · intro z hz
          rcases List.mem_cons.1 hz with rfl | hz
          · exact hlt
          · exact Nat.lt_trans hlt (wf_head_lt hy z hz)
      have hfst : e.1 = e'.1 :=
        Nat.le_antisymm (Nat.le_of_not_lt (hle h' h fun a => (heq a).symm)) (Nat.le_of_not_lt (hle h h' heq))
      have hsnd : e.2 = e'.2 := by
        have := heq e.1
        simpa [Memory.readByte, hfst] using this
      have he : e = e' := Prod.ext hfst hsnd
      subst he
      refine congrArg _ (ih (wf_tail h) (wf_tail h') fun a => ?_)
      by_cases ha : a = e.1
      · subst ha
        rw [readByte_of_lt_head (wf_head_lt h), readByte_of_lt_head (wf_head_lt h')]
      · have := heq a
        simpa [Memory.readByte, ha] using this

/-! ### Lanes -/

theorem writeLane_wf {m : Memory} (h : Memory.wf m) (a : Nat) (v : Lane) : Memory.wf (m.writeLane a v) :=
  writeByte_wf (writeByte_wf (writeByte_wf (writeByte_wf h _ _) _ _) _ _) _ _

theorem writeLane_within {m : Memory} {x a : Nat} (h : m.within x) (ha : a < x) (v : Lane) : (m.writeLane a v).within x :=
  writeByte_within (writeByte_within (writeByte_within (writeByte_within h (by omega) _) (by omega) _) (by omega) _)
    (by omega) _

theorem readByte_writeLane_ne {m : Memory} {a b : Nat} (v : Lane) (h : b < 4 * a ∨ 4 * a + 3 < b) :
    (m.writeLane a v).readByte b = m.readByte b := by
  unfold Memory.writeLane
  rw [readByte_writeByte_ne _ (by omega), readByte_writeByte_ne _ (by omega), readByte_writeByte_ne _ (by omega),
    readByte_writeByte_ne _ (by omega)]

/-- R58 for lanes: another lane is untouched by a write. -/
theorem readLane_writeLane_ne {m : Memory} {a b : Nat} (v : Lane) (h : b ≠ a) :
    (m.writeLane a v).readLane b = m.readLane b := by
  unfold Memory.readLane
  rw [readByte_writeLane_ne _ (by omega), readByte_writeLane_ne _ (by omega), readByte_writeLane_ne _ (by omega),
    readByte_writeLane_ne _ (by omega)]

theorem lane_of_bytes (v : Lane) :
    v.extractLsb' 24 8 ++ v.extractLsb' 16 8 ++ v.extractLsb' 8 8 ++ v.extractLsb' 0 8 = v := by
  ext k hk
  simp only [BitVec.getElem_append, BitVec.getElem_extractLsb']
  split
  · simp [BitVec.getLsbD_eq_getElem hk]
  · split
    · have : 8 + (k - 8) = k := by omega
      simp [this, BitVec.getLsbD_eq_getElem hk]
    · split
      · have : 16 + (k - 8 - 8) = k := by omega
        simp [this, BitVec.getLsbD_eq_getElem hk]
      · have : 24 + (k - 8 - 8 - 8) = k := by omega
        simp [this, BitVec.getLsbD_eq_getElem hk]

/-- R58 for lanes: a read returns the value of the last write to that lane. -/
theorem readLane_writeLane_same {m : Memory} (h : Memory.wf m) (a : Nat) (v : Lane) : (m.writeLane a v).readLane a = v := by
  have h0 := writeByte_wf h (4 * a) (v.extractLsb' 0 8)
  have h1 := writeByte_wf h0 (4 * a + 1) (v.extractLsb' 8 8)
  have h2 := writeByte_wf h1 (4 * a + 2) (v.extractLsb' 16 8)
  have e3 : (m.writeLane a v).readByte (4 * a + 3) = v.extractLsb' 24 8 := readByte_writeByte_same h2 _ _
  have e2 : (m.writeLane a v).readByte (4 * a + 2) = v.extractLsb' 16 8 := by
    unfold Memory.writeLane
    rw [readByte_writeByte_ne _ (by omega)]
    exact readByte_writeByte_same h1 _ _
  have e1 : (m.writeLane a v).readByte (4 * a + 1) = v.extractLsb' 8 8 := by
    unfold Memory.writeLane
    rw [readByte_writeByte_ne _ (by omega), readByte_writeByte_ne _ (by omega)]
    exact readByte_writeByte_same h0 _ _
  have e0 : (m.writeLane a v).readByte (4 * a) = v.extractLsb' 0 8 := by
    unfold Memory.writeLane
    rw [readByte_writeByte_ne _ (by omega), readByte_writeByte_ne _ (by omega), readByte_writeByte_ne _ (by omega)]
    exact readByte_writeByte_same h _ _
  rw [Memory.readLane, e0, e1, e2, e3]
  exact lane_of_bytes v

/-! ### Words -/

theorem writeWord_wf {m : Memory} (h : Memory.wf m) (a : Nat) (w : Word) : Memory.wf (m.writeWord a w) :=
  writeLane_wf (writeLane_wf (writeLane_wf (writeLane_wf h _ _) _ _) _ _) _ _

theorem writeWord_within {m : Memory} {x a : Nat} (h : m.within x) (ha : a + 3 < x) (w : Word) :
    (m.writeWord a w).within x :=
  writeLane_within (writeLane_within (writeLane_within (writeLane_within h (by omega) _) (by omega) _) (by omega) _) ha _

theorem readByte_writeWord_ne {m : Memory} {a b : Nat} (w : Word) (h : b < 4 * a ∨ 4 * (a + 4) ≤ b) :
    (m.writeWord a w).readByte b = m.readByte b := by
  unfold Memory.writeWord
  rw [readByte_writeLane_ne _ (by omega), readByte_writeLane_ne _ (by omega), readByte_writeLane_ne _ (by omega),
    readByte_writeLane_ne _ (by omega)]

theorem readLane_writeWord_ne {m : Memory} {a b : Nat} (w : Word) (h : b < a ∨ a + 4 ≤ b) :
    (m.writeWord a w).readLane b = m.readLane b := by
  unfold Memory.writeWord
  rw [readLane_writeLane_ne _ (by omega), readLane_writeLane_ne _ (by omega), readLane_writeLane_ne _ (by omega),
    readLane_writeLane_ne _ (by omega)]

/-- R51: lane `j` of a word written at `a` is lane `X[a + j]`. -/
theorem readLane_writeWord {m : Memory} (h : Memory.wf m) (a : Nat) (w : Word) (j : Fin 4) :
    (m.writeWord a w).readLane (a + j.val) = wordLane w j := by
  have h0 := writeLane_wf h a (wordLane w 0)
  have h1 := writeLane_wf h0 (a + 1) (wordLane w 1)
  have h2 := writeLane_wf h1 (a + 2) (wordLane w 2)
  unfold Memory.writeWord
  match j with
  | 0 =>
    show Memory.readLane _ a = _
    rw [readLane_writeLane_ne _ (by omega), readLane_writeLane_ne _ (by omega), readLane_writeLane_ne _ (by omega)]
    exact readLane_writeLane_same h _ _
  | 1 =>
    show Memory.readLane _ (a + 1) = _
    rw [readLane_writeLane_ne _ (by omega), readLane_writeLane_ne _ (by omega)]
    exact readLane_writeLane_same h0 _ _
  | 2 =>
    show Memory.readLane _ (a + 2) = _
    rw [readLane_writeLane_ne _ (by omega)]
    exact readLane_writeLane_same h1 _ _
  | 3 => exact readLane_writeLane_same h2 _ _

/-- R58 for words: a read returns the value of the last write. -/
theorem readWord_writeWord_same {m : Memory} (h : Memory.wf m) (a : Nat) (w : Word) : (m.writeWord a w).readWord a = w := by
  have e0 : (m.writeWord a w).readLane a = wordLane w 0 := readLane_writeWord h a w 0
  have e1 : (m.writeWord a w).readLane (a + 1) = wordLane w 1 := readLane_writeWord h a w 1
  have e2 : (m.writeWord a w).readLane (a + 2) = wordLane w 2 := readLane_writeWord h a w 2
  have e3 : (m.writeWord a w).readLane (a + 3) = wordLane w 3 := readLane_writeWord h a w 3
  rw [Memory.readWord, e0, e1, e2, e3]
  exact wordOfLanes_wordLane w

/-- R58 for words: a word that does not overlap the one written is untouched. -/
theorem readWord_writeWord_ne {m : Memory} {a b : Nat} (w : Word) (h : b + 4 ≤ a ∨ a + 4 ≤ b) :
    (m.writeWord a w).readWord b = m.readWord b := by
  unfold Memory.readWord
  rw [readLane_writeWord_ne _ (by omega), readLane_writeWord_ne _ (by omega), readLane_writeWord_ne _ (by omega),
    readLane_writeWord_ne _ (by omega)]

/-- Lane `j` of the word at `a` is lane `X[a + j]` (R51). -/
theorem wordLane_readWord (m : Memory) (a : Nat) (j : Fin 4) : wordLane (m.readWord a) j = m.readLane (a + j.val) := by
  match j with
  | 0 => simp [Memory.readWord]
  | 1 => simp [Memory.readWord]
  | 2 => simp [Memory.readWord]
  | 3 => simp [Memory.readWord]

end Sys2Proof.Machine
end

