-- ==== Sys2Proof/Laws/Store.lean ====
section
/-!
SUPPORT. The State Store (spec/10_state.md R20 to R22): the lane view and the word view are one storage, a write of one lane
changes that lane alone, and no write changes the length.
-/

namespace Sys2Proof.Machine

@[simp] theorem setStoreLane_length (S : List Word) (L : Nat) (v : Lane) : (setStoreLane S L v).length = S.length := by
  simp [setStoreLane]

theorem storeWord_set (S : List Word) (k j : Nat) (w : Word) (hk : k < S.length) :
    storeWord (S.set k w) j = if k = j then w else storeWord S j := by
  unfold storeWord
  by_cases h : k = j
  · subst h
    simp [List.getD, hk]
  · simp [List.getD, h]

/-- R22: a write of lane `L` is seen through the lane view at `L` and nowhere else. -/
theorem storeLane_setStoreLane (S : List Word) (L M : Nat) (v : Lane) (hL : L / 4 < S.length) :
    storeLane (setStoreLane S L v) M = if L = M then v else storeLane S M := by
  unfold storeLane setStoreLane
  rw [storeWord_set _ _ _ _ hL]
  by_cases hq : L / 4 = M / 4
  · rw [if_pos hq, wordLane_setWordLane]
    by_cases hr : L = M
    · subst hr
      simp
    · have hf : (Fin.ofNat 4 L) ≠ (Fin.ofNat 4 M) := by
        intro h
        have h := congrArg Fin.val h
        simp only [Fin.val_ofNat] at h
        omega
      rw [if_neg hf, if_neg hr, hq]
  · have hr : L ≠ M := by
      rintro rfl
      exact hq rfl
    rw [if_neg hq, if_neg hr]

/-- R21: `S[k]` is put together from `SL[4k]` to `SL[4k+3]`. -/
theorem storeWord_eq_lanes (S : List Word) (k : Nat) :
    storeWord S k = wordOfLanes (storeLane S (4 * k)) (storeLane S (4 * k + 1)) (storeLane S (4 * k + 2))
      (storeLane S (4 * k + 3)) := by
  have q0 : 4 * k / 4 = k := by omega
  have q1 : (4 * k + 1) / 4 = k := by omega
  have q2 : (4 * k + 2) / 4 = k := by omega
  have q3 : (4 * k + 3) / 4 = k := by omega
  have r0 : Fin.ofNat 4 (4 * k) = 0 := by apply Fin.ext; simp
  have r1 : Fin.ofNat 4 (4 * k + 1) = 1 := by apply Fin.ext; simp
  have r2 : Fin.ofNat 4 (4 * k + 2) = 2 := by apply Fin.ext; simp
  have r3 : Fin.ofNat 4 (4 * k + 3) = 3 := by apply Fin.ext; simp
  simp only [storeLane, q0, q1, q2, q3, r0, r1, r2, r3, wordOfLanes_wordLane]

/-- Stores of one length that hold the same words are the same list. -/
theorem store_ext {S T : List Word} (hl : S.length = T.length) (h : ∀ k < S.length, storeWord S k = storeWord T k) :
    S = T := by
  apply List.ext_getElem hl
  intro k h1 h2
  have := h k h1
  simpa [storeWord, List.getD, h1, h2] using this

/-- Stores of one length that hold the same lanes are the same list (R21). -/
theorem store_ext_lanes {S T : List Word} (hl : S.length = T.length)
    (h : ∀ L < 4 * S.length, storeLane S L = storeLane T L) : S = T := by
  refine store_ext hl fun k hk => ?_
  rw [storeWord_eq_lanes S, storeWord_eq_lanes T, h (4 * k) (by omega), h (4 * k + 1) (by omega), h (4 * k + 2) (by omega),
    h (4 * k + 3) (by omega)]

@[simp] theorem storeOfLanes_length (n : Nat) (f : Nat → Lane) : (storeOfLanes n f).length = n := by
  simp [storeOfLanes]

/-- The lanes of a store given by its lanes. -/
theorem storeLane_storeOfLanes (n : Nat) (f : Nat → Lane) (L : Nat) (hL : L < 4 * n) :
    storeLane (storeOfLanes n f) L = f L := by
  have hk : L / 4 < n := by omega
  have hw : storeWord (storeOfLanes n f) (L / 4) =
      wordOfLanes (f (4 * (L / 4))) (f (4 * (L / 4) + 1)) (f (4 * (L / 4) + 2)) (f (4 * (L / 4) + 3)) := by
    simp [storeWord, storeOfLanes, List.getD, hk]
  unfold storeLane
  rw [hw]
  have hL4 : L = 4 * (L / 4) + L % 4 := by omega
  have hr : L % 4 = 0 ∨ L % 4 = 1 ∨ L % 4 = 2 ∨ L % 4 = 3 := by omega
  rcases hr with h | h | h | h
  · have : Fin.ofNat 4 L = 0 := by apply Fin.ext; simpa [Fin.val_ofNat] using h
    rw [this, wordLane_wordOfLanes_zero]
    congr 1
    omega
  · have : Fin.ofNat 4 L = 1 := by apply Fin.ext; simpa [Fin.val_ofNat] using h
    rw [this, wordLane_wordOfLanes_one]
    congr 1
    omega
  · have : Fin.ofNat 4 L = 2 := by apply Fin.ext; simpa [Fin.val_ofNat] using h
    rw [this, wordLane_wordOfLanes_two]
    congr 1
    omega
  · have : Fin.ofNat 4 L = 3 := by apply Fin.ext; simpa [Fin.val_ofNat] using h
    rw [this, wordLane_wordOfLanes_three]
    congr 1
    omega

end Sys2Proof.Machine
end

