-- ==== Sys2Proof/Laws/Stream.lean ====
section
/-!
SUPPORT. The stream of a State Store (spec/40_recursion.md R97): the lists `streamUpTo` grow at the end only, so that a word of
the stream can be read from any of them that is long enough.
-/

namespace Sys2Proof.Machine

variable {c : Config} {S : List Word}

theorem streamUpTo_length (k : Nat) : (streamUpTo c S k).length = S.length + k := by
  induction k with
  | zero => rfl
  | succ k ih => simp [streamUpTo, ih, Nat.add_assoc]

theorem streamUpTo_getD_succ {j k : Nat} (hj : j < S.length + k) :
    (streamUpTo c S (k + 1)).getD j 0 = (streamUpTo c S k).getD j 0 := by
  have h : j < (streamUpTo c S k).length := by rw [streamUpTo_length]; exact hj
  simp only [streamUpTo, List.getD_eq_getElem?_getD]
  rw [List.getElem?_append_left h]

theorem streamUpTo_getD_add {j k : Nat} (hj : j < S.length + k) (l : Nat) :
    (streamUpTo c S (k + l)).getD j 0 = (streamUpTo c S k).getD j 0 := by
  induction l with
  | zero => rfl
  | succ l ih => rw [← Nat.add_assoc, streamUpTo_getD_succ (by omega), ih]

/-- Word `j` of the stream, read from any list that reaches it. -/
theorem streamUpTo_getD (hS : S.length = c.n) {j k : Nat} (hj : j < c.n + k) :
    (streamUpTo c S k).getD j 0 = streamWord c S j := by
  unfold streamWord
  by_cases h : j + 1 - c.n ≤ k
  · obtain ⟨l, rfl⟩ := Nat.exists_eq_add_of_le h
    exact streamUpTo_getD_add (by omega) l
  · omega

theorem streamUpTo_last (hS : S.length = c.n) (k : Nat) :
    (streamUpTo c S (k + 1)).getD (c.n + k) 0 =
      sfmtRec c ((streamUpTo c S k).getD k 0) ((streamUpTo c S k).getD (k + c.pos1) 0)
        ((streamUpTo c S k).getD (c.n + k - 2) 0) ((streamUpTo c S k).getD (c.n + k - 1) 0) := by
  have hl : (streamUpTo c S k).length = c.n + k := by rw [streamUpTo_length, hS]
  simp only [streamUpTo, List.getD_eq_getElem?_getD]
  rw [List.getElem?_append_right (by omega), hl, Nat.sub_self]
  rfl

end Sys2Proof.Machine
end

