-- ==== Sys2Proof/Laws/FillLoop.lean ====
section
/-!
SUPPORT. The loop controller of a fill (spec/41_array_fill.md R104 to R108): where the GEN loop stands after `i` micro-steps, and
where the COPYBACK loop stands after `j`.
-/

namespace Sys2Proof.Machine

/-- What the GEN loop has done after `i` of its micro-steps: the first `i` words of output are in the buffer, `R1` and `R2` hold
the last two words of the stream, every other byte of XMEM is as it was, and nothing else has changed. -/
structure GenAt (s : State) (i : Nat) (t : State) : Prop where
  state : t =
    { s with
      xmem := t.xmem
      r1 := streamWord s.cfg s.store (s.cfg.n + i - 2)
      r2 := streamWord s.cfg s.store (s.cfg.n + i - 1)
      idx := BitVec.ofNat 32 i }
  wf : t.xmem.wf
  output : ∀ k < i, t.xmem.readWord (s.a1l.toNat + 4 * k) = streamWord s.cfg s.store (s.cfg.n + k)
  outside : ∀ b, b < 4 * s.a1l.toNat ∨ 4 * (s.a1l.toNat + 4 * i) ≤ b → t.xmem.readByte b = s.xmem.readByte b

/-- R105: the operand with circular index `k` is word `k` of the stream, from the State Store or from the buffer. -/
theorem fillOperand_eq {s t : State} {i k : Nat} (hl : s.store.length = s.cfg.n) (h : GenAt s i t) (hk : k < s.cfg.n + i) :
    fillOperand t k = streamWord s.cfg s.store k := by
  unfold fillOperand
  rw [h.state]
  simp only
  split
  · next hlt => rw [← streamUpTo_getD (k := 0) hl (by omega)]; rfl
  · rw [h.output (k - s.cfg.n) (by omega)]
    congr 1
    omega

/-- A word of output is `REC` of the operands the GEN step reads. -/
theorem streamWord_next {c : Config} {S : List Word} (hl : S.length = c.n) (i : Nat) :
    streamWord c S (c.n + i) =
      sfmtRec c (streamWord c S i) (streamWord c S (i + c.pos1)) (streamWord c S (c.n + i - 2))
        (streamWord c S (c.n + i - 1)) := by
  have := two_le_n c
  have := pos1_lt c
  rw [← streamUpTo_getD hl (k := i + 1) (by omega), streamUpTo_last hl, streamUpTo_getD hl (by omega),
    streamUpTo_getD hl (by omega), streamUpTo_getD hl (by omega), streamUpTo_getD hl (by omega)]

/-- One more GEN step, not the last. -/
theorem genStep_next {s t : State} {i : Nat} (hl : s.store.length = s.cfg.n) (hi : i + 1 < s.cnt.toNat) (h : GenAt s i t) :
    GenAt s (i + 1) (genStep t) := by
  have hb := s.cnt.isLt
  have hn := two_le_n s.cfg
  have hidx : t.idx.toNat = i := by rw [h.state]; exact ofNat_toNat_of_lt (by omega)
  have ha := fillOperand_eq hl h (k := i) (by omega)
  have hbw := fillOperand_eq hl h (k := i + s.cfg.pos1) (by have := pos1_lt s.cfg; omega)
  have hcfg : t.cfg = s.cfg := by rw [h.state]
  have ha1 : t.a1l = s.a1l := by rw [h.state]
  have hcnt : t.cnt = s.cnt := by rw [h.state]
  have hr1 : t.r1 = streamWord s.cfg s.store (s.cfg.n + i - 2) := by rw [h.state]
  have hr2 : t.r2 = streamWord s.cfg s.store (s.cfg.n + i - 1) := by rw [h.state]
  have hix : t.idx + 1 = BitVec.ofNat 32 (i + 1) := by rw [h.state]; exact ofNat_add_one i
  have key : genStep t =
      { t with
        xmem := t.xmem.writeWord (s.a1l.toNat + 4 * i) (streamWord s.cfg s.store (s.cfg.n + i))
        r1 := streamWord s.cfg s.store (s.cfg.n + i - 1)
        r2 := streamWord s.cfg s.store (s.cfg.n + i)
        idx := BitVec.ofNat 32 (i + 1) } := by
    unfold genStep
    simp only [hidx, hcfg, ha1, hcnt, ha, hbw, hr1, hr2, hix, ← streamWord_next hl]
    rw [if_neg (by omega)]
  refine ⟨?_, ?_, ?_, ?_⟩
  · have e1 : s.cfg.n + (i + 1) - 2 = s.cfg.n + i - 1 := by omega
    have e2 : s.cfg.n + (i + 1) - 1 = s.cfg.n + i := by omega
    rw [key, h.state, e1, e2]
  · rw [key]; exact writeWord_wf h.wf _ _
  · intro k hk
    rw [key]
    by_cases hki : k = i
    · subst hki; exact readWord_writeWord_same h.wf _ _
    · rw [readWord_writeWord_ne _ (by omega)]
      exact h.output k (by omega)
  · intro b hb'
    rw [key, readByte_writeWord_ne _ (by omega)]
    exact h.outside b (by omega)

/-- The GEN loop after `i` micro-steps, `i` below the word count. -/
theorem gen_loop {s : State} (hl : s.store.length = s.cfg.n) (hm : s.xmem.wf) (hp : s.phase = .gen) (hi0 : s.idx = 0)
    (hr1 : s.r1 = storeWord s.store (s.cfg.n - 2)) (hr2 : s.r2 = storeWord s.store (s.cfg.n - 1)) {i : Nat}
    (hi : i < s.cnt.toNat) : GenAt s i (microSteps i s) := by
  have hn := two_le_n s.cfg
  induction i with
  | zero =>
    refine ⟨?_, hm, fun k hk => absurd hk (Nat.not_lt_zero k), fun _ _ => rfl⟩
    have e1 : streamWord s.cfg s.store (s.cfg.n + 0 - 2) = s.r1 := by
      rw [hr1, ← streamUpTo_getD (k := 0) hl (by omega)]; rfl
    have e2 : streamWord s.cfg s.store (s.cfg.n + 0 - 1) = s.r2 := by
      rw [hr2, ← streamUpTo_getD (k := 0) hl (by omega)]; rfl
    rw [e1, e2, show BitVec.ofNat 32 0 = s.idx from hi0.symm]
    rfl
  | succ i ih =>
    have h := ih (by omega)
    rw [microSteps_succ']
    have hph : (microSteps i s).phase = .gen := by rw [h.state]; exact hp
    have : microStep (microSteps i s) = genStep (microSteps i s) := by simp [microStep, hph]
    rw [this]
    exact genStep_next hl (by omega) h

/-- What the whole GEN loop leaves: the buffer full, the State Store untouched, and COPYBACK about to start. -/
structure GenDone (s : State) (t : State) : Prop where
  state : t =
    { s with
      xmem := t.xmem
      r1 := t.r1
      r2 := t.r2
      idx := 0
      phase := .copyback }
  wf : t.xmem.wf
  output : ∀ k < s.cnt.toNat, t.xmem.readWord (s.a1l.toNat + 4 * k) = streamWord s.cfg s.store (s.cfg.n + k)
  outside : ∀ b, b < 4 * s.a1l.toNat ∨ 4 * (s.a1l.toNat + 4 * s.cnt.toNat) ≤ b → t.xmem.readByte b = s.xmem.readByte b

theorem gen_done {s : State} (hl : s.store.length = s.cfg.n) (hm : s.xmem.wf) (hp : s.phase = .gen) (hi0 : s.idx = 0)
    (hr1 : s.r1 = storeWord s.store (s.cfg.n - 2)) (hr2 : s.r2 = storeWord s.store (s.cfg.n - 1))
    (hc : 0 < s.cnt.toNat) : GenDone s (microSteps s.cnt.toNat s) := by
  obtain ⟨i, hi⟩ : ∃ i, s.cnt.toNat = i + 1 := ⟨s.cnt.toNat - 1, by omega⟩
  have h := gen_loop hl hm hp hi0 hr1 hr2 (i := i) (by omega)
  have hb := s.cnt.isLt
  have hn := two_le_n s.cfg
  generalize ht : microSteps i s = t at h
  have hidx : t.idx.toNat = i := by rw [h.state]; exact ofNat_toNat_of_lt (by omega)
  have ha := fillOperand_eq hl h (k := i) (by omega)
  have hbw := fillOperand_eq hl h (k := i + s.cfg.pos1) (by have := pos1_lt s.cfg; omega)
  have hcfg : t.cfg = s.cfg := by rw [h.state]
  have ha1 : t.a1l = s.a1l := by rw [h.state]
  have hcnt : t.cnt = s.cnt := by rw [h.state]
  have hr1 : t.r1 = streamWord s.cfg s.store (s.cfg.n + i - 2) := by rw [h.state]
  have hr2 : t.r2 = streamWord s.cfg s.store (s.cfg.n + i - 1) := by rw [h.state]
  have hph : t.phase = .gen := by rw [h.state]; exact hp
  have key : microSteps s.cnt.toNat s =
      { t with
        xmem := t.xmem.writeWord (s.a1l.toNat + 4 * i) (streamWord s.cfg s.store (s.cfg.n + i))
        r1 := streamWord s.cfg s.store (s.cfg.n + i - 1)
        r2 := streamWord s.cfg s.store (s.cfg.n + i)
        idx := 0
        phase := .copyback } := by
    rw [hi, microSteps_succ', ht]
    simp only [microStep, hph, genStep, hidx, hcfg, ha1, hcnt, ha, hbw, hr1, hr2, ← streamWord_next hl]
    rw [if_pos hi.symm]
  refine ⟨?_, ?_, ?_, ?_⟩
  · rw [key, h.state]
  · rw [key]; exact writeWord_wf h.wf _ _
  · intro k hk
    rw [key]
    by_cases hki : k = i
    · subst hki; exact readWord_writeWord_same h.wf _ _
    · rw [readWord_writeWord_ne _ (by omega)]
      exact h.output k (by omega)
  · intro b hb'
    rw [key, readByte_writeWord_ne _ (by omega)]
    exact h.outside b (by omega)

/-- Where the COPYBACK loop stands after `j` of its micro-steps. -/
structure CopyAt (s : State) (j : Nat) (t : State) : Prop where
  state : t = { s with store := t.store, idx := BitVec.ofNat 32 j }
  length : t.store.length = s.store.length
  copied : ∀ k < j, storeWord t.store k = s.xmem.readWord (s.a1l.toNat + 4 * (s.cnt.toNat - s.cfg.n + k))

theorem copy_loop {s : State} (hl : s.store.length = s.cfg.n) (hp : s.phase = .copyback) (hi0 : s.idx = 0) {j : Nat}
    (hj : j < s.cfg.n) : CopyAt s j (microSteps j s) := by
  have hn := n_lt s.cfg
  induction j with
  | zero =>
    refine ⟨?_, rfl, fun k hk => absurd hk (Nat.not_lt_zero k)⟩
    rw [show BitVec.ofNat 32 0 = s.idx from hi0.symm]
    rfl
  | succ j ih =>
    have h := ih (by omega)
    rw [microSteps_succ']
    generalize microSteps j s = t at h
    have hidx : t.idx.toNat = j := by rw [h.state]; exact ofNat_toNat_of_lt (by omega)
    have hix : t.idx + 1 = BitVec.ofNat 32 (j + 1) := by rw [h.state]; exact ofNat_add_one j
    have hph : t.phase = .copyback := by rw [h.state]; exact hp
    have hcfg : t.cfg = s.cfg := by rw [h.state]
    have ha1 : t.a1l = s.a1l := by rw [h.state]
    have hcnt : t.cnt = s.cnt := by rw [h.state]
    have hx : t.xmem = s.xmem := by rw [h.state]
    have key : microStep t =
        { t with
          store := t.store.set j (s.xmem.readWord (s.a1l.toNat + 4 * (s.cnt.toNat - s.cfg.n + j)))
          idx := BitVec.ofNat 32 (j + 1) } := by
      simp only [microStep, hph, copybackStep, hidx, hcfg, ha1, hcnt, hx, hix]
      rw [if_neg (by omega)]
    refine ⟨?_, ?_, ?_⟩
    · rw [key, h.state]
    · rw [key]; simpa using h.length
    · intro k hk
      rw [key]
      simp only
      rw [storeWord_set _ _ _ _ (by rw [h.length]; omega)]
      by_cases hkj : j = k
      · subst hkj; simp
      · rw [if_neg hkj]
        exact h.copied k (by omega)

/-- What the whole COPYBACK loop leaves: the last `N` words of the buffer in the State Store, and the fill completed (R108). -/
theorem copy_done {s : State} (hl : s.store.length = s.cfg.n) (hp : s.phase = .copyback) (hi0 : s.idx = 0) :
    microSteps s.cfg.n s =
      { s with
        store := (List.range s.cfg.n).map fun k => s.xmem.readWord (s.a1l.toNat + 4 * (s.cnt.toNat - s.cfg.n + k))
        idx := BitVec.ofNat 32 s.cfg.n
        cursor := BitVec.ofNat 32 s.cfg.n32
        life := .streaming
        last := .ok
        phase := .idle
        busy := false } := by
  have hn := n_lt s.cfg
  have hn2 := two_le_n s.cfg
  obtain ⟨j, hj⟩ : ∃ j, s.cfg.n = j + 1 := ⟨s.cfg.n - 1, by omega⟩
  have h := copy_loop hl hp hi0 (j := j) (by omega)
  rw [show microSteps s.cfg.n s = microStep (microSteps j s) by rw [hj, microSteps_succ']]
  generalize microSteps j s = t at h
  have hidx : t.idx.toNat = j := by rw [h.state]; exact ofNat_toNat_of_lt (by omega)
  have hix : t.idx + 1 = BitVec.ofNat 32 s.cfg.n := by rw [h.state, hj]; exact ofNat_add_one j
  have hph : t.phase = .copyback := by rw [h.state]; exact hp
  have hcfg : t.cfg = s.cfg := by rw [h.state]
  have ha1 : t.a1l = s.a1l := by rw [h.state]
  have hcnt : t.cnt = s.cnt := by rw [h.state]
  have hx : t.xmem = s.xmem := by rw [h.state]
  have hstore : t.store.set j (s.xmem.readWord (s.a1l.toNat + 4 * (s.cnt.toNat - s.cfg.n + j))) =
      (List.range s.cfg.n).map fun k => s.xmem.readWord (s.a1l.toNat + 4 * (s.cnt.toNat - s.cfg.n + k)) := by
    apply store_ext
    · simp [h.length, hl]
    · intro k hk
      have hk' : k < s.cfg.n := by simpa [h.length, hl] using hk
      rw [storeWord_set _ _ _ _ (by rw [h.length]; omega)]
      have : storeWord ((List.range s.cfg.n).map fun k =>
          s.xmem.readWord (s.a1l.toNat + 4 * (s.cnt.toNat - s.cfg.n + k))) k =
          s.xmem.readWord (s.a1l.toNat + 4 * (s.cnt.toNat - s.cfg.n + k)) := by
        simp [storeWord, List.getD, hk']
      rw [this]
      by_cases hkj : j = k
      · subst hkj; simp
      · rw [if_neg hkj]
        exact h.copied k (by omega)
  simp only [microStep, hph, copybackStep, hidx, hcfg, ha1, hcnt, hx, hix, hstore, complete]
  rw [if_pos hj.symm, h.state]

end Sys2Proof.Machine
end

