-- ==== Sys2Proof/Laws/ImageLoop.lean ====
section
/-!
SUPPORT. The loops of the image commands (spec/44_comparator_and_image.md R152 to R155): where each stands after `k` micro-steps
and what it leaves.
-/

namespace Sys2Proof.Machine

/-! ### EXPORT -/

/-- Where EXPORT stands after `k` of its micro-steps. -/
structure ExportAt (s : State) (k : Nat) (t : State) : Prop where
  state : t = { s with xmem := t.xmem, idx := BitVec.ofNat 32 k }
  wf : t.xmem.wf
  words : ∀ j < k, t.xmem.readWord (s.a1l.toNat + 4 * j) = storeWord s.store j
  outside : ∀ b, b < 4 * s.a1l.toNat ∨ 4 * (s.a1l.toNat + 4 * k) ≤ b → t.xmem.readByte b = s.xmem.readByte b

theorem export_loop {s : State} (hm : s.xmem.wf) (hp : s.phase = .exporting) (hi0 : s.idx = 0) {k : Nat}
    (hk : k ≤ s.cfg.n) : ExportAt s k (microSteps k s) := by
  have hn := n_lt s.cfg
  induction k with
  | zero =>
    refine ⟨?_, hm, fun j hj => absurd hj (Nat.not_lt_zero j), fun _ _ => rfl⟩
    rw [show BitVec.ofNat 32 0 = s.idx from hi0.symm]
    rfl
  | succ k ih =>
    have h := ih (by omega)
    rw [microSteps_succ']
    generalize microSteps k s = t at h
    have hidx : t.idx.toNat = k := by rw [h.state]; exact ofNat_toNat_of_lt (by omega)
    have hix : t.idx + 1 = BitVec.ofNat 32 (k + 1) := by rw [h.state]; exact ofNat_add_one k
    have hph : t.phase = .exporting := by rw [h.state]; exact hp
    have hcfg : t.cfg = s.cfg := by rw [h.state]
    have ha1 : t.a1l = s.a1l := by rw [h.state]
    have hS : t.store = s.store := by rw [h.state]
    have key : microStep t =
        { t with
          xmem := t.xmem.writeWord (s.a1l.toNat + 4 * k) (storeWord s.store k)
          idx := BitVec.ofNat 32 (k + 1) } := by
      have h1 : k < s.cfg.n := by omega
      have h2 : ¬ k = s.cfg.n := by omega
      simp only [microStep, hph, exportStep, hidx, hcfg, ha1, hS, hix, if_pos h1, if_neg h2]
    refine ⟨?_, ?_, ?_, ?_⟩
    · rw [key, h.state]
    · rw [key]; exact writeWord_wf h.wf _ _
    · intro j hj
      rw [key]
      by_cases hjk : j = k
      · subst hjk; exact readWord_writeWord_same h.wf _ _
      · rw [readWord_writeWord_ne _ (by omega)]
        exact h.words j (by omega)
    · intro b hb
      rw [key, readByte_writeWord_ne _ (by omega)]
      exact h.outside b (by omega)

/-- What EXPORT leaves: the image, with its trailer, and everything else as it was. -/
structure ExportDone (s t : State) : Prop where
  state : t =
    { s with xmem := t.xmem, idx := BitVec.ofNat 32 (s.cfg.n + 1), last := .ok, phase := .idle, busy := false }
  wf : t.xmem.wf
  words : ∀ j < s.cfg.n, t.xmem.readWord (s.a1l.toNat + 4 * j) = storeWord s.store j
  trailer : t.xmem.readWord (s.a1l.toNat + s.cfg.n32) = trailerWord s.cursor
  outside : ∀ b, b < 4 * s.a1l.toNat ∨ 4 * (s.a1l.toNat + 4 * (s.cfg.n + 1)) ≤ b →
    t.xmem.readByte b = s.xmem.readByte b

theorem export_done {s : State} (hm : s.xmem.wf) (hp : s.phase = .exporting) (hi0 : s.idx = 0) :
    ExportDone s (microSteps (s.cfg.n + 1) s) := by
  have hn := n_lt s.cfg
  have h := export_loop hm hp hi0 (Nat.le_refl s.cfg.n)
  rw [microSteps_succ']
  generalize microSteps s.cfg.n s = t at h
  have hidx : t.idx.toNat = s.cfg.n := by rw [h.state]; exact ofNat_toNat_of_lt (by omega)
  have hix : t.idx + 1 = BitVec.ofNat 32 (s.cfg.n + 1) := by rw [h.state]; exact ofNat_add_one _
  have hph : t.phase = .exporting := by rw [h.state]; exact hp
  have hcfg : t.cfg = s.cfg := by rw [h.state]
  have ha1 : t.a1l = s.a1l := by rw [h.state]
  have hcu : t.cursor = s.cursor := by rw [h.state]
  have key : microStep t =
      { t with
        xmem := t.xmem.writeWord (s.a1l.toNat + s.cfg.n32) (trailerWord s.cursor)
        idx := BitVec.ofNat 32 (s.cfg.n + 1)
        last := .ok
        phase := .idle
        busy := false } := by
    have h1 : ¬ s.cfg.n < s.cfg.n := by omega
    simp only [microStep, hph, exportStep, hidx, hcfg, ha1, hcu, hix, if_neg h1, if_true, complete, n32_eq]
  have hne := n32_eq s.cfg
  refine ⟨?_, ?_, ?_, ?_, ?_⟩
  · rw [key, h.state]
  · rw [key]; exact writeWord_wf h.wf _ _
  · intro j hj
    rw [key, readWord_writeWord_ne _ (by omega)]
    exact h.words j hj
  · rw [key]; exact readWord_writeWord_same h.wf _ _
  · intro b hb
    rw [key, readByte_writeWord_ne _ (by omega)]
    exact h.outside b (by omega)

/-! ### IMPORT -/

theorem storeWord_imageStore (c : Config) (m : Memory) (base : Nat) {k : Nat} (hk : k < c.n) :
    storeWord (imageStore c m base) k = m.readWord (base + 4 * k) := by
  simp [imageStore, storeWord, List.getD, hk]

@[simp] theorem imageStore_length (c : Config) (m : Memory) (base : Nat) : (imageStore c m base).length = c.n := by
  simp [imageStore]

/-- Where IMPORT stands after `k` of its micro-steps. -/
structure ImportAt (s : State) (k : Nat) (t : State) : Prop where
  state : t = { s with store := t.store, idx := BitVec.ofNat 32 k }
  length : t.store.length = s.store.length
  words : ∀ j < k, storeWord t.store j = s.xmem.readWord (s.a1l.toNat + 4 * j)

theorem import_loop {s : State} (hl : s.store.length = s.cfg.n) (hp : s.phase = .importing) (hi0 : s.idx = 0) {k : Nat}
    (hk : k < s.cfg.n) : ImportAt s k (microSteps k s) := by
  have hn := n_lt s.cfg
  induction k with
  | zero =>
    refine ⟨?_, rfl, fun j hj => absurd hj (Nat.not_lt_zero j)⟩
    rw [show BitVec.ofNat 32 0 = s.idx from hi0.symm]
    rfl
  | succ k ih =>
    have h := ih (by omega)
    rw [microSteps_succ']
    generalize microSteps k s = t at h
    have hidx : t.idx.toNat = k := by rw [h.state]; exact ofNat_toNat_of_lt (by omega)
    have hix : t.idx + 1 = BitVec.ofNat 32 (k + 1) := by rw [h.state]; exact ofNat_add_one k
    have hph : t.phase = .importing := by rw [h.state]; exact hp
    have hcfg : t.cfg = s.cfg := by rw [h.state]
    have ha1 : t.a1l = s.a1l := by rw [h.state]
    have hx : t.xmem = s.xmem := by rw [h.state]
    have key : microStep t =
        { t with store := t.store.set k (s.xmem.readWord (s.a1l.toNat + 4 * k)), idx := BitVec.ofNat 32 (k + 1) } := by
      simp only [microStep, hph, importStep, hidx, hcfg, ha1, hx, hix]
      rw [if_neg (by omega)]
    refine ⟨?_, ?_, ?_⟩
    · rw [key, h.state]
    · rw [key]; simpa using h.length
    · intro j hj
      rw [key]
      simp only
      rw [storeWord_set _ _ _ _ (by rw [h.length]; omega)]
      by_cases hkj : k = j
      · subst hkj; simp
      · rw [if_neg hkj]
        exact h.words j (by omega)

/-- What IMPORT leaves. -/
theorem import_done {s : State} (hl : s.store.length = s.cfg.n) (hp : s.phase = .importing) (hi0 : s.idx = 0) :
    microSteps s.cfg.n s =
      { s with
        store := imageStore s.cfg s.xmem s.a1l.toNat
        idx := BitVec.ofNat 32 s.cfg.n
        cursor := s.curl
        life := .streaming
        last := .ok
        phase := .idle
        busy := false } := by
  have hn := n_lt s.cfg
  have hn2 := two_le_n s.cfg
  obtain ⟨k, hk⟩ : ∃ k, s.cfg.n = k + 1 := ⟨s.cfg.n - 1, by omega⟩
  have h := import_loop hl hp hi0 (k := k) (by omega)
  rw [show microSteps s.cfg.n s = microStep (microSteps k s) by rw [hk, microSteps_succ']]
  generalize microSteps k s = t at h
  have hidx : t.idx.toNat = k := by rw [h.state]; exact ofNat_toNat_of_lt (by omega)
  have hix : t.idx + 1 = BitVec.ofNat 32 s.cfg.n := by rw [h.state, hk]; exact ofNat_add_one k
  have hph : t.phase = .importing := by rw [h.state]; exact hp
  have hcfg : t.cfg = s.cfg := by rw [h.state]
  have ha1 : t.a1l = s.a1l := by rw [h.state]
  have hx : t.xmem = s.xmem := by rw [h.state]
  have hcurl : t.curl = s.curl := by rw [h.state]
  have hstore : t.store.set k (s.xmem.readWord (s.a1l.toNat + 4 * k)) = imageStore s.cfg s.xmem s.a1l.toNat := by
    apply store_ext
    · simp [h.length, hl]
    · intro j hj
      have hj' : j < s.cfg.n := by simpa [h.length, hl] using hj
      rw [storeWord_set _ _ _ _ (by rw [h.length]; omega), storeWord_imageStore _ _ _ hj']
      by_cases hkj : k = j
      · subst hkj; simp
      · rw [if_neg hkj]
        exact h.words j (by omega)
  simp only [microStep, hph, importStep, hidx, hcfg, ha1, hx, hix, hcurl, hstore, complete]
  rw [if_pos hk.symm, h.state]

/-! ### COMPARE -/

@[simp] theorem compareAcc_bit (racc : Lane) (eq : Bool) :
    (compareAcc racc eq).getLsbD 0 = (racc.getLsbD 0 && eq) := by
  unfold compareAcc
  cases eq <;> simp

/-- Where COMPARE stands after `k` of its micro-steps: bit 0 of `RACC` says whether everything so far is equal. -/
structure CompareAt (s : State) (k : Nat) (t : State) : Prop where
  state : t = { s with racc := t.racc, idx := BitVec.ofNat 32 k }
  bit : t.racc.getLsbD 0 =
    (s.racc.getLsbD 0 && decide (∀ j < k, storeWord s.store j = s.xmem.readWord (s.a1l.toNat + 4 * j)))

theorem compare_next (s : State) (k : Nat) :
    (decide (∀ j < k, storeWord s.store j = s.xmem.readWord (s.a1l.toNat + 4 * j)) &&
      decide (storeWord s.store k = s.xmem.readWord (s.a1l.toNat + 4 * k))) =
      decide (∀ j < k + 1, storeWord s.store j = s.xmem.readWord (s.a1l.toNat + 4 * j)) := by
  rw [← Bool.decide_and]
  apply decide_eq_decide.2
  constructor
  · rintro ⟨h, hk⟩ j hj
    by_cases hjk : j = k
    · subst hjk; exact hk
    · exact h j (by omega)
  · intro h
    exact ⟨fun j hj => h j (by omega), h k (by omega)⟩

theorem compare_loop {s : State} (hp : s.phase = .compare) (hi0 : s.idx = 0) {k : Nat} (hk : k < s.cfg.n) :
    CompareAt s k (microSteps k s) := by
  have hn := n_lt s.cfg
  induction k with
  | zero =>
    refine ⟨?_, by simp⟩
    rw [show BitVec.ofNat 32 0 = s.idx from hi0.symm]
    rfl
  | succ k ih =>
    have h := ih (by omega)
    rw [microSteps_succ']
    generalize microSteps k s = t at h
    have hidx : t.idx.toNat = k := by rw [h.state]; exact ofNat_toNat_of_lt (by omega)
    have hix : t.idx + 1 = BitVec.ofNat 32 (k + 1) := by rw [h.state]; exact ofNat_add_one k
    have hph : t.phase = .compare := by rw [h.state]; exact hp
    have hcfg : t.cfg = s.cfg := by rw [h.state]
    have ha1 : t.a1l = s.a1l := by rw [h.state]
    have hx : t.xmem = s.xmem := by rw [h.state]
    have hS : t.store = s.store := by rw [h.state]
    have key : microStep t =
        { t with
          racc := compareAcc t.racc (decide (storeWord s.store k = s.xmem.readWord (s.a1l.toNat + 4 * k)))
          idx := BitVec.ofNat 32 (k + 1) } := by
      simp only [microStep, hph, compareStep, hidx, hcfg, ha1, hx, hS, hix]
      rw [if_neg (by omega)]
    refine ⟨?_, ?_⟩
    · rw [key, h.state]
    · rw [key]
      simp only [compareAcc_bit]
      rw [h.bit, Bool.and_assoc, compare_next]

/-- What COMPARE leaves: `RESULT` from the latched opcode and the equality of all `N` words and the cursor. -/
theorem compare_done {s : State} (hl : s.store.length = s.cfg.n) (hp : s.phase = .compare) (hi0 : s.idx = 0) :
    ∃ racc : Lane,
      racc.getLsbD 0 = (s.racc.getLsbD 0 && decide (s.store = imageStore s.cfg s.xmem s.a1l.toNat)) ∧
      microSteps s.cfg.n s =
        { s with
          racc := racc
          idx := BitVec.ofNat 32 s.cfg.n
          result := compareResult s.opl racc
          last := .ok
          phase := .idle
          busy := false } := by
  have hn := n_lt s.cfg
  have hn2 := two_le_n s.cfg
  obtain ⟨k, hk⟩ : ∃ k, s.cfg.n = k + 1 := ⟨s.cfg.n - 1, by omega⟩
  have h := compare_loop hp hi0 (k := k) (by omega)
  rw [show microSteps s.cfg.n s = microStep (microSteps k s) by rw [hk, microSteps_succ']]
  generalize microSteps k s = t at h
  have hidx : t.idx.toNat = k := by rw [h.state]; exact ofNat_toNat_of_lt (by omega)
  have hix : t.idx + 1 = BitVec.ofNat 32 s.cfg.n := by rw [h.state, hk]; exact ofNat_add_one k
  have hph : t.phase = .compare := by rw [h.state]; exact hp
  have hcfg : t.cfg = s.cfg := by rw [h.state]
  have ha1 : t.a1l = s.a1l := by rw [h.state]
  have hx : t.xmem = s.xmem := by rw [h.state]
  have hS : t.store = s.store := by rw [h.state]
  have hop : t.opl = s.opl := by rw [h.state]
  refine ⟨compareAcc t.racc (decide (storeWord s.store k = s.xmem.readWord (s.a1l.toNat + 4 * k))), ?_, ?_⟩
  · rw [compareAcc_bit, h.bit, Bool.and_assoc, compare_next, ← hk]
    congr 1
    apply decide_eq_decide.2
    constructor
    · intro hall
      apply store_ext (by simp [hl])
      intro j hj
      rw [storeWord_imageStore _ _ _ (by omega)]
      exact hall j (by omega)
    · intro heq j hj
      rw [heq, storeWord_imageStore _ _ _ hj]
  · simp only [microStep, hph, compareStep, hidx, hcfg, ha1, hx, hS, hix, hop, complete]
    rw [if_pos hk.symm, h.state]

end Sys2Proof.Machine
end

