-- ==== Sys2Proof/Laws/PerInstr.lean ====
section
/-!
SUPPORT. What holds of every command as syntax, one lemma per constructor: its word decodes to it, is a well-formed command word,
and carries its opcode in bits 3:0 with nothing in the reserved field (spec/30_encoding.md R70, R74).
-/

namespace Sys2Proof.Laws.CommandEncoding

/-- The encoding of `i` as syntax. -/
def Statement (i : Instr) : Prop :=
  decode (encode i) = .ok i ∧ (CommandWord.ofBits (encode i)).wellFormed = true ∧
    CommandWord.ofBits (encode i) = { op := i.opcode, rsv := 0 } ∧ decodeTableWord 32 (encode i).toNat = some i

theorem idlen : Statement .idlen := by unfold Statement; decide
theorem idbyte : Statement .idbyte := by unfold Statement; decide
theorem minsz32 : Statement .minsz32 := by unfold Statement; decide
theorem minsz64 : Statement .minsz64 := by unfold Statement; decide
theorem fill32 : Statement .fill32 := by unfold Statement; decide
theorem fill64 : Statement .fill64 := by unfold Statement; decide
theorem seed : Statement .seed := by unfold Statement; decide
theorem seedarr : Statement .seedarr := by unfold Statement; decide
theorem cmpeq : Statement .cmpeq := by unfold Statement; decide
theorem cmpne : Statement .cmpne := by unfold Statement; decide
theorem exportImage : Statement .exportImage := by unfold Statement; decide
theorem importImage : Statement .importImage := by unfold Statement; decide

end Sys2Proof.Laws.CommandEncoding
end

