-- ==== Sys2Proof/Laws/SeedLoop.lean ====
section
/-!
SUPPORT. The seed FSM (spec/42_seed.md R121, R125 to R137): what the State Store's length is after each write, and where each loop
stands, from its first micro-step to its hand-over to the next phase.
-/

namespace Sys2Proof.Machine

/-! ### Lengths -/

@[simp] theorem correctStore_length (c : Config) (S : List Word) : (correctStore c S).length = S.length := by
  unfold correctStore
  split <;> simp

@[simp] theorem certifyStore_length (c : Config) (S : List Word) : (certifyStore c S).length = S.length := by
  unfold certifyStore
  split <;> simp

@[simp] theorem mixInitial_length (c : Config) (kl : Lane) (S : List Word) : (mixInitial c kl S).store.length = S.length := by
  simp [mixInitial]

@[simp] theorem mixRound_length (c : Config) (i : Nat) (add : Lane) (S : List Word) :
    (mixRound c i add S).store.length = S.length := by
  simp [mixRound]

@[simp] theorem whitenRound_length (c : Config) (i : Nat) (S : List Word) : (whitenRound c i S).store.length = S.length := by
  simp [whitenRound]

/-! ### Scalar seed -/

/-- Where the `SEED_LOOP` stands after `i` of its micro-steps: the first `i` lanes are the recurrence's. -/
structure SeedAt (s : State) (i : Nat) (t : State) : Prop where
  state : t = { s with store := t.store, idx := BitVec.ofNat 32 i }
  length : t.store.length = s.store.length
  lanes : ∀ L < i, storeLane t.store L = seedLaneAt s.a0l L

/-- The value lane `i` takes (R120, R121). -/
theorem seed_value {s t : State} {i : Nat} (h : SeedAt s i t) (hi : i < 2 ^ 32) :
    (if i = 0 then t.a0l else seedNext (storeLane t.store (i - 1)) t.idx) = seedLaneAt s.a0l i := by
  cases i with
  | zero => rw [if_pos rfl, h.state]; rfl
  | succ i =>
    have hx : t.idx = BitVec.ofNat 32 (i + 1) := by rw [h.state]
    rw [if_neg (by omega), Nat.add_sub_cancel, h.lanes i (by omega), hx]
    rfl

theorem seed_loop {s : State} (hl : s.store.length = s.cfg.n) (hp : s.phase = .seedLoop) (hi0 : s.idx = 0) {i : Nat}
    (hi : i < s.cfg.n32) : SeedAt s i (microSteps i s) := by
  have hn := n32_lt s.cfg
  induction i with
  | zero =>
    refine ⟨?_, rfl, fun L hL => absurd hL (Nat.not_lt_zero L)⟩
    rw [show BitVec.ofNat 32 0 = s.idx from hi0.symm]
    rfl
  | succ i ih =>
    have h := ih (by omega)
    rw [microSteps_succ']
    generalize microSteps i s = t at h
    have hidx : t.idx.toNat = i := by rw [h.state]; exact ofNat_toNat_of_lt (by omega)
    have hix : t.idx + 1 = BitVec.ofNat 32 (i + 1) := by rw [h.state]; exact ofNat_add_one i
    have hph : t.phase = .seedLoop := by rw [h.state]; exact hp
    have hcfg : t.cfg = s.cfg := by rw [h.state]
    have key : microStep t =
        { t with store := setStoreLane t.store i (seedLaneAt s.a0l i), idx := BitVec.ofNat 32 (i + 1) } := by
      simp only [microStep, hph, seedLoopStep, hidx, hcfg, hix, seed_value h (by omega)]
      rw [if_neg (by omega)]
    refine ⟨?_, ?_, ?_⟩
    · rw [key, h.state]
    · rw [key]; simpa using h.length
    · intro L hL
      rw [key]
      simp only
      rw [storeLane_setStoreLane _ _ _ _ (by rw [h.length, hl]; unfold Config.n32 at hi; omega)]
      by_cases hLi : i = L
      · subst hLi; simp
      · rw [if_neg hLi]
        exact h.lanes L (by omega)

/-- The whole `SEED_LOOP`: every lane is the recurrence's, the cursor is `N32`, and certification is about to start. -/
theorem seed_done {s : State} (hl : s.store.length = s.cfg.n) (hp : s.phase = .seedLoop) (hi0 : s.idx = 0) :
    microSteps s.cfg.n32 s =
      { s with
        store := storeOfLanes s.cfg.n (seedLaneAt s.a0l)
        idx := BitVec.ofNat 32 s.cfg.n32
        cursor := BitVec.ofNat 32 s.cfg.n32
        phase := .certify } := by
  have hn := n32_lt s.cfg
  have hn2 := two_le_n s.cfg
  have hne := n32_eq s.cfg
  obtain ⟨i, hi⟩ : ∃ i, s.cfg.n32 = i + 1 := ⟨s.cfg.n32 - 1, by omega⟩
  have h := seed_loop hl hp hi0 (i := i) (by omega)
  rw [show microSteps s.cfg.n32 s = microStep (microSteps i s) by rw [hi, microSteps_succ']]
  generalize microSteps i s = t at h
  have hidx : t.idx.toNat = i := by rw [h.state]; exact ofNat_toNat_of_lt (by omega)
  have hix : t.idx + 1 = BitVec.ofNat 32 s.cfg.n32 := by rw [h.state, hi]; exact ofNat_add_one i
  have hph : t.phase = .seedLoop := by rw [h.state]; exact hp
  have hcfg : t.cfg = s.cfg := by rw [h.state]
  have hstore : setStoreLane t.store i (seedLaneAt s.a0l i) = storeOfLanes s.cfg.n (seedLaneAt s.a0l) := by
    apply store_ext_lanes
    · simp [h.length, hl]
    · intro L hL
      have hL' : L < 4 * s.cfg.n := by simpa [h.length, hl] using hL
      rw [storeLane_setStoreLane _ _ _ _ (by rw [h.length, hl]; omega), storeLane_storeOfLanes _ _ _ hL']
      by_cases hLi : i = L
      · subst hLi; simp
      · rw [if_neg hLi]
        exact h.lanes L (by omega)
  simp only [microStep, hph, seedLoopStep, hidx, hcfg, hix, seed_value h (by omega), hstore]
  rw [if_pos hi.symm, h.state]

/-! ### Key-array seed -/

/-- Where `ARR_PATTERN` stands after `k` of its micro-steps. -/
structure PatternAt (s : State) (k : Nat) (t : State) : Prop where
  state : t = { s with store := t.store, idx := BitVec.ofNat 32 k }
  length : t.store.length = s.store.length
  words : ∀ j < k, storeWord t.store j = patternWord s.cfg

theorem pattern_loop {s : State} (hl : s.store.length = s.cfg.n) (hp : s.phase = .arrPattern) (hi0 : s.idx = 0) {k : Nat}
    (hk : k < s.cfg.n) : PatternAt s k (microSteps k s) := by
  have hn := n_lt s.cfg
  induction k with
  | zero =>
    refine ⟨?_, rfl, fun j hj => absurd hj (Nat.not_lt_zero j)⟩
    rw [show BitVec.ofNat 32 0 = s.idx from hi0.symm]
    rfl
  | succ k ih =>
    have h := ih (by omega)
    rw [microSteps_succ']
    generalize microSteps k s = t at h
    have hidx : t.idx.toNat = k := by rw [h.state]; exact ofNat_toNat_of_lt (by omega)
    have hix : t.idx + 1 = BitVec.ofNat 32 (k + 1) := by rw [h.state]; exact ofNat_add_one k
    have hph : t.phase = .arrPattern := by rw [h.state]; exact hp
    have hcfg : t.cfg = s.cfg := by rw [h.state]
    have key : microStep t = { t with store := t.store.set k (patternWord s.cfg), idx := BitVec.ofNat 32 (k + 1) } := by
      simp only [microStep, hph, arrPatternStep, hidx, hcfg, hix]
      rw [if_neg (by omega)]
    refine ⟨?_, ?_, ?_⟩
    · rw [key, h.state]
    · rw [key]; simpa using h.length
    · intro j hj
      rw [key]
      simp only
      rw [storeWord_set _ _ _ _ (by rw [h.length]; omega)]
      by_cases hkj : k = j
      · rw [if_pos hkj]
      · rw [if_neg hkj]
        exact h.words j (by omega)

/-- The whole pattern fill (R125). -/
theorem pattern_done {s : State} (hl : s.store.length = s.cfg.n) (hp : s.phase = .arrPattern) (hi0 : s.idx = 0) :
    microSteps s.cfg.n s =
      { s with
        store := List.replicate s.cfg.n (patternWord s.cfg)
        idx := BitVec.ofNat 32 s.cfg.n
        phase := .arrMix0 } := by
  have hn := n_lt s.cfg
  have hn2 := two_le_n s.cfg
  obtain ⟨k, hk⟩ : ∃ k, s.cfg.n = k + 1 := ⟨s.cfg.n - 1, by omega⟩
  have h := pattern_loop hl hp hi0 (k := k) (by omega)
  rw [show microSteps s.cfg.n s = microStep (microSteps k s) by rw [hk, microSteps_succ']]
  generalize microSteps k s = t at h
  have hidx : t.idx.toNat = k := by rw [h.state]; exact ofNat_toNat_of_lt (by omega)
  have hix : t.idx + 1 = BitVec.ofNat 32 s.cfg.n := by rw [h.state, hk]; exact ofNat_add_one k
  have hph : t.phase = .arrPattern := by rw [h.state]; exact hp
  have hcfg : t.cfg = s.cfg := by rw [h.state]
  have hstore : t.store.set k (patternWord s.cfg) = List.replicate s.cfg.n (patternWord s.cfg) := by
    apply store_ext
    · simp [h.length, hl]
    · intro j hj
      have hj' : j < s.cfg.n := by simpa [h.length, hl] using hj
      have : storeWord (List.replicate s.cfg.n (patternWord s.cfg)) j = patternWord s.cfg := by
        simp [storeWord, List.getD, hj']
      rw [storeWord_set _ _ _ _ (by rw [h.length]; omega), this]
      by_cases hkj : k = j
      · rw [if_pos hkj]
      · rw [if_neg hkj]
        exact h.words j (by omega)
  simp only [microStep, hph, arrPatternStep, hidx, hcfg, hix, hstore]
  rw [if_pos hk.symm, h.state]

theorem nextIndex_eq (c : Config) {i : Nat} (hi : i < c.n32) :
    nextIndex c (BitVec.ofNat 32 i) = BitVec.ofNat 32 ((i + 1) % c.n32) := by
  unfold nextIndex
  rw [ofNat_toNat_of_lt (by have := n32_lt c; omega)]

theorem next_lt (c : Config) (i : Nat) : (i + 1) % c.n32 < c.n32 :=
  Nat.mod_lt _ (by have := two_le_n c; have := n32_eq c; omega)

/-- The bound on `CNT` (R127). -/
theorem seedCount_bounds (c : Config) {kl : Nat} (hkl : kl < 2 ^ 32) :
    kl ≤ seedCount c kl ∧ c.n32 - 1 ≤ seedCount c kl ∧ 7 ≤ seedCount c kl ∧ seedCount c kl < 2 ^ 32 := by
  have := n32_lt c
  have := two_le_n c
  have := n32_eq c
  unfold seedCount
  omega

/-- A state of one of the three key-array loops: phase, State Store with rotating index, and iteration counter; `base` gives
everything else. -/
def loopState (base : State) (p : Phase) (q : PassState) (acc : Lane) (j : Nat) : State :=
  { base with phase := p, store := q.store, idx := BitVec.ofNat 32 q.index, racc := acc, jdx := BitVec.ofNat 32 j }

/-- The key loop from iteration `j` on, for the rest `ks` of the key (R129): it ends in the pad loop or, when the key is at least
as long as the iteration count, in the whitening. -/
theorem key_loop {base : State} (ks : List Lane) {q : PassState} {acc : Lane} {j : Nat} (hks : ks ≠ [])
    (hq : q.index < base.cfg.n32) (hj : j + ks.length = base.a0l.toNat)
    (hkey : ∀ i (h : i < ks.length), base.xmem.readLane (base.a1l.toNat + (j + i)) = ks[i]) :
    ∃ acc' : Lane, microSteps ks.length (loopState base .arrKey q acc j) =
      if base.a0l.toNat < base.cnt.toNat then loopState base .arrPad (keyLoop base.cfg ks q) acc' base.a0l.toNat
      else loopState base .arrWhiten (keyLoop base.cfg ks q) acc' 0 := by
  have hb := base.a0l.isLt
  have hn := n32_lt base.cfg
  induction ks generalizing q acc j with
  | nil => exact absurd rfl hks
  | cons k ks ih =>
    have hk : base.xmem.readLane (base.a1l.toNat + j) = k := hkey 0 (by simp)
    simp only [List.length_cons] at hj
    have hjn : (BitVec.ofNat 32 j).toNat = j := ofNat_toNat_of_lt (by omega)
    have hqn : (BitVec.ofNat 32 q.index).toNat = q.index := ofNat_toNat_of_lt (by omega)
    let q' : PassState :=
      { store := (mixRound base.cfg q.index (k + BitVec.ofNat 32 q.index) q.store).store
        index := (q.index + 1) % base.cfg.n32 }
    let acc' := (mixRound base.cfg q.index (k + BitVec.ofNat 32 q.index) q.store).acc
    rw [List.length_cons, microSteps_succ]
    by_cases hlast : ks = []
    · subst hlast
      refine ⟨acc', ?_⟩
      have hj1 : j + 1 = base.a0l.toNat := by simpa using hj
      simp only [List.length_nil, microSteps_zero, microStep, loopState, arrKeyStep, hjn, hqn, hk, hj1, if_true,
        nextIndex_eq _ hq, keyLoop, ofNat_add_one]
      split <;> rfl
    · have hlen : 0 < ks.length := List.length_pos_of_ne_nil hlast
      have hstep : microStep (loopState base .arrKey q acc j) = loopState base .arrKey q' acc' (j + 1) := by
        have hj1 : ¬ j + 1 = base.a0l.toNat := by omega
        simp only [microStep, loopState, arrKeyStep, hjn, hqn, hk, hj1, if_false, nextIndex_eq _ hq, ofNat_add_one, q', acc']
      rw [hstep]
      obtain ⟨a, ha⟩ := ih (q := q') (acc := acc') (j := j + 1) hlast (next_lt _ _) (by omega) (fun i hi => by
        have := hkey (i + 1) (by simp; omega)
        simp only [List.getElem_cons_succ] at this
        rw [← this]
        congr 1
        omega)
      exact ⟨a, by rw [ha]; rfl⟩

/-- The pad loop with `k > 0` iterations to go (R130). -/
theorem pad_loop {base : State} {k : Nat} {q : PassState} {acc : Lane} {j : Nat} (hk : 0 < k)
    (hq : q.index < base.cfg.n32) (hj : j + k = base.cnt.toNat) :
    ∃ acc' : Lane, microSteps k (loopState base .arrPad q acc j) =
      loopState base .arrWhiten (padLoop base.cfg k q) acc' 0 := by
  have hb := base.cnt.isLt
  have hn := n32_lt base.cfg
  induction k generalizing q acc j with
  | zero => exact absurd hk (Nat.lt_irrefl 0)
  | succ k ih =>
    have hjn : (BitVec.ofNat 32 j).toNat = j := ofNat_toNat_of_lt (by omega)
    have hqn : (BitVec.ofNat 32 q.index).toNat = q.index := ofNat_toNat_of_lt (by omega)
    let q' : PassState :=
      { store := (mixRound base.cfg q.index (BitVec.ofNat 32 q.index) q.store).store
        index := (q.index + 1) % base.cfg.n32 }
    let acc' := (mixRound base.cfg q.index (BitVec.ofNat 32 q.index) q.store).acc
    rw [microSteps_succ]
    cases k with
    | zero =>
      refine ⟨acc', ?_⟩
      have hj1 : j + 1 = base.cnt.toNat := by omega
      simp only [microSteps_zero, microStep, loopState, arrPadStep, hjn, hqn, hj1, if_true, nextIndex_eq _ hq, padLoop,
        acc']
      rfl
    | succ k =>
      have hstep : microStep (loopState base .arrPad q acc j) = loopState base .arrPad q' acc' (j + 1) := by
        have hj1 : ¬ j + 1 = base.cnt.toNat := by omega
        simp only [microStep, loopState, arrPadStep, hjn, hqn, hj1, if_false, nextIndex_eq _ hq, ofNat_add_one, q', acc']
      rw [hstep]
      obtain ⟨a, ha⟩ := ih (q := q') (acc := acc') (j := j + 1) (by omega) (next_lt _ _) (by omega)
      exact ⟨a, by rw [ha]; rfl⟩

/-- The whitening with `k > 0` iterations to go (R132): it hands over to certification with the cursor at `N32`. -/
theorem whiten_loop {base : State} {k : Nat} {q : PassState} {acc : Lane} {j : Nat} (hk : 0 < k)
    (hq : q.index < base.cfg.n32) (hj : j + k = base.cfg.n32) :
    ∃ acc' : Lane, microSteps k (loopState base .arrWhiten q acc j) =
      { loopState base .certify (whitenLoop base.cfg k q) acc' base.cfg.n32 with
        cursor := BitVec.ofNat 32 base.cfg.n32 } := by
  have hn := n32_lt base.cfg
  induction k generalizing q acc j with
  | zero => exact absurd hk (Nat.lt_irrefl 0)
  | succ k ih =>
    have hjn : (BitVec.ofNat 32 j).toNat = j := ofNat_toNat_of_lt (by omega)
    have hqn : (BitVec.ofNat 32 q.index).toNat = q.index := ofNat_toNat_of_lt (by omega)
    let q' : PassState :=
      { store := (whitenRound base.cfg q.index q.store).store, index := (q.index + 1) % base.cfg.n32 }
    let acc' := (whitenRound base.cfg q.index q.store).acc
    rw [microSteps_succ]
    cases k with
    | zero =>
      refine ⟨acc', ?_⟩
      have hj1 : j + 1 = base.cfg.n32 := by omega
      simp only [microSteps_zero, microStep, loopState, arrWhitenStep, hjn, hqn, hj1, if_true, nextIndex_eq _ hq,
        whitenLoop, ofNat_add_one, acc']
    | succ k =>
      have hstep : microStep (loopState base .arrWhiten q acc j) = loopState base .arrWhiten q' acc' (j + 1) := by
        have hj1 : ¬ j + 1 = base.cfg.n32 := by omega
        simp only [microStep, loopState, arrWhitenStep, hjn, hqn, hj1, if_false, nextIndex_eq _ hq, ofNat_add_one, q', acc']
      rw [hstep]
      obtain ⟨a, ha⟩ := ih (q := q') (acc := acc') (j := j + 1) (by omega) (next_lt _ _) (by omega)
      exact ⟨a, by rw [ha]; rfl⟩

end Sys2Proof.Machine
end

