-- ==== Sys2Proof/Laws/Progress.lean ====
section
/-!
SUPPORT. What one micro-step of a running command can do (spec/10_state.md R36, spec/60_exceptions.md R179, R202): it takes exactly
one of the micro-steps still to come, keeps what its phase promises, and either keeps the command running or completes it.
-/

namespace Sys2Proof.Machine

/-- The micro-steps a running command still takes (R202), read off the phase and its indices. -/
def remaining (s : State) : Nat :=
  match s.phase with
  | .idle => 0
  | .seedLoop => s.cfg.n32 - s.idx.toNat + 1
  | .arrPattern => s.cfg.n - s.idx.toNat + (1 + (seedCount s.cfg s.a0l.toNat + (s.cfg.n32 + 1)))
  | .arrMix0 => 1 + (seedCount s.cfg s.a0l.toNat + (s.cfg.n32 + 1))
  | .arrKey | .arrPad => s.cnt.toNat - s.jdx.toNat + (s.cfg.n32 + 1)
  | .arrWhiten => s.cfg.n32 - s.jdx.toNat + 1
  | .certify => 1
  | .gen => s.cnt.toNat - s.idx.toNat + s.cfg.n
  | .copyback => s.cfg.n - s.idx.toNat
  | .exporting => s.cfg.n + 1 - s.idx.toNat
  | .importing | .compare => s.cfg.n - s.idx.toNat

/-- A command is running and its phase keeps its promise. -/
structure Running (s : State) : Prop where
  busy : s.busy = true
  phase : s.phase ≠ .idle
  ok : s.PhaseOk

/-- A command has just completed. -/
structure Completed (s : State) : Prop where
  busy : s.busy = false
  phase : s.phase = .idle
  last : s.last = .ok

theorem Completed.complete (s : State) : Completed (complete s) := ⟨rfl, rfl, rfl⟩

theorem remaining_pos {s : State} (h : Running s) : 0 < remaining s := by
  obtain ⟨-, hp, ok⟩ := h
  unfold State.PhaseOk at ok
  unfold remaining
  split at ok <;> simp_all

theorem remaining_completed {s : State} (h : s.phase = .idle) : remaining s = 0 := by
  simp [remaining, h]

theorem nextIndex_lt (c : Config) (x : Lane) : (nextIndex c x).toNat < c.n32 := by
  have := next_lt c x.toNat
  unfold nextIndex
  rw [ofNat_toNat_of_lt (by have := n32_lt c; omega)]
  exact this

/-- One micro-step of a running command. -/
theorem microStep_progress {s : State} (h : Running s) :
    remaining (microStep s) + 1 = remaining s ∧ (Running (microStep s) ∨ Completed (microStep s)) := by
  obtain ⟨hb, hp, ok⟩ := h
  have hn := n32_lt s.cfg
  have hn2 := two_le_n s.cfg
  have hne := n32_eq s.cfg
  have hcnt := s.cnt.isLt
  have ha0 := s.a0l.isLt
  have inc : ∀ {x : Lane} {b : Nat}, x.toNat < b → b ≤ 2 ^ 32 → x.toNat + 1 ≠ b → (x + 1#32).toNat = x.toNat + 1 :=
    fun h hb h' => toNat_add_one_of_lt h hb h'
  unfold State.PhaseOk at ok
  split at ok
  case h_1 e => exact absurd e hp
  case h_2 e =>
    simp only [microStep, e, seedLoopStep]
    split
    · next l => exact ⟨by simp [remaining, e]; omega,
        .inl ⟨hb, by simp, by simpa [State.PhaseOk] using hn⟩⟩
    · next l =>
      have := inc ok (by omega) l
      exact ⟨by simp [remaining, e, -BitVec.toNat_add, this]; omega,
        .inl ⟨hb, by simp, by simp [State.PhaseOk, -BitVec.toNat_add, this]; omega⟩⟩
  case h_3 e =>
    simp only [microStep, e, arrPatternStep]
    split
    · next l => exact ⟨by simp [remaining, e]; omega,
        .inl ⟨hb, by simp, by simpa [State.PhaseOk] using ok.2⟩⟩
    · next l =>
      have := inc ok.1 (by omega) l
      exact ⟨by simp [remaining, e, -BitVec.toNat_add, this]; omega,
        .inl ⟨hb, by simp, by simp [State.PhaseOk, -BitVec.toNat_add, this]; exact ⟨by omega, ok.2⟩⟩⟩
  case h_4 e =>
    have hsc := seedCount_bounds s.cfg ha0
    simp only [microStep, e, arrMix0Step]
    by_cases h0 : 0 < s.a0l.toNat
    · simp only [h0, if_true]
      refine ⟨?_, .inl ⟨hb, by simp, ?_⟩⟩
      · simp [remaining, e, -BitVec.toNat_ofNat, ofNat_toNat_of_lt hsc.2.2.2]; omega
      · simp [State.PhaseOk, -BitVec.toNat_ofNat, ofNat_toNat_of_lt hsc.2.2.2]
        refine ⟨?_, h0, ok⟩
        show 1 < _
        omega
    · simp only [h0, if_false]
      refine ⟨?_, .inl ⟨hb, by simp, ?_⟩⟩
      · simp [remaining, e, -BitVec.toNat_ofNat, ofNat_toNat_of_lt hsc.2.2.2]; omega
      · simp [State.PhaseOk, -BitVec.toNat_ofNat, ofNat_toNat_of_lt hsc.2.2.2]
        refine ⟨?_, ?_⟩
        · show 1 < _
          omega
        · show 0 < _
          omega
  case h_5 e =>
    obtain ⟨h1, h2, h3, h4⟩ := ok
    have hsc := seedCount_bounds s.cfg ha0
    have hnx := nextIndex_lt s.cfg s.idx
    have hj : (s.jdx + 1#32).toNat = s.jdx.toNat + 1 := by
      rw [BitVec.toNat_add]
      exact Nat.mod_eq_of_lt (by show s.jdx.toNat + 1 < _; omega)
    simp only [microStep, e, arrKeyStep]
    split
    · next l =>
      split
      · next l2 =>
        exact ⟨by simp [remaining, e, -BitVec.toNat_add, hj]; omega,
        .inl ⟨hb, by simp, by simp [State.PhaseOk, -BitVec.toNat_add, hj]; omega⟩⟩
      · next l2 =>
        exact ⟨by simp [remaining, e, -BitVec.toNat_add]; omega,
        .inl ⟨hb, by simp, by simp [State.PhaseOk, -BitVec.toNat_add]; omega⟩⟩
    · next l =>
      exact ⟨by simp [remaining, e, -BitVec.toNat_add, hj]; omega,
        .inl ⟨hb, by simp, by simp [State.PhaseOk, -BitVec.toNat_add, hj]; exact ⟨hnx, by omega, h3, h4⟩⟩⟩
  case h_6 e =>
    obtain ⟨h1, h2, h3⟩ := ok
    have hnx := nextIndex_lt s.cfg s.idx
    simp only [microStep, e, arrPadStep]
    split
    · next l =>
      exact ⟨by simp [remaining, e]; omega,
        .inl ⟨hb, by simp, by simp [State.PhaseOk]; omega⟩⟩
    · next l =>
      have hj := inc h2 (by omega) l
      exact ⟨by simp [remaining, e, -BitVec.toNat_add, hj]; omega,
        .inl ⟨hb, by simp, by simp [State.PhaseOk, -BitVec.toNat_add, hj]; omega⟩⟩
  case h_7 e =>
    obtain ⟨h1, h2⟩ := ok
    have hnx := nextIndex_lt s.cfg s.idx
    simp only [microStep, e, arrWhitenStep]
    split
    · next l =>
      exact ⟨by simp [remaining, e]; omega,
        .inl ⟨hb, by simp, by simpa [State.PhaseOk] using hn⟩⟩
    · next l =>
      have hj := inc h2 (by omega) l
      exact ⟨by simp [remaining, e, -BitVec.toNat_add, hj]; omega,
        .inl ⟨hb, by simp, by simp [State.PhaseOk, -BitVec.toNat_add, hj]; omega⟩⟩
  case h_8 e =>
    simp only [microStep, e, certifyStep]
    exact ⟨by simp [remaining, e, complete], .inr (Completed.complete _)⟩
  case h_9 e =>
    obtain ⟨h1, h2⟩ := ok
    simp only [microStep, e, genStep]
    split
    · next l =>
      exact ⟨by simp [remaining, e]; omega,
        .inl ⟨hb, by simp, by simp [State.PhaseOk]; exact ⟨by omega, h2⟩⟩⟩
    · next l =>
      have hj := inc h1 (by omega) l
      exact ⟨by simp [remaining, e, -BitVec.toNat_add, hj]; omega,
        .inl ⟨hb, by simp, by simp [State.PhaseOk, -BitVec.toNat_add, hj]; exact ⟨by omega, h2⟩⟩⟩
  case h_10 e =>
    obtain ⟨h1, h2⟩ := ok
    simp only [microStep, e, copybackStep]
    split
    · next l => exact ⟨by simp [remaining, e, complete]; omega, .inr (Completed.complete _)⟩
    · next l =>
      have hj := inc h1 (by omega) l
      exact ⟨by simp [remaining, e, -BitVec.toNat_add, hj]; omega,
        .inl ⟨hb, by simp, by simp [State.PhaseOk, -BitVec.toNat_add, hj]; exact ⟨by omega, h2⟩⟩⟩
  case h_11 e =>
    obtain ⟨h1, h2, h3⟩ := ok
    simp only [microStep, e, exportStep]
    split
    · next l => exact ⟨by simp [remaining, e, complete]; omega, .inr (Completed.complete _)⟩
    · next l =>
      have hj := inc (x := s.idx) (b := s.cfg.n + 1) (by omega) (by omega) (by omega)
      exact ⟨by simp [remaining, e, -BitVec.toNat_add, hj]; omega,
        .inl ⟨hb, by simp, by simp [State.PhaseOk, -BitVec.toNat_add, hj]; exact ⟨by omega, h2, h3⟩⟩⟩
  case h_12 e =>
    obtain ⟨h1, h2, h3⟩ := ok
    simp only [microStep, e, importStep]
    split
    · next l => exact ⟨by simp [remaining, e, complete]; omega, .inr (Completed.complete _)⟩
    · next l =>
      have hj := inc h1 (by omega) l
      exact ⟨by simp [remaining, e, -BitVec.toNat_add, hj]; omega,
        .inl ⟨hb, by simp, by simp [State.PhaseOk, -BitVec.toNat_add, hj]; exact ⟨by omega, h2, h3⟩⟩⟩
  case h_13 e =>
    obtain ⟨h1, h2, h3, h4⟩ := ok
    simp only [microStep, e, compareStep]
    split
    · next l => exact ⟨by simp [remaining, e, complete]; omega, .inr (Completed.complete _)⟩
    · next l =>
      have hj := inc h1 (by omega) l
      have hr : ∀ q : Bool, compareAcc s.racc q = 0 ∨ compareAcc s.racc q = 1 := by
        intro q
        rcases h3 with h | h <;> rw [h] <;> cases q <;> decide
      exact ⟨by simp [remaining, e, -BitVec.toNat_add, hj]; omega,
        .inl ⟨hb, by simp, by simp [State.PhaseOk, -BitVec.toNat_add, hj]; exact ⟨by omega, h2, hr _, h4⟩⟩⟩

/-- A running command completes after exactly the micro-steps it still has to take (R77, R202). -/
theorem running_completes {s : State} (h : Running s) :
    Completed (microSteps (remaining s) s) ∧ ∀ k < remaining s, Running (microSteps k s) := by
  generalize hr : remaining s = r
  induction r generalizing s with
  | zero => exact absurd hr (remaining_pos h).ne'
  | succ r ih =>
    obtain ⟨h1, h2⟩ := microStep_progress h
    have hr' : remaining (microStep s) = r := by omega
    rcases h2 with h2 | h2
    · obtain ⟨i1, i2⟩ := ih h2 hr'
      refine ⟨i1, fun k hk => ?_⟩
      cases k with
      | zero => exact h
      | succ k => exact i2 k (by omega)
    · have : r = 0 := by rw [← hr', remaining_completed h2.phase]
      subst this
      refine ⟨h2, fun k hk => ?_⟩
      obtain rfl : k = 0 := by omega
      exact h

/-- Which commands complete in their accept step (R76). -/
def isAccessor : Instr → Bool
  | .idlen | .idbyte | .minsz32 | .minsz64 => true
  | .fill32 | .fill64 | .seed | .seedarr | .cmpeq | .cmpne | .exportImage | .importImage => false

/-- A command that is accepted is running, with exactly the micro-steps of R202 to come, or has completed at once. -/
theorem entry_running {i : Instr} {s : State} (h : s.Idle) (hc : ∀ c ∈ commandChecks i s, c.fails = false) :
    if isAccessor i then Completed (commandEntry i s (latch i s)) ∧ microCount i s = 0
    else Running (commandEntry i s (latch i s)) ∧ remaining (commandEntry i s (latch i s)) = microCount i s := by
  have hn := n32_lt s.cfg
  have hn2 := two_le_n s.cfg
  have hne := n32_eq s.cfg
  have hne64 := n64_eq s.cfg
  have ha0 := s.a0.isLt
  have hsc := seedCount_bounds s.cfg ha0
  cases i <;>
    simp only [isAccessor, Bool.false_eq_true, if_true, if_false]
  case idlen => exact ⟨⟨h.1, h.2, rfl⟩, rfl⟩
  case idbyte => exact ⟨⟨h.1, h.2, rfl⟩, rfl⟩
  case minsz32 => exact ⟨⟨h.1, h.2, rfl⟩, rfl⟩
  case minsz64 => exact ⟨⟨h.1, h.2, rfl⟩, rfl⟩
  case fill32 =>
    simp [commandChecks, fill32Checks, checkSeeded, checkExhausted, checkCount32, checkAligned, checkRange, fill32Length] at hc
    have hcnt : (BitVec.ofNat 32 (s.a0.toNat / 4)).toNat = s.a0.toNat / 4 := ofNat_toNat_of_lt (by omega)
    refine ⟨⟨rfl, by simp [commandEntry, enterGen], ?_⟩, ?_⟩
    · simp [State.PhaseOk, commandEntry, enterGen, enterPhase, latch, fill32Words, hcnt, -BitVec.toNat_ofNat]
      refine ⟨by omega, hc.1, hc.2.2.2.1, ?_, ?_⟩
      · show s.cfg.n ≤ (BitVec.ofNat 32 (s.a0.toNat / 4)).toNat
        rw [hcnt]
        omega
      · show s.a1.toNat + 4 * (BitVec.ofNat 32 (s.a0.toNat / 4)).toNat ≤ s.cfg.xlanes
        have h5 := of_decide_eq_false hc.2.2.2.2
        rw [hcnt]
        omega
    · simp [remaining, commandEntry, enterGen, enterPhase, latch, fill32Words, hcnt, -BitVec.toNat_ofNat, microCount]
  case fill64 =>
    simp [commandChecks, fill64Checks, checkSeeded, checkExhausted, checkCount64, checkAligned, checkRange, fill64Length] at hc
    have hcnt : (BitVec.ofNat 32 (s.a0.toNat / 2)).toNat = s.a0.toNat / 2 := ofNat_toNat_of_lt (by omega)
    refine ⟨⟨rfl, by simp [commandEntry, enterGen], ?_⟩, ?_⟩
    · simp [State.PhaseOk, commandEntry, enterGen, enterPhase, latch, fill64Words, hcnt, -BitVec.toNat_ofNat]
      refine ⟨by omega, hc.1, hc.2.2.2.1, ?_, ?_⟩
      · show s.cfg.n ≤ (BitVec.ofNat 32 (s.a0.toNat / 2)).toNat
        rw [hcnt]
        omega
      · show s.a1.toNat + 4 * (BitVec.ofNat 32 (s.a0.toNat / 2)).toNat ≤ s.cfg.xlanes
        have h5 := of_decide_eq_false hc.2.2.2.2
        rw [hcnt]
        omega
    · simp [remaining, commandEntry, enterGen, enterPhase, latch, fill64Words, hcnt, -BitVec.toNat_ofNat, microCount]
  case seed =>
    refine ⟨⟨rfl, by simp [commandEntry, enterSeed], ?_⟩, ?_⟩
    · simp [State.PhaseOk, commandEntry, enterSeed, enterPhase, latch]
      omega
    · simp [remaining, commandEntry, enterSeed, enterPhase, latch, microCount]
  case seedarr =>
    simp [commandChecks, checkKeyRange] at hc
    refine ⟨⟨rfl, by simp [commandEntry, enterSeedarr], ?_⟩, ?_⟩
    · simp [State.PhaseOk, commandEntry, enterSeedarr, enterPhase, latch]
      refine ⟨by omega, ?_⟩
      show s.a0.toNat = 0 ∨ s.a1.toNat + s.a0.toNat ≤ s.cfg.xlanes
      omega
    · simp [remaining, commandEntry, enterSeedarr, enterPhase, latch, microCount, seedCount]
      omega
  case cmpeq =>
    simp [commandChecks, compareChecks, importChecks, checkSeeded, checkAligned, checkRange, checkImage] at hc
    refine ⟨⟨rfl, by simp [commandEntry, enterCompare], ?_⟩, ?_⟩
    · simp [State.PhaseOk, commandEntry, enterCompare, enterPhase, latch]
      refine ⟨by omega, hc.1, ?_, hc.2.1, hc.2.2.1⟩
      show (if s.cursor = wordLane (imageTrailer s) 0 then (1 : Lane) else 0) = 0 ∨
        (if s.cursor = wordLane (imageTrailer s) 0 then (1 : Lane) else 0) = 1
      split <;> simp
    · simp [remaining, commandEntry, enterCompare, enterPhase, latch, microCount]
  case cmpne =>
    simp [commandChecks, compareChecks, importChecks, checkSeeded, checkAligned, checkRange, checkImage] at hc
    refine ⟨⟨rfl, by simp [commandEntry, enterCompare], ?_⟩, ?_⟩
    · simp [State.PhaseOk, commandEntry, enterCompare, enterPhase, latch]
      refine ⟨by omega, hc.1, ?_, hc.2.1, hc.2.2.1⟩
      show (if s.cursor = wordLane (imageTrailer s) 0 then (1 : Lane) else 0) = 0 ∨
        (if s.cursor = wordLane (imageTrailer s) 0 then (1 : Lane) else 0) = 1
      split <;> simp
    · simp [remaining, commandEntry, enterCompare, enterPhase, latch, microCount]
  case exportImage =>
    simp [commandChecks, exportChecks, checkSeeded, checkAligned, checkRange] at hc
    refine ⟨⟨rfl, by simp [commandEntry, enterExport], ?_⟩, ?_⟩
    · simp [State.PhaseOk, commandEntry, enterExport, enterPhase, latch]
      exact hc
    · simp [remaining, commandEntry, enterExport, enterPhase, latch, microCount]
  case importImage =>
    simp [commandChecks, importChecks, checkAligned, checkRange, checkImage] at hc
    refine ⟨⟨rfl, by simp [commandEntry, enterImport], ?_⟩, ?_⟩
    · simp [State.PhaseOk, commandEntry, enterImport, enterPhase, latch]
      exact ⟨by omega, hc.2.2.1, hc.1, hc.2.1⟩
    · simp [remaining, commandEntry, enterImport, enterPhase, latch, microCount]

/-- A command that is accepted completes (R175). -/
theorem entry_completes {i : Instr} {s : State} (h : s.Idle) (hc : ∀ c ∈ commandChecks i s, c.fails = false) :
    Completed (microSteps (microCount i s) (commandEntry i s (latch i s))) := by
  have e := entry_running h hc
  cases ha : isAccessor i with
  | true =>
    rw [ha, if_pos rfl] at e
    rw [e.2]
    exact e.1
  | false =>
    rw [ha, if_neg Bool.false_ne_true] at e
    rw [← e.2]
    exact (running_completes e.1).1

/-- On an idle core a command is rejected in its accept step or completes; there is nothing in between (R175). -/
theorem exec_outcome {i : Instr} {s t : State} (h : s.Idle) (ht : exec i s = .next t) :
    (∃ c ∈ commandChecks i s, c.fails = true ∧ t = rejectedState c.cause i c.info s) ∨
      ((∀ c ∈ commandChecks i s, c.fails = false) ∧ Completed t ∧
        t = microSteps (microCount i s) (commandEntry i s (latch i s))) := by
  rcases exec_cases i h with ⟨c, hm, hf, he, -⟩ | ⟨hf, he, -⟩
  · rw [he] at ht
    exact .inl ⟨c, hm, hf, (Host.Outcome.next.inj ht).symm⟩
  · rw [he] at ht
    obtain rfl := Host.Outcome.next.inj ht
    exact .inr ⟨hf, entry_completes h hf, rfl⟩

end Sys2Proof.Machine
end

