-- ==== Sys2Proof/Tests/Slice0.lean ====
section
/-!
SUPPORT. The model's own tests. Expected values come from the tables of spec/95_test_vectors.md, named at each test (V-…, P1 to
P6), or from the rule named there; none is the model's own answer. After them, for each obligation that has hypotheses, a concrete
state that meets them all: `witness_<Name>`.
-/

namespace Sys2Proof.Tests

open Sys2Proof.Machine

-- One test after the other: tests that wait for the kernel side by side hold one thread, with its stack, each.
set_option Elab.async false

/-! ### Helpers -/

/-- The state a step answered, or a fresh core where it answered none. -/
def nextOf (o : Host.Outcome State Fault Refusal) : State :=
  match o with
  | .next t => t
  | .fault _ => State.init Config.toy
  | .refused _ => State.init Config.toy

def isNext (o : Host.Outcome State Fault Refusal) : Bool :=
  match o with
  | .next _ => true
  | .fault _ => false
  | .refused _ => false

def faultOf (o : Host.Outcome State Fault Refusal) : Option Fault :=
  match o with
  | .next _ => none
  | .fault r => some r
  | .refused _ => none

theorem eq_next {o : Host.Outcome State Fault Refusal} (h : isNext o = true) : o = .next (nextOf o) := by
  cases o <;> first | rfl | cases h

theorem exec_eq_next (i : Instr) (s : State) : exec i s = .next (nextOf (exec i s)) := eq_next (by rw [exec_eq]; rfl)

/-- All lanes of a State Store, in order. -/
def lanesOf (S : List Word) : List Lane := (List.range (4 * S.length)).map (storeLane S)

/-- Lanes `X[a] … X[a + k - 1]`. -/
def xLanes (m : Memory) (a k : Nat) : List Lane := (List.range k).map fun j => m.readLane (a + j)

/-- An XMEM in which the lanes `vs` stand from `a` on and every other lane is 0. -/
def laneMemory : Nat → List Lane → Memory
  | _, [] => []
  | a, v :: vs => (laneMemory (a + 1) vs).writeLane a v

/-- The TOY State Store with the given sixteen lanes. -/
def toyStore (ls : List Lane) : List Word := storeOfLanes 4 fun L => ls.getD L 0

/-- A fresh TOY core with 128 lanes of XMEM, and one with 64. -/
def toy : State := State.init Config.toy
def toy64 : State := State.init Config.toy64

/-- V-SEED-2: the State Store of seed 1234. -/
def lanes1234 : List Lane :=
  [0x000004d2, 0xbc5448db, 0xf22bde9f, 0xebb44f8f, 0xb9894e40, 0xa9db320f, 0x2b9eb427, 0x8516f26a,
   0x4a9f4b10, 0xe97bb6be, 0x0dc53d9b, 0x10064132, 0x8bb97ac6, 0x6e3c5361, 0x8e0b44ee, 0x84c87d2b]

/-- V-SEED-2: the State Store of seed 5. -/
def lanes5 : List Lane :=
  [0x00000005, 0x1c25aefa, 0x8657d2a4, 0xcaeaf181, 0x3c7dda4e, 0x179cdecb, 0xffab891d, 0x12e026dd,
   0xb3469a39, 0x9f016c50, 0x0cc59e64, 0x5077017f, 0xa13204c2, 0x7e869fcd, 0x6535378a, 0x91854ce6]

/-- V-FILL-1: the first output of seed 1234. -/
def output1234 : List Lane :=
  [0xe1d165f9, 0x055cbed0, 0x9bcc8a82, 0x79281d6d, 0x5b9a5324, 0xb51315fe, 0x44b096fd, 0x5e06f8bd,
   0xdee99872, 0xb87a1e4c, 0x8439b944, 0xe5c0de21, 0x39083794, 0x69a25b30, 0x19e35481, 0x601d9690]

/-- A TOY core after `SEED 1234`, as far as the host and the generator state go. -/
def seeded : State := { toy with store := toyStore lanes1234, cursor := 16, life := .seeded }

/-- A TOY core with 64 lanes after `SEED 5`. -/
def seeded64 : State := { toy64 with store := toyStore lanes5, cursor := 16, life := .seeded }

/-- V-IMG-1: the image of seed 5, at lane address 32. -/
def image5 : Memory := laneMemory 32 (lanes5 ++ [0x10, 0, 0, 0])

/-- A TOY core after `SEED 5` with the image V-IMG-1 at lane 32 and its address in `A1`. -/
def seeded5 : State :=
  { toy with store := toyStore lanes5, cursor := 16, life := .seeded, xmem := image5, a1 := 32 }

/-- P6: a core in the middle of its first fill, just after the accept step. -/
def filling : State := acceptCommand .fill32 { seeded with a0 := 16, a1 := 0 }

/-! ### Well-formed words, events and scripts -/

theorem test_reserved_bit_is_ill_formed : CommandWord.wellFormed { op := 5, rsv := 1 } = false := by decide
theorem test_op_zero_is_ill_formed : CommandWord.wellFormed { op := 0, rsv := 0 } = false := by decide
theorem test_op_thirteen_is_ill_formed : CommandWord.wellFormed { op := 13, rsv := 0 } = false := by decide
theorem test_op_twelve_is_well_formed : CommandWord.wellFormed { op := 12, rsv := 0 } = true := by decide
theorem test_offset_past_block_is_ill_formed : registerOffsetOk 0x20 = false := by decide
theorem test_unaligned_offset_is_ill_formed : registerOffsetOk 0x06 = false := by decide
theorem test_lane_past_xmem_is_ill_formed : laneAddressOk Config.toy 128 = false := by decide
theorem test_event_to_bad_register_is_ill_formed : HostEvent.wellFormed Config.toy (.wr 0x20 1) = false := by decide
theorem test_event_to_bad_lane_is_ill_formed : HostEvent.wellFormed Config.toy (.xrd 128) = false := by decide
theorem test_script_with_bad_event_is_ill_formed :
    scriptWellFormed Config.toy [.core, .host (.rd 0x02)] = false := by decide
theorem test_script_with_illegal_word_is_well_formed :
    scriptWellFormed Config.toy [.command 0, .host (.xwr 127 1)] = true := by decide

/-! ### Decoding: every command's word, written bit by bit from R70 and R74 (table of 2.9) -/

theorem test_decode_idlen : decode 0b00000000000000000000000000000001#32 = .ok .idlen := by decide
theorem test_decode_idbyte : decode 0b00000000000000000000000000000010#32 = .ok .idbyte := by decide
theorem test_decode_minsz32 : decode 0b00000000000000000000000000000011#32 = .ok .minsz32 := by decide
theorem test_decode_minsz64 : decode 0b00000000000000000000000000000100#32 = .ok .minsz64 := by decide
theorem test_decode_fill32 : decode 0b00000000000000000000000000000101#32 = .ok .fill32 := by decide
theorem test_decode_fill64 : decode 0b00000000000000000000000000000110#32 = .ok .fill64 := by decide
theorem test_decode_seed : decode 0b00000000000000000000000000000111#32 = .ok .seed := by decide
theorem test_decode_seedarr : decode 0b00000000000000000000000000001000#32 = .ok .seedarr := by decide
theorem test_decode_cmpeq : decode 0b00000000000000000000000000001001#32 = .ok .cmpeq := by decide
theorem test_decode_cmpne : decode 0b00000000000000000000000000001010#32 = .ok .cmpne := by decide
theorem test_decode_export : decode 0b00000000000000000000000000001011#32 = .ok .exportImage := by decide
theorem test_decode_import : decode 0b00000000000000000000000000001100#32 = .ok .importImage := by decide
theorem test_decode_table_word : decodeTableWord 32 0xC = some .importImage ∧ decodeTableWord 32 0x10 = none := by decide

/-- A command word is fetched from the script whatever configuration the build selected. -/
theorem test_fetch_runs : isNext (step (State.reset.withFetchWord 32 0x5)) = true := by decide

/-! ### Accessors (table of 2.8) -/

/-- V-ACC-1. -/
theorem test_idlen : (nextOf (exec .idlen toy)).result = 0x11 := by decide
/-- V-ACC-6. -/
theorem test_idbyte_last : (nextOf (exec .idbyte { toy with a0 := 0x10 })).result = 0x31 := by decide
/-- V-ACC-7. -/
theorem test_idbyte_past_end :
    (nextOf (exec .idbyte { toy with a0 := 0x11, result := 0x31 })).last = .outOfRange ∧
      (nextOf (exec .idbyte { toy with a0 := 0x11, result := 0x31 })).result = 0x31 := by decide
/-- V-ACC-2, V-ACC-10. -/
theorem test_minsz32 : (nextOf (exec .minsz32 toy)).result = 0x10 ∧
    (nextOf (exec .minsz32 (State.init Config.ref))).result = 0x270 := by decide +kernel
/-- V-ACC-3. -/
theorem test_minsz64 : (nextOf (exec .minsz64 toy)).result = 0x8 := by decide

/-! ### The Recursion Engine (2.1, 2.2) -/

/-- V-SH-2, V-SH-8. -/
theorem test_byte_shifts :
    lshift128 (wordOfLanes 0x01234567 0x89abcdef 0xdeadbeef 0xcafef00d) 1 =
        wordOfLanes 0x23456700 0xabcdef01 0xadbeef89 0xfef00dde ∧
      rshift128 (wordOfLanes 0x01234567 0x89abcdef 0xdeadbeef 0xcafef00d) 1 =
        wordOfLanes 0xef012345 0xef89abcd 0x0ddeadbe 0x00cafef0 := by decide +kernel
/-- V-REC-15, REF and TOY. -/
theorem test_rec_mixed :
    sfmtRec Config.ref (wordOfLanes 0x01234567 0x89abcdef 0xdeadbeef 0xcafef00d)
        (wordOfLanes 0x11111111 0x22222222 0x33333333 0x44444444) (wordOfLanes 0x0f0f0f0f 0xf0f0f0f0 0x00ff00ff 0xff00ff00)
        (wordOfLanes 0x13579bdf 0x2468ace0 0xfedcba98 0x76543210) =
        wordOfLanes 0xbd170f4a 0x6e12925a 0x9971c800 0xfcb975ac ∧
      sfmtRec Config.toy (wordOfLanes 0x01234567 0x89abcdef 0xdeadbeef 0xcafef00d)
        (wordOfLanes 0x11111111 0x22222222 0x33333333 0x44444444) (wordOfLanes 0x0f0f0f0f 0xf0f0f0f0 0x00ff00ff 0xff00ff00)
        (wordOfLanes 0x13579bdf 0x2468ace0 0xfedcba98 0x76543210) =
        wordOfLanes 0x485d7b10 0xffc2b40f 0x846fe33f 0x84724f8e := by decide +kernel
/-- V-REC-16, REF: the same word in all four operands. -/
theorem test_rec_same_operands :
    sfmtRec Config.ref (wordOfLanes 0xffffffff 0 0xffffffff 0) (wordOfLanes 0xffffffff 0 0xffffffff 0)
        (wordOfLanes 0xffffffff 0 0xffffffff 0) (wordOfLanes 0xffffffff 0 0xffffffff 0) =
      wordOfLanes 0xff1c00ef 0xff0000ff 0xff1900ff 0x000000ff := by decide +kernel

/-! ### Seeds (2.3, 2.5) and certification (2.4) -/

/-- V-SEED-2, seed 1: the certified State Store, the cursor and the lifecycle. -/
theorem test_seed :
    lanesOf (nextOf (exec .seed { toy with a0 := 1 })).store =
        [0x00000001, 0x6c078976, 0xdd5254a5, 0xb9523b81, 0x03df95b3, 0xca37daa4, 0x1a9da2e9, 0x9cbef6f4,
         0x923b1516, 0x532304ed, 0x3ce73d26, 0x7afe7609, 0x4dc6d934, 0x66240ef6, 0x34fd1681, 0x626be9f4] ∧
      (nextOf (exec .seed { toy with a0 := 1 })).cursor = 0x10 ∧
      (nextOf (exec .seed { toy with a0 := 1 })).life = .seeded := by decide +kernel
/-- V-ARR-2: a key of four entries at lane 40 (P2). -/
theorem test_seedarr_four_entries :
    lanesOf (nextOf (exec .seedarr
        { toy with a0 := 4, a1 := 40, xmem := laneMemory 40 [0x1234, 0x5678, 0x9abc, 0xdef0] })).store =
      [0x4477618c, 0x6341c5d5, 0xbb10f123, 0x361358fa, 0xee1e3d61, 0x2ea5a55c, 0x1b4046f0, 0x985deaaa,
       0x275ae76c, 0x42344691, 0xd3c27a7e, 0x06995d8e, 0x37b0994b, 0x29fed780, 0x9816d2c8, 0x42f2c66a] := by decide +kernel
/-- V-ARR-3: a key longer than the state; the key loop wraps and there is no pad loop. -/
theorem test_seedarr_long_key :
    lanesOf (nextOf (exec .seedarr
        { toy with a0 := 17, a1 := 3, xmem := laneMemory 3 [1, 2, 3, 4, 5, 6, 7, 8, 9, 10, 11, 12, 13, 14, 15, 16, 17] })).store =
      [0x502d92e8, 0x10484a72, 0x1ce25519, 0xe07f55b3, 0x351b28ac, 0x0602267f, 0x8de28957, 0xafca123e,
       0x19be64ff, 0xa697d5ab, 0x494320a7, 0xb5cfd702, 0xc51c0635, 0x5f753925, 0xd0a5ccb5, 0x9616b6f9] := by decide +kernel
/-- V-FUNC. -/
theorem test_scrambling_functions :
    func1 0x12345678 = 0x39070032 ∧ func2 false 0x12345678 = 0xead94558 ∧ func2 true 0x12345678 = 0xa58a5c22 ∧
      func1 0x80000000 = 0x819660d0 := by decide
/-- V-CERT-1, rows 1 and 8, and V-CERT-2, row 4: the bit is inverted whether it was 0 or 1. -/
theorem test_certify :
    lanesOf (certifyStore Config.toy [wordOfLanes 0x00000001 0x6c078966 0xdd5254a5 0xb9523b81]) =
        [0x00000001, 0x6c078976, 0xdd5254a5, 0xb9523b81] ∧
      lanesOf (certifyStore Config.toy [wordOfLanes 0 0x10 0 0x80000000]) = [0, 0, 0, 0x80000000] ∧
      lanesOf (certifyStore Config.ref [wordOfLanes 1 0 0 4]) = [0, 0, 0, 4] := by decide +kernel

/-! ### Fills (2.6) -/

/-- V-FILL-1: the buffer and the new State Store. -/
theorem test_fill32 :
    xLanes (nextOf (exec .fill32 { seeded with a0 := 16, a1 := 0 })).xmem 0 16 = output1234 ∧
      lanesOf (nextOf (exec .fill32 { seeded with a0 := 16, a1 := 0 })).store = output1234 := by decide +kernel
/-- V-FILL-5: one word more than the state size, so that operands come from the buffer and the state is `X[4..19]`. -/
theorem test_fill32_past_state_size :
    xLanes (nextOf (exec .fill32 { seeded64 with a0 := 20, a1 := 0 })).xmem 16 4 =
        [0x7163709a, 0xdab7dd4d, 0x8f8db86c, 0xff893afc] ∧
      (lanesOf (nextOf (exec .fill32 { seeded64 with a0 := 20, a1 := 0 })).store).take 4 =
        [0x6cc5bc9c, 0x6c0db376, 0x895f14a9, 0x81cd95e1] := by decide +kernel
/-- V-FILL-3: eight 64-bit lanes. -/
theorem test_fill64 :
    (List.range 8).map ((nextOf (exec .fill64 { seeded with a0 := 8, a1 := 0 })).xmem.readLane64 0) =
      [0x055cbed0e1d165f9, 0x79281d6d9bcc8a82, 0xb51315fe5b9a5324, 0x5e06f8bd44b096fd,
       0xb87a1e4cdee99872, 0xe5c0de218439b944, 0x69a25b3039083794, 0x601d969019e35481] := by decide +kernel
/-- V-REJ, row 12: `2 * A0 = 2^32` is formed without wrap. -/
theorem test_fill64_count_does_not_wrap :
    (nextOf (exec .fill64 { seeded64 with a0 := 0x80000000, a1 := 0 })).last = .outOfRange := by decide +kernel

/-! ### Images (2.7, P5) -/

/-- V-IMG-1: EXPORT of seed 5 at lane 32. -/
theorem test_export :
    xLanes (nextOf (exec .exportImage { seeded5 with xmem := [] })).xmem 32 20 = lanes5 ++ [0x10, 0, 0, 0] := by decide +kernel
/-- V-IMG-1: equal, then one bit of lane 47 inverted. -/
theorem test_cmpeq :
    (nextOf (exec .cmpeq seeded5)).result = 1 ∧
      (nextOf (exec .cmpeq { seeded5 with xmem := image5.writeLane 47 0x11854ce6 })).result = 0 := by decide +kernel
/-- V-IMG-1: only the cursor differs. -/
theorem test_cmpeq_cursor : (nextOf (exec .cmpeq { seeded5 with xmem := image5.writeLane 48 15 })).result = 0 := by decide +kernel
/-- V-IMG-1: the same two comparisons, negated. -/
theorem test_cmpne :
    (nextOf (exec .cmpne seeded5)).result = 0 ∧
      (nextOf (exec .cmpne { seeded5 with xmem := image5.writeLane 47 0x11854ce6 })).result = 1 := by decide +kernel
/-- P5: an image with cursor 7 imported into a core that was never seeded. -/
theorem test_import :
    lanesOf (nextOf (exec .importImage { toy with a1 := 32, xmem := image5.writeLane 48 7 })).store = lanes5 ∧
      (nextOf (exec .importImage { toy with a1 := 32, xmem := image5.writeLane 48 7 })).cursor = 7 ∧
      (nextOf (exec .importImage { toy with a1 := 32, xmem := image5.writeLane 48 7 })).life = .streaming := by decide +kernel
/-- P5: a cursor lane of 17, and a padding lane of 1. -/
theorem test_import_bad_image :
    (nextOf (exec .importImage { toy with a1 := 32, xmem := image5.writeLane 48 17 })).last = .badImage ∧
      (nextOf (exec .importImage { toy with a1 := 32, xmem := image5.writeLane 50 1 })).last = .badImage := by decide +kernel

/-! ### Rejections (2.10) and the micro-step level (P6) -/

/-- V-REJ, row 1: the first rejection, as `STATUS`, `ERRCMD` and `ERRINFO` read. -/
theorem test_first_rejection :
    statusView (nextOf (exec .fill32 { toy64 with a0 := 0x10 })) = 0x338 ∧
      (nextOf (exec .fill32 { toy64 with a0 := 0x10 })).errcmd = 5 ∧
      (nextOf (exec .fill32 { toy64 with a0 := 0x10 })).errinfo = 0 := by decide
/-- V-PRI, row 2: of a bad count and a misaligned base, the count is reported. -/
theorem test_priority_of_checks : (nextOf (exec .fill32 { seeded64 with a0 := 3, a1 := 1 })).last = .badCount := by decide
/-- V-REJ, row 21: an illegal word. -/
theorem test_illegal_word : (nextOf (step { toy with script := [.command 0] })).last = .illegalCmd := by decide
/-- P6: `STATUS` right after the accept step of a fill. -/
theorem test_accept_step_of_fill : statusView filling = 0x8003 := by decide +kernel
/-- P6: a word written while the fill runs, after its first micro-step: `STATUS`, `ERRCMD`, `ERRINFO`, and the fill goes on. -/
theorem test_busy_rejection :
    statusView (acceptWord 0x7 (microStep filling)) = 0x822b ∧ (acceptWord 0x7 (microStep filling)).errcmd = 7 ∧
      (acceptWord 0x7 (microStep filling)).errinfo = 7 ∧ (acceptWord 0x7 (microStep filling)).idx = 1 := by decide +kernel
/-- P6: the reset keeps the word the fill had written and clears the rest (R203). -/
theorem test_reset_during_fill :
    statusView (resetCore (microStep filling)) = 0 ∧
      xLanes (resetCore (microStep filling)).xmem 0 8 =
        [0xe1d165f9, 0x055cbed0, 0x9bcc8a82, 0x79281d6d, 0, 0, 0, 0] := by decide +kernel
/-- R81: the expansion of `SEED 1234`. -/
theorem test_expand_seed :
    expandPseudo (.seed 1234) = [.host (.wr 0x04 0x4D2), .host (.wr 0x00 0x7), .host .wait] := by decide
/-- R81: the expansion of `XFILL`. -/
theorem test_expand_xfill : expandPseudo (.xfill 40 [1, 2]) = [.host (.xwr 40 1), .host (.xwr 41 2)] := by decide
/-- R52: the bytes of a lane, lowest address first. -/
theorem test_byte_order : laneMemory 1 [0x11223344] = [(4, 0x44), (5, 0x33), (6, 0x22), (7, 0x11)] := by decide
/-- Writing what an unlisted byte reads as takes the entry out. -/
theorem test_canonical_form : Memory.writeByte [(4, 0x44), (5, 0x33)] 4 0 = [(5, 0x33)] := by decide

/-! ### Witnesses: a concrete state for the hypotheses of each obligation

The clauses of one statement are witnessed one after the other, at the boundary of their ranges. -/

/-- An idle core that has been seeded, every register at a value of its own, in a state that meets the invariant. -/
theorem seeded5_inv : seeded5.Inv where
  storeLength := by decide +kernel
  cursorRange := by decide
  memoryForm := by decide +kernel
  memoryRange := by decide +kernel
  idlePhase := by decide
  errorRecord := by decide
  uninitCursor := by decide
  phaseOk := trivial

/-- A core in the middle of a fill that meets the invariant. -/
theorem filling_inv : filling.Inv where
  storeLength := by decide +kernel
  cursorRange := by decide +kernel
  memoryForm := by decide +kernel
  memoryRange := by decide +kernel
  idlePhase := by decide +kernel
  errorRecord := by decide +kernel
  uninitCursor := by decide +kernel
  phaseOk := by
    show (0 : Nat) < 4 ∧ filling.BufferInRange
    decide +kernel

theorem witness_IllegalWordIsRejected :
    (0 : Lane).extractLsb' 0 4 = 0 ∧ (0xD : Lane).extractLsb' 0 4 = 13 ∧ (0xE : Lane).extractLsb' 0 4 = 14 ∧
      (0xF : Lane).extractLsb' 0 4 = 15 ∧ (0x10 : Lane).extractLsb' 4 28 ≠ 0 ∧ (0xC : Lane).extractLsb' 4 28 = 0 ∧
      toy.busy = false ∧
      ({ toy with script := [.command 0] } : State).script = .command 0 :: [] ∧
      ({ toy with script := [.host (.wr 0x00 0)] } : State).script = .host (.wr 0x00 0) :: [] := by decide

theorem witness_StepRunsDecodedCommand :
    ({ toy with script := [.command 0xC, .core] } : State).script = .command 0xC :: [.core] ∧
      decode 0xC = .ok .importImage := by decide

theorem witness_CmdWriteIsAcceptStep :
    ({ toy with script := [.host (.wr 0x00 0xC)] } : State).script = .host (.wr 0x00 0xC) :: [] ∧
      decode 0xC = .ok .importImage ∧
      ({ toy with script := [.host (.rd 0x00)] } : State).script = .host (.rd 0x00) :: [] := by decide

theorem witness_StatusRegisterFields :
    ({ seeded5 with script := [.host (.rd 0x10)] } : State).script = .host (.rd 0x10) :: [] ∧
      ({ seeded5 with script := [.host (.rd 0x10)] } : State).Inv ∧ seeded5.fault = false ∧ seeded5.busy = false :=
  ⟨rfl, ⟨seeded5_inv.1, seeded5_inv.2, seeded5_inv.3, seeded5_inv.4, seeded5_inv.5, seeded5_inv.6, seeded5_inv.7,
    seeded5_inv.8⟩, by decide +kernel, by decide +kernel⟩

theorem witness_OperandRegistersBelongToHost :
    ({ toy with script := [.host (.wr 0x04 0xFFFFFFFF)] } : State).script = .host (.wr 0x04 0xFFFFFFFF) :: [] ∧
      ({ toy with script := [.host (.wr 0x08 0)] } : State).script = .host (.wr 0x08 0) :: [] ∧
      exec .seed toy = .next (nextOf (exec .seed toy)) ∧ toy.busy = false := ⟨rfl, rfl, exec_eq_next _ _, rfl⟩

theorem witness_ReadOnlyRegistersIgnoreWrites :
    ({ toy with script := [.host (.wr (HostReg.offset .errinfo) 1)] } : State).script =
        .host (.wr (HostReg.offset .errinfo) 1) :: [] ∧
      ({ toy with script := [.host (.rd (HostReg.offset .cursor))] } : State).script =
        .host (.rd (HostReg.offset .cursor)) :: [] ∧
      ({ toy with phase := .seedLoop, busy := true, idx := 15 } : State).phase = .seedLoop ∧
      ({ toy with phase := .seedLoop, busy := true, idx := 15 } : State).idx.toNat + 1 = Config.toy.n32 ∧
      ({ toy with phase := .arrWhiten, busy := true, jdx := 15 } : State).phase = .arrWhiten ∧
      ({ toy with phase := .arrWhiten, busy := true, jdx := 15 } : State).jdx.toNat + 1 = Config.toy.n32 := by decide

theorem witness_ResultWriters :
    toy.Idle ∧ exec .idlen toy = .next (nextOf (exec .idlen toy)) ∧ (nextOf (exec .idlen toy)).result ≠ toy.result ∧
      filling.busy = true ∧ exec .idlen filling = .next (nextOf (exec .idlen filling)) ∧
      (microStep { seeded5 with phase := .compare, busy := true, racc := 1, a1l := 32, idx := 3 }).result ≠
        ({ seeded5 with phase := .compare, busy := true, racc := 1, a1l := 32, idx := 3 } : State).result :=
  ⟨by decide, exec_eq_next _ _, by decide, by decide +kernel, exec_eq_next _ _, by decide +kernel⟩

theorem witness_BusyRejectsEveryCommand :
    filling.busy = true ∧ ({ filling with script := [.command 7] } : State).script = .command 7 :: [] ∧
      ({ filling with script := [.host (.wr 0x00 7)] } : State).script = .host (.wr 0x00 7) :: [] :=
  ⟨by decide +kernel, rfl, rfl⟩

/-- V-REJ, rows 1, 3 to 7 and 9 to 11, and P5 for the short cursor. -/
theorem witness_FillCheckOrder :
    toy64.Idle ∧ toy64.life = .uninit ∧
    (let s : State := { seeded64 with cursor := 15 }
     s.Idle ∧ s.life ≠ .uninit ∧ s.cursor.toNat ≠ s.cfg.n32) ∧
    (let s : State := { seeded64 with a0 := 18 }
     s.Idle ∧ s.life ≠ .uninit ∧ s.cursor.toNat = s.cfg.n32 ∧ s.a0.toNat % 4 ≠ 0) ∧
    (let s : State := { seeded64 with a0 := 12 }
     s.Idle ∧ s.life ≠ .uninit ∧ s.cursor.toNat = s.cfg.n32 ∧ s.a0.toNat < s.cfg.n32) ∧
    (let s : State := { seeded64 with a0 := 7 }
     s.Idle ∧ s.life ≠ .uninit ∧ s.cursor.toNat = s.cfg.n32 ∧ s.a0.toNat % 2 ≠ 0) ∧
    (let s : State := { seeded64 with a0 := 6 }
     s.Idle ∧ s.life ≠ .uninit ∧ s.cursor.toNat = s.cfg.n32 ∧ s.a0.toNat < s.cfg.n64) ∧
    (let s : State := { seeded64 with a0 := 16, a1 := 2 }
     s.Idle ∧ s.life ≠ .uninit ∧ s.cursor.toNat = s.cfg.n32 ∧ s.a0.toNat % 4 = 0 ∧ s.cfg.n32 ≤ s.a0.toNat ∧
       s.a1.toNat % 4 ≠ 0) ∧
    (let s : State := { seeded64 with a0 := 16, a1 := 0x34 }
     s.Idle ∧ s.life ≠ .uninit ∧ s.cursor.toNat = s.cfg.n32 ∧ s.a0.toNat % 4 = 0 ∧ s.cfg.n32 ≤ s.a0.toNat ∧
       s.a1.toNat % 4 = 0 ∧ s.cfg.xlanes < s.a1.toNat + s.a0.toNat) ∧
    (let s : State := { seeded64 with a0 := 8, a1 := 1 }
     s.Idle ∧ s.life ≠ .uninit ∧ s.cursor.toNat = s.cfg.n32 ∧ s.a0.toNat % 2 = 0 ∧ s.cfg.n64 ≤ s.a0.toNat ∧
       s.a1.toNat % 4 ≠ 0) ∧
    (let s : State := { seeded64 with a0 := 8, a1 := 0x34 }
     s.Idle ∧ s.life ≠ .uninit ∧ s.cursor.toNat = s.cfg.n32 ∧ s.a0.toNat % 2 = 0 ∧ s.cfg.n64 ≤ s.a0.toNat ∧
       s.a1.toNat % 4 = 0 ∧ s.cfg.xlanes < s.a1.toNat + 2 * s.a0.toNat) := by decide +kernel

/-- V-REJ, rows 14, 15 and 17, and P5 for the malformed trailers. -/
theorem witness_ImageCheckOrder :
    toy64.Idle ∧ toy64.life = .uninit ∧
    (let s : State := { seeded64 with a1 := 6 }
     s.Idle ∧ s.life ≠ .uninit ∧ s.a1.toNat % 4 ≠ 0) ∧
    (let s : State := { seeded64 with a1 := 0x30 }
     s.Idle ∧ s.life ≠ .uninit ∧ s.a1.toNat % 4 = 0 ∧ s.cfg.xlanes < s.a1.toNat + 4 * (s.cfg.n + 1)) ∧
    (let s : State := { seeded64 with a1 := 0x2c, xmem := laneMemory 0x3c [17] }
     s.Idle ∧ s.life ≠ .uninit ∧ s.a1.toNat % 4 = 0 ∧ s.a1.toNat + 4 * (s.cfg.n + 1) ≤ s.cfg.xlanes ∧ ¬ ImageTrailerOk s) ∧
    (let s : State := { seeded64 with a1 := 0x2c, xmem := laneMemory 0x3c [16, 0, 0, 1] }
     s.Idle ∧ s.life ≠ .uninit ∧ s.a1.toNat % 4 = 0 ∧ s.a1.toNat + 4 * (s.cfg.n + 1) ≤ s.cfg.xlanes ∧ ¬ ImageTrailerOk s) := by
  decide +kernel

/-- V-REJ, rows 18 and 20. -/
theorem witness_KeyAndByteChecks :
    (let s : State := { toy64 with a0 := 4, a1 := 0x3d }
     s.Idle ∧ s.a0.toNat ≠ 0 ∧ s.cfg.xlanes < s.a1.toNat + s.a0.toNat) ∧
    (let s : State := { toy64 with a0 := 17 }
     s.Idle ∧ s.cfg.idlen ≤ s.a0.toNat) := by decide +kernel

theorem witness_RejectedCommandChangesNothing :
    toy.Idle ∧ exec .fill32 toy = .next (nextOf (exec .fill32 toy)) ∧ (nextOf (exec .fill32 toy)).last ≠ .ok :=
  ⟨by decide, exec_eq_next _ _, by decide⟩

theorem witness_FirstRejectionIsSticky :
    let s : State := { toy with fault := true, fcause := .busy, errcmd := 7, errinfo := 7, script := [.command 0] }
    let u : State := { toy with script := [.command 0] }
    s.fault = true ∧ step s = .next (nextOf (step s)) ∧ (∀ rest, s.script ≠ .host .reset :: rest) ∧
      step u = .next (nextOf (step u)) ∧ (∀ rest, u.script ≠ .host .reset :: rest) ∧ (nextOf (step u)).fault ≠ u.fault ∧
      ({ s with script := [.host .reset] } : State).script = .host .reset :: [] :=
  ⟨rfl, eq_next (by decide +kernel), (fun _ h => by cases h), eq_next (by decide +kernel), (fun _ h => by cases h),
    by decide +kernel, rfl⟩

theorem witness_LifeTransitions :
    toy.Idle ∧ exec .seed toy = .next (nextOf (exec .seed toy)) ∧ (nextOf (exec .seed toy)).last = .ok ∧
      (nextOf (exec .fill32 toy)).last ≠ .ok ∧
      (microStep { toy with phase := .certify, busy := true }).life ≠ ({ toy with phase := .certify, busy := true } : State).life ∧
      seeded.Idle ∧ seeded.life ≠ .uninit ∧ toy.life = .uninit :=
  ⟨by decide, exec_eq_next _ _, by decide +kernel, by decide, by decide +kernel, by decide, by decide, rfl⟩

theorem witness_ResetFromAnyState :
    ({ filling with script := [.host .reset, .core] } : State).script = .host .reset :: [.core] := rfl

theorem witness_SizeAccessorsComplete : toy.Idle ∧ (State.init Config.ref).Idle := by decide

theorem witness_IdbyteReadsOneByte :
    ({ toy with a0 := 16 } : State).a0.toNat < Config.toy.idstr.length ∧ ({ toy with a0 := 16 } : State).Idle := by decide

theorem witness_ByteShiftsAreArithmetic : (0 : Nat) ≤ 15 ∧ (15 : Nat) ≤ 15 := by decide

theorem witness_StreamRecurrence :
    (toyStore lanes1234).length = Config.toy.n ∧ 3 < Config.toy.n ∧ Config.toy.n ≤ 4 := by decide

/-- V-REJ, row 8: the largest base that fits, with the smallest legal count. -/
theorem witness_Fill32ProducesStream : Fill32Ready { seeded64 with a0 := 16, a1 := 0x30 } where
  idle := by decide
  storeLength := by decide
  memoryForm := by decide
  seeded := by decide
  exhausted := by decide
  countExact := by decide
  countEnough := by decide
  aligned := by decide
  inRange := by decide

/-- V-REJ, row 13, at the largest base that fits. -/
theorem witness_Fill64ProducesStream : Fill64Ready { seeded64 with a0 := 8, a1 := 0x30 } where
  idle := by decide
  storeLength := by decide
  memoryForm := by decide
  seeded := by decide
  exhausted := by decide
  countExact := by decide
  countEnough := by decide
  aligned := by decide
  inRange := by decide

theorem witness_Fill64AgreesWithFill32 :
    2 * ({ seeded64 with a0 := 8, a1 := 0x30 } : State).a0.toNat = (16 : Lane).toNat ∧
      Fill64Ready { seeded64 with a0 := 8, a1 := 0x30 } :=
  ⟨by decide, witness_Fill64ProducesStream⟩

/-- V-FILL-4 with `C1 = C2 = N`, in an XMEM it fills to the last lane. -/
theorem witness_FillChunkingDoesNotMatter :
    Fill32Ready { ({ seeded64 with a1 := 0x20 } : State) with a0 := (16 : Lane) + 16 } ∧
      (16 : Lane).toNat + (16 : Lane).toNat < 2 ^ 32 ∧ (16 : Lane).toNat % 4 = 0 ∧ Config.toy64.n32 ≤ (16 : Lane).toNat :=
  ⟨⟨by decide, by decide, by decide, by decide, by decide, by decide, by decide, by decide, by decide⟩, by decide, by decide,
    by decide⟩

theorem witness_ReplayIgnoresBuffer :
    Fill32Ready { seeded64 with a0 := 16, a1 := 0x30 } ∧ Fill32Ready { seeded64 with a0 := 16, a1 := 0, life := .streaming } ∧
      ({ seeded64 with a0 := 16, a1 := 0x30 } : State).store =
        ({ seeded64 with a0 := 16, a1 := 0, life := .streaming } : State).store :=
  ⟨witness_Fill32ProducesStream,
    ⟨by decide, by decide, by decide, by decide, by decide, by decide, by decide, by decide, by decide⟩, rfl⟩

theorem witness_ScalarSeedCompletes : toy.Idle ∧ toy.store.length = toy.cfg.n := by decide

/-- The empty key with an address outside XMEM, and a key that ends at the last lane of XMEM (V-REJ, row 19). -/
theorem witness_KeyArraySeedCompletes :
    (let s : State := { toy64 with a0 := 0, a1 := 0xffffffff }
     s.Idle ∧ s.store.length = s.cfg.n ∧ s.a0.toNat = 0) ∧
    (let s : State := { toy64 with a0 := 4, a1 := 0x3c }
     s.Idle ∧ s.store.length = s.cfg.n ∧ s.a1.toNat + s.a0.toNat ≤ s.cfg.xlanes) := by decide +kernel

theorem witness_InitialMixLanes : (toyStore lanes5).length = Config.toy.n ∧ 0 < Config.toy.n32 ∧ 15 < Config.toy.n32 := by
  decide

theorem witness_KeyArrayRoundLanes : (toyStore lanes5).length = Config.toy.n ∧ 0 < Config.toy.n32 ∧ 15 < Config.toy.n32 := by
  decide

theorem witness_LagAndMid : (623 : Nat) ≤ 623 ∧ (68 : Nat) ≤ 622 ∧ (622 : Nat) < 623 ∧ (39 : Nat) ≤ 67 ∧ (67 : Nat) < 68 ∧
    (38 : Nat) < 39 := by decide

theorem witness_ReseedForgetsState :
    let s : State := { toy with a0 := 4, a1 := 40, xmem := laneMemory 40 [1, 2, 3, 4] }
    let s' : State := { seeded with a0 := 4, a1 := 124, xmem := laneMemory 124 [1, 2, 3, 4], cursor := 7 }
    s.Idle ∧ s'.Idle ∧ s.store.length = s.cfg.n ∧ s'.store.length = s'.cfg.n ∧ s.cfg = s'.cfg ∧ s.a0 = s'.a0 ∧
      s.a1.toNat + s.a0.toNat ≤ s.cfg.xlanes ∧ s'.a1.toNat + s.a0.toNat ≤ s.cfg.xlanes ∧
      ∀ j < s.a0.toNat, s.xmem.readLane (s.a1.toNat + j) = s'.xmem.readLane (s'.a1.toNat + j) := by decide +kernel

theorem witness_ZeroLengthKey :
    let s : State := { seeded with a0 := 0, a1 := 0xffffffff }
    s.Idle ∧ s.store.length = s.cfg.n ∧ s.a0 = 0 := by decide +kernel

/-- V-CERT-1: a store with fold 1 and one with fold 0. -/
theorem witness_CertificationFlipsOneBit :
    parityFold Config.toy (toyStore [0, 0x10, 0, 0]) = true ∧ (toyStore [0, 0, 0, 0]).length = Config.toy.n ∧
      parityFold Config.toy (toyStore [0, 0, 0, 0]) = false := by decide +kernel

theorem witness_CertificationPostcondition : (toyStore [0, 0, 0, 0]).length = Config.toy.n := by decide

theorem witness_SeededStateIsCertified :
    toy.Idle ∧ toy.store.length = toy.cfg.n ∧ exec .seedarr toy = .next (nextOf (exec .seedarr toy)) ∧
      (nextOf (exec .seedarr toy)).last = .ok :=
  ⟨by decide, by decide, exec_eq_next _ _, by decide +kernel⟩

/-- V-REJ, row 16: the image fits exactly. -/
theorem witness_ExportWritesImage :
    let s : State := { seeded64 with a1 := 0x2c }
    s.Idle ∧ s.store.length = s.cfg.n ∧ s.xmem.wf ∧ s.life ≠ .uninit ∧ s.a1.toNat % 4 = 0 ∧
      s.a1.toNat + 4 * (s.cfg.n + 1) ≤ s.cfg.xlanes := by decide +kernel

/-- A fresh core, and the two ends of the range of the image's cursor. -/
theorem witness_ImportLoadsImage :
    (let s : State := { toy64 with a1 := 0x2c, xmem := laneMemory 0x3c [16] }
     s.Idle ∧ s.store.length = s.cfg.n ∧ ImageOk s) ∧
    (let s : State := { toy64 with a1 := 0x2c }
     s.Idle ∧ s.store.length = s.cfg.n ∧ ImageOk s) := by decide +kernel

theorem witness_CompareAnswersEquality :
    seeded5.Idle ∧ seeded5.store.length = seeded5.cfg.n ∧ seeded5.life ≠ .uninit ∧ ImageOk seeded5 ∧ imageEqual seeded5 ∧
      ¬ imageEqual { seeded5 with cursor := 15 } := by decide +kernel

theorem witness_ExportThenCompareAndImport :
    seeded5.Inv ∧ seeded5.Idle ∧ seeded5.life ≠ .uninit ∧ seeded5.a1.toNat % 4 = 0 ∧
      seeded5.a1.toNat + 4 * (seeded5.cfg.n + 1) ≤ seeded5.cfg.xlanes :=
  ⟨seeded5_inv, by decide, by decide, by decide, by decide⟩

theorem witness_StepKeepsInvariant :
    seeded5.Inv ∧ step seeded5 = .next (nextOf (step seeded5)) ∧ filling.Inv ∧ step filling = .next (nextOf (step filling)) :=
  ⟨seeded5_inv, eq_next (by decide +kernel), filling_inv, eq_next (by decide +kernel)⟩

theorem witness_ConfigNeverChanges : step filling = .next (nextOf (step filling)) := eq_next (by decide +kernel)

/-- R202 for `SEED` on TOY: 17 turns. -/
theorem witness_MicroStepsReachCommandLevel :
    let s : State := { toy with script := .host (.wr 0x00 (encode .seed)) :: (List.replicate 17 Turn.core ++ [.host .wait]) }
    s.Idle ∧ s.script = .host (.wr 0x00 (encode .seed)) :: (List.replicate (microCount .seed s) Turn.core ++ [.host .wait]) := by
  decide +kernel

theorem witness_IssueAndWaitReachesCommandLevel :
    let s : State := { toy with script := issueAndWait .seed ++ [rdResult] }
    s.Idle ∧ s.script = issueAndWait .seed ++ [rdResult] := by decide +kernel

theorem witness_MicroStepCountsAreExact :
    toy.Idle ∧ (acceptCommand .seed toy).busy = true ∧ 0 < microCount .seed toy := by decide +kernel

theorem witness_RunningCommandCompletes : filling.Inv ∧ filling.busy = true := ⟨filling_inv, by decide +kernel⟩

theorem witness_WellFormedScriptNeverStops :
    scriptWellFormed Config.toy [.host (.wr 0x1C 1), .host (.xrd 127), .command 0] = true ∧
      registerOffsetOk 0x20 = false ∧ Config.toy.xlanes ≤ 128 ∧
      faultOf (step { toy with script := [.host (.rd 0x20)] }) = some (.noSuchRegister 0x20) ∧
      faultOf (step { toy with script := [.host (.xwr 128 1)] }) = some (.noSuchLane 128) := by decide

theorem witness_XmemReadsLastWrite :
    let s : State := { toy with script := [.host (.xwr 127 0xA0B0C0D0), .host (.xrd 127)] }
    s.xmem.wf ∧ 127 < s.cfg.xlanes ∧ s.script = .host (.xwr 127 0xA0B0C0D0) :: .host (.xrd 127) :: [] := by decide +kernel

theorem witness_StoreHasTwoViews : 15 < 4 * (toyStore lanes5).length ∧ 3 < (toyStore lanes5).length := by decide

theorem witness_GeneratorStateWriters :
    ({ toy with script := [.host (.wr 0x00 7)] } : State).script = .host (.wr 0x00 7) :: [] ∧
      HostEvent.wr 0x00 7 ≠ .reset ∧ HostEvent.wr 0x00 7 ≠ .wait ∧
      step { toy with script := [.host (.wr 0x00 7)] } = .next (nextOf (step { toy with script := [.host (.wr 0x00 7)] })) ∧
      filling.phase = .gen ∧ ({ seeded5 with phase := .compare, busy := true } : State).phase ≠ .gen :=
  ⟨rfl, by decide, by decide, eq_next (by decide +kernel), by decide +kernel, by decide⟩

theorem witness_IdleCoreWaits :
    toy.Idle ∧ exec .idlen toy = .next (nextOf (exec .idlen toy)) ∧ toy.script = [] ∧
      ({ toy with script := [.core] } : State).script = .core :: [] := ⟨by decide, exec_eq_next _ _, rfl, rfl⟩

end Sys2Proof.Tests
end

section
/-!
SUPPORT. Everything one step of the machine can do, said once (`step_move`), and the configuration along it
(spec/00_scope.md R8): no move writes `Config`.
-/

namespace Sys2Proof.Machine

/-- The state with the turns `ts` still to come in place of its own. -/
def State.withScript (ts : List Turn) (s : State) : State := { s with script := ts }

/-- What one step does to a state whose turn has been taken from the script: one constructor per kind of turn that gives
a next state (R10, R80). -/
inductive Move (s : State) : State → Prop
  /-- an idle core waits, or a `WAIT` ends -/
  | stay : Move s s
  /-- a running command goes on -/
  | micro : s.busy = true → Move s (microStep s)
  /-- a command word at the command level -/
  | exec {i : Instr} {t : State} : exec i s = .next t → Move s t
  /-- a write of a command's word to `CMD` -/
  | accept (i : Instr) : Move s (acceptCommand i s)
  /-- an illegal word, at either level -/
  | illegal (w : Lane) : Move s (rejectIllegal w s)
  /-- a write to a register other than `CMD` -/
  | operand (r : HostReg) (v : Lane) : Move s (writeOperandReg r v s)
  /-- a read of a register or of a lane -/
  | read (v : Lane) : Move s (recordRead v s)
  /-- a host write of a lane of XMEM -/
  | xmemWrite (a : Nat) (v : Lane) : a < s.cfg.xlanes → Move s { s with xmem := s.xmem.writeLane a v }
  | reset : Move s (resetCore s)

theorem coreTurn_move (s : State) : Move s (coreTurn s) := by
  unfold coreTurn
  split
  · next h => exact .micro h
  · exact .stay

theorem runWord_move {w : Lane} {s t : State} (h : runWord w s = .next t) : Move s t := by
  unfold runWord at h
  split at h
  · exact .exec h
  · cases h
    exact .illegal w

theorem acceptWord_move (w : Lane) (s : State) : Move s (acceptWord w s) := by
  unfold acceptWord
  split
  · exact .accept _
  · exact .illegal w

theorem writeHostReg_move (r : HostReg) (v : Lane) (s : State) : Move s (writeHostReg r v s) := by
  cases r
  case cmd => exact acceptWord_move v s
  all_goals
    dsimp only [writeHostReg]
    exact .operand _ v

theorem hostEvent_move {e : HostEvent} {s t : State} (h : hostEvent e s = .next t) : Move s t := by
  cases e <;> simp only [hostEvent] at h
  case wr off v =>
    split at h <;> cases h
    exact writeHostReg_move _ v s
  case rd off =>
    split at h <;> cases h
    exact .read _
  case wait =>
    cases h
    exact .stay
  case xwr a v =>
    split at h <;> cases h
    exact .xmemWrite a v ‹_›
  case xrd a =>
    split at h <;> cases h
    exact .read _
  case reset =>
    cases h
    exact .reset

/-- Every step that gives a next state takes a turn or leaves the script alone, and makes one move. -/
theorem step_move {s t : State} (h : step s = .next t) : ∃ ts, Move (s.withScript ts) t := by
  unfold step at h
  split at h
  · cases h
    exact ⟨s.script, coreTurn_move s⟩
  · next rest _ =>
    cases h
    exact ⟨rest, coreTurn_move _⟩
  · next rest _ => exact ⟨rest, runWord_move h⟩
  · next rest _ =>
    cases h
    unfold waitTurn
    split
    · next hb => exact ⟨s.script, .micro hb⟩
    · exact ⟨rest, .stay⟩
  · next rest _ _ => exact ⟨rest, hostEvent_move h⟩

/-- At either level and from every state, what a command leaves is its accept step and some number of micro-steps. -/
theorem exec_eq_microSteps {i : Instr} {s t : State} (h : exec i s = .next t) :
    ∃ k, t = microSteps k (acceptCommand i s) := by
  rw [exec_eq] at h
  cases h
  unfold commandLevel
  split
  · exact ⟨0, rfl⟩
  · exact ⟨microCount i s, rfl⟩

@[simp] theorem commandEntry_cfg (i : Instr) (s u : State) : (commandEntry i s u).cfg = u.cfg := by
  cases i <;> rfl

@[simp] theorem acceptCommand_cfg (i : Instr) (s : State) : (acceptCommand i s).cfg = s.cfg := by
  rw [acceptCommand_eq]
  obtain ⟨-, e⟩ | ⟨-, c, -, -, e⟩ | ⟨-, -, e⟩ := acceptWith_cases i (commandChecks i) (commandEntry i s) s <;> rw [e]
  · exact reject_cfg ..
  · rfl
  · exact commandEntry_cfg ..

@[simp] theorem rejectIllegal_cfg (w : Lane) (s : State) : (rejectIllegal w s).cfg = s.cfg := by
  unfold rejectIllegal
  split <;> exact reject_cfg ..

@[simp] theorem writeOperandReg_cfg (r : HostReg) (v : Lane) (s : State) : (writeOperandReg r v s).cfg = s.cfg := by
  cases r <;> rfl

theorem exec_cfg {i : Instr} {s t : State} (h : exec i s = .next t) : t.cfg = s.cfg := by
  obtain ⟨k, rfl⟩ := exec_eq_microSteps h
  exact (microSteps_frame k _).cfg.trans (acceptCommand_cfg i s)

theorem Move.cfg {s t : State} (h : Move s t) : t.cfg = s.cfg := by
  cases h with
  | micro _ => exact (microStep_frame s).cfg
  | exec h => exact exec_cfg h
  | accept i => exact acceptCommand_cfg i s
  | illegal w => exact rejectIllegal_cfg w s
  | operand r v => exact writeOperandReg_cfg r v s
  | stay | read _ | xmemWrite _ _ _ | reset => rfl

/-- Settles O47: every step is one move from the state with its turn taken, and no kind of move writes the
configuration. -/
theorem configNeverChanges : Obligations.ConfigNeverChanges := by
  intro s t h
  obtain ⟨_, m⟩ := step_move h
  exact m.cfg

end Sys2Proof.Machine
end

section
/-!
SUPPORT. The script is the host's alone: the accept step and the micro-steps do the same whatever turns are still to come
(R9, R10). With it, core turns are micro-steps, and the two levels of R10 meet.
-/

namespace Sys2Proof.Machine

/-! ### The core does not look at the script -/

theorem microStep_withScript (ts : List Turn) (s : State) :
    microStep (s.withScript ts) = (microStep s).withScript ts := by
  unfold microStep
  rw [show (s.withScript ts).phase = s.phase from rfl]
  cases s.phase
  case idle | arrMix0 | certify => rfl
  case arrKey =>
    dsimp only [arrKeyStep]
    rw [apply_ite (State.withScript ts), apply_ite (State.withScript ts)]
    rfl
  all_goals
    dsimp only [seedLoopStep, arrPatternStep, arrPadStep, arrWhitenStep, genStep, copybackStep, exportStep, importStep,
      compareStep]
    rw [apply_ite (State.withScript ts)]
    rfl

theorem microSteps_withScript (ts : List Turn) (k : Nat) (s : State) :
    microSteps k (s.withScript ts) = (microSteps k s).withScript ts := by
  induction k generalizing s with
  | zero => rfl
  | succ k ih => rw [microSteps_succ, microSteps_succ, microStep_withScript, ih]

theorem reject_withScript (c : Cause) (w v : Lane) (ts : List Turn) (s : State) :
    reject c w v (s.withScript ts) = (reject c w v s).withScript ts := by
  unfold reject
  rw [apply_ite (State.withScript ts)]
  rfl

theorem coreTurn_withScript (ts : List Turn) (s : State) :
    coreTurn (s.withScript ts) = (coreTurn s).withScript ts := by
  unfold coreTurn
  rw [apply_ite (State.withScript ts), ← microStep_withScript]
  rfl

theorem commandChecks_withScript (i : Instr) (ts : List Turn) (s : State) :
    commandChecks i (s.withScript ts) = commandChecks i s := by
  cases i <;> rfl

theorem commandEntry_withScript (i : Instr) (ts : List Turn) (s u : State) :
    commandEntry i (s.withScript ts) (u.withScript ts) = (commandEntry i s u).withScript ts := by
  cases i <;> rfl

theorem microCount_withScript (i : Instr) (ts : List Turn) (s : State) :
    microCount i (s.withScript ts) = microCount i s := by
  cases i <;> rfl

theorem acceptCommand_withScript (i : Instr) (ts : List Turn) (s : State) :
    acceptCommand i (s.withScript ts) = (acceptCommand i s).withScript ts := by
  rw [acceptCommand_eq, acceptCommand_eq]
  cases hb : s.busy with
  | true =>
    have hb' : (s.withScript ts).busy = true := hb
    rw [acceptWith_busy hb, acceptWith_busy hb', reject_withScript]
  | false =>
    have hb' : (s.withScript ts).busy = false := hb
    have hcs := commandChecks_withScript i ts s
    cases hc : firstFailure (commandChecks i s) with
    | some c =>
      rw [acceptWith_rejects hb hc, acceptWith_rejects hb' (by rw [hcs, hc])]
      rfl
    | none =>
      rw [acceptWith_enters hb hc, acceptWith_enters hb' (by rw [hcs, hc])]
      exact commandEntry_withScript i ts s (latch i s)

/-! ### Core turns are micro-steps -/

/-- The states in which a turn of the core is exactly one micro-step: a command runs, or none does. -/
def State.Settled (s : State) : Prop := Running s ∨ s.Idle

theorem coreTurn_eq_microStep {s : State} (h : s.Settled) : coreTurn s = microStep s := by
  unfold coreTurn
  obtain hr | hi := h
  · rw [if_pos hr.busy]
  · rw [hi.1, if_neg Bool.false_ne_true, microStep_idle hi.2]

theorem microStep_settled {s : State} (h : s.Settled) : (microStep s).Settled := by
  obtain hr | hi := h
  · exact (microStep_progress hr).2.imp_right fun hc => ⟨hc.busy, hc.phase⟩
  · rw [microStep_idle hi.2]
    exact .inr hi

/-- A command given to an idle core is rejected, completes at once, or runs. -/
theorem acceptCommand_settled (i : Instr) {s : State} (h : s.Idle) : (acceptCommand i s).Settled := by
  obtain ⟨c, -, -, -, e⟩ | ⟨hc, -, e⟩ := exec_cases i h <;> rw [e]
  · exact .inr h
  · have he := entry_running h hc
    split at he
    · exact .inr ⟨he.1.busy, he.1.phase⟩
    · exact .inl he.1

theorem step_core (ts : List Turn) {s : State} (h : s.Settled) :
    step (s.withScript (.core :: ts)) = .next ((microStep s).withScript ts) := by
  rw [← coreTurn_eq_microStep h, ← coreTurn_withScript]
  rfl

theorem runSteps_succ {k : Nat} {s t : State} (h : step s = .next t) : runSteps (k + 1) s = runSteps k t := by
  rw [runSteps, h]

/-- `k` turns of the core are `k` micro-steps. -/
theorem runSteps_core (k : Nat) (rest : List Turn) {s : State} (h : s.Settled) :
    runSteps k (s.withScript (List.replicate k .core ++ rest)) = .next ((microSteps k s).withScript rest) := by
  induction k generalizing s with
  | zero => rfl
  | succ k ih =>
    calc runSteps (k + 1) (s.withScript (List.replicate (k + 1) .core ++ rest))
      _ = runSteps k ((microStep s).withScript (List.replicate k .core ++ rest)) := runSteps_succ (step_core _ h)
      _ = .next ((microSteps (k + 1) s).withScript rest) := ih (microStep_settled h)

/-! ### The write to `CMD` -/

/-- What `Laws.CommandEncoding` says of each command, of all of them. -/
theorem commandEncoding : ∀ i : Instr, Laws.CommandEncoding.Statement i
  | .idlen => Laws.CommandEncoding.idlen
  | .idbyte => Laws.CommandEncoding.idbyte
  | .minsz32 => Laws.CommandEncoding.minsz32
  | .minsz64 => Laws.CommandEncoding.minsz64
  | .fill32 => Laws.CommandEncoding.fill32
  | .fill64 => Laws.CommandEncoding.fill64
  | .seed => Laws.CommandEncoding.seed
  | .seedarr => Laws.CommandEncoding.seedarr
  | .cmpeq => Laws.CommandEncoding.cmpeq
  | .cmpne => Laws.CommandEncoding.cmpne
  | .exportImage => Laws.CommandEncoding.exportImage
  | .importImage => Laws.CommandEncoding.importImage

theorem decode_encode (i : Instr) : decode (encode i) = .ok i := (commandEncoding i).1

theorem acceptWord_encode (i : Instr) (s : State) : acceptWord (encode i) s = acceptCommand i s := by
  unfold acceptWord
  rw [decode_encode]

/-- R31: a write of a command's word to `CMD` is the accept step of that command. -/
theorem step_writeCommand {i : Instr} {s : State} {rest : List Turn}
    (h : s.script = .host (.wr 0x00 (encode i)) :: rest) :
    step s = .next (acceptCommand i (s.withScript rest)) := by
  rw [← acceptWord_encode]
  unfold step
  rw [h]
  rfl

/-- Settles O48: the write to `CMD` is the accept step, each of the following turns is one micro-step, and neither looks at
the script; the command level is the same accept step with the same micro-steps. -/
theorem microStepsReachCommandLevel : Obligations.MicroStepsReachCommandLevel := by
  intro s i rest hs hscript
  have host : runSteps (microCount i s + 1) s = .next ((microSteps (microCount i s) (acceptCommand i s)).withScript rest) := by
    rw [runSteps_succ (step_writeCommand hscript), acceptCommand_withScript, runSteps_core _ _ (acceptCommand_settled i hs)]
  have command : exec i (s.withScript rest) =
      .next ((microSteps (microCount i s) (acceptCommand i s)).withScript rest) := by
    have hs' : (s.withScript rest).Idle := hs
    rw [exec_closure hs', microCount_withScript, acceptCommand_withScript, microSteps_withScript]
  exact ⟨_, command, host⟩

end Sys2Proof.Machine
end

section
/-!
SUPPORT. What a micro-step and an accept step write (spec/10_state.md R24, R26, R33, R36): the effect of each on the generator
state, on XMEM, on `RESULT` and on the lifecycle, said once for every phase and every command.
-/

namespace Sys2Proof.Machine

/-- The lifecycle that the command in the phase `p` leaves when it completes, if it sets one at all (R26). -/
def Phase.destination : Phase → Option Life
  | .seedLoop | .arrPattern | .arrMix0 | .arrKey | .arrPad | .arrWhiten | .certify => some .seeded
  | .gen | .copyback | .importing => some .streaming
  | .idle | .exporting | .compare => none

/-- What one micro-step from `s` to `t` writes, and how it ends or goes on. -/
structure MicroWrites (s t : State) : Prop where
  storeLength : t.store.length = s.store.length
  store : s.phase = .gen ∨ s.phase = .exporting ∨ s.phase = .compare ∨ s.phase = .idle →
    t.store = s.store ∧ t.cursor = s.cursor
  cursor : t.cursor = s.cursor ∨ t.cursor = BitVec.ofNat 32 s.cfg.n32 ∨ s.phase = .importing ∧ t.cursor = s.curl
  xmem : t.xmem = s.xmem ∨
    (s.phase = .gen ∨ s.phase = .exporting) ∧ ∃ w, t.xmem = s.xmem.writeWord (s.a1l.toNat + 4 * s.idx.toNat) w
  result : t.result = s.result ∨ s.phase = .compare ∧ Completed t
  goesOn : t.phase ≠ .idle → t.life = s.life ∧ t.phase.destination = s.phase.destination
  ends : t.phase = .idle → t.life = s.phase.destination.getD s.life ∧ (t = s ∨ Completed t)
  compare : t.phase = .compare → s.phase = .compare

theorem microStep_writes (s : State) : MicroWrites s (microStep s) := by
  unfold microStep
  cases hp : s.phase
  case idle => constructor <;> simp [hp, Phase.destination]
  case certify =>
    unfold certifyStep
    constructor <;> simp [hp, Completed.complete, Phase.destination]
  case arrMix0 =>
    unfold arrMix0Step
    by_cases hk : 0 < s.a0l.toNat <;> constructor <;> simp [hp, hk, Phase.destination]
  case arrKey =>
    unfold arrKeyStep
    dsimp only
    split
    · split <;> constructor <;> simp [hp, Phase.destination]
    · constructor <;> simp [hp, Phase.destination]
  all_goals
    dsimp only [seedLoopStep, arrPatternStep, arrPadStep, arrWhitenStep, genStep, copybackStep, exportStep, importStep,
      compareStep]
    split <;> constructor <;> simp [hp, Completed.complete, Phase.destination]

/-- The fields the entry of an accepted command leaves alone. -/
structure EntryFrame (s t : State) : Prop where
  store : t.store = s.store
  cursor : t.cursor = s.cursor
  life : t.life = s.life
  fault : t.fault = s.fault
  fcause : t.fcause = s.fcause
  errcmd : t.errcmd = s.errcmd
  errinfo : t.errinfo = s.errinfo
  a0 : t.a0 = s.a0
  a1 : t.a1 = s.a1
  opl : t.opl = s.opl
  a0l : t.a0l = s.a0l
  a1l : t.a1l = s.a1l
  xmem : t.xmem = s.xmem
  script : t.script = s.script

theorem commandEntry_frame (i : Instr) (s u : State) : EntryFrame u (commandEntry i s u) := by
  cases i <;> exact ⟨rfl, rfl, rfl, rfl, rfl, rfl, rfl, rfl, rfl, rfl, rfl, rfl, rfl, rfl⟩

/-- The fields no accept step writes, whether it rejects or accepts. -/
structure AcceptFrame (s t : State) : Prop where
  store : t.store = s.store
  cursor : t.cursor = s.cursor
  life : t.life = s.life
  a0 : t.a0 = s.a0
  a1 : t.a1 = s.a1
  xmem : t.xmem = s.xmem
  script : t.script = s.script

theorem reject_frame (c : Cause) (w v : Lane) (s : State) : AcceptFrame s (reject c w v s) :=
  ⟨reject_store .., reject_cursor .., reject_life .., reject_a0 .., reject_a1 .., reject_xmem .., reject_script ..⟩

theorem rejectIllegal_frame (w : Lane) (s : State) : AcceptFrame s (rejectIllegal w s) := by
  unfold rejectIllegal
  split <;> exact reject_frame ..

/-- What a command leaves at either level, its accept step alone (`k = 0`) or the whole command: a `BUSY` rejection, the
rejection of a failing check, or some of its micro-steps. -/
inductive CommandEnds (i : Instr) (s : State) : State → Prop
  | busy : s.busy = true → CommandEnds i s (reject .busy (encode i) (encode i) s)
  | rejected (c : Check) : s.busy = false → c ∈ commandChecks i s → CommandEnds i s (rejectedState c.cause i c.info s)
  | accepted (k : Nat) : s.busy = false → (∀ c ∈ commandChecks i s, c.fails = false) →
      CommandEnds i s (microSteps k (commandEntry i s (latch i s)))

theorem acceptCommand_ends (i : Instr) (s : State) : CommandEnds i s (acceptCommand i s) := by
  rw [acceptCommand_eq]
  obtain ⟨hb, e⟩ | ⟨hb, c, hc, -, e⟩ | ⟨hb, hc, e⟩ := acceptWith_cases i (commandChecks i) (commandEntry i s) s <;> rw [e]
  · exact .busy hb
  · exact .rejected c hb hc
  · exact .accepted 0 hb hc

theorem exec_ends {i : Instr} {s t : State} (h : exec i s = .next t) : CommandEnds i s t := by
  rw [exec_eq] at h
  cases h
  unfold commandLevel
  split
  · exact acceptCommand_ends i s
  · next hb =>
    have ha := acceptCommand_ends i s
    simp only [Bool.or_eq_true, not_or] at hb
    generalize acceptCommand i s = u at ha hb
    cases ha with
    | busy h => exact absurd h hb.1
    | rejected c h _ => simp [rejectedState, h] at hb
    | accepted k h hc =>
      rw [← microSteps_add]
      exact .accepted _ h hc

theorem acceptCommand_frame (i : Instr) (s : State) : AcceptFrame s (acceptCommand i s) := by
  rw [acceptCommand_eq]
  obtain ⟨-, e⟩ | ⟨-, c, -, -, e⟩ | ⟨-, -, e⟩ := acceptWith_cases i (commandChecks i) (commandEntry i s) s <;> rw [e]
  · exact reject_frame ..
  · exact ⟨rfl, rfl, rfl, rfl, rfl, rfl, rfl⟩
  · have f := commandEntry_frame i s (latch i s)
    exact ⟨f.store, f.cursor, f.life, f.a0, f.a1, f.xmem, f.script⟩

end Sys2Proof.Machine
end

section
/-!
SUPPORT. The invariant of the machine (`State.Inv`): it holds after reset, and every move of `Move` keeps it.
-/

namespace Sys2Proof.Machine

theorem phaseOk_of_idle {s : State} (h : s.phase = .idle) : s.PhaseOk := by
  simp [State.PhaseOk, h]

/-- The two parts of the invariant about `PHASE`, for a command that runs or has just completed. -/
theorem phase_of_running_or_completed {s : State} (h : Running s ∨ Completed s) :
    (s.busy = false ↔ s.phase = .idle) ∧ s.PhaseOk := by
  obtain hr | hc := h
  · exact ⟨by simp [hr.busy, hr.phase], hr.ok⟩
  · exact ⟨by simp [hc.busy, hc.phase], phaseOk_of_idle hc.phase⟩

theorem State.Inv.running {s : State} (h : s.Inv) (hb : s.busy = true) : Running s where
  busy := hb
  phase hp := by simp [h.idlePhase.2 hp] at hb
  ok := h.phaseOk

/-- The word a micro-step writes to XMEM lies inside the region the accept step checked (R179). -/
theorem State.PhaseOk.wordInRange {s : State} (h : s.PhaseOk) (hp : s.phase = .gen ∨ s.phase = .exporting) :
    s.a1l.toNat + 4 * s.idx.toNat + 3 < s.cfg.xlanes := by
  unfold State.PhaseOk at h
  obtain hp | hp := hp <;> simp only [hp] at h
  · obtain ⟨hi, -, -, -, hr⟩ := h
    omega
  · obtain ⟨hi, -, -, hr⟩ := h
    unfold imageLength at hr
    omega

/-- A command whose completion leaves `LIFE` alone runs on a core that has been seeded. -/
theorem Running.destination_ne_uninit {s : State} (h : Running s) : s.phase.destination.getD s.life ≠ .uninit := by
  obtain ⟨-, hp, ok⟩ := h
  unfold State.PhaseOk at ok
  cases e : s.phase <;> simp_all [Phase.destination]

theorem microStep_inv {s : State} (h : s.Inv) (hb : s.busy = true) : (microStep s).Inv := by
  have hr := h.running hb
  have hend := (microStep_progress hr).2
  have f := microStep_frame s
  have w := microStep_writes s
  obtain ⟨hidle, hok⟩ := phase_of_running_or_completed hend
  refine ⟨?_, ?_, ?_, ?_, hidle, ?_, ?_, hok⟩
  · rw [w.storeLength, f.cfg, h.storeLength]
  · rw [f.cfg]
    obtain e | e | ⟨hp, e⟩ := w.cursor <;> rw [e]
    · exact h.cursorRange
    · exact (ofNat_n32_toNat s.cfg).le
    · have ok := h.phaseOk
      simp only [State.PhaseOk, hp] at ok
      exact ok.2.1
  · obtain e | ⟨-, x, e⟩ := w.xmem <;> rw [e]
    · exact h.memoryForm
    · exact writeWord_wf h.memoryForm _ x
  · rw [f.cfg]
    obtain e | ⟨hp, x, e⟩ := w.xmem <;> rw [e]
    · exact h.memoryRange
    · exact writeWord_within h.memoryRange (h.phaseOk.wordInRange hp) x
  · rw [f.fault, f.fcause, f.errcmd, f.errinfo]
    exact h.errorRecord
  · intro hb' hl
    rw [(w.ends (hidle.1 hb')).1] at hl
    exact absurd hl hr.destination_ne_uninit

theorem microSteps_inv {s : State} (h : s.Inv) (k : Nat) : (microSteps k s).Inv := by
  induction k generalizing s with
  | zero => exact h
  | succ k ih =>
    cases hb : s.busy with
    | true => exact ih (microStep_inv h hb)
    | false => rwa [microSteps_idle (h.idlePhase.1 hb)]

theorem reject_inv {s : State} (h : s.Inv) {c : Cause} (hc : c ≠ .ok) (w v : Lane) : (reject c w v s).Inv := by
  have he := h.errorRecord
  rw [reject_eq]
  refine ⟨h.storeLength, h.cursorRange, h.memoryForm, h.memoryRange, h.idlePhase, ?_, h.uninitCursor, h.phaseOk⟩
  cases hf : s.fault <;> simp_all

theorem latch_inv {s : State} (h : s.Inv) (hs : s.phase = .idle) (i : Instr) : (latch i s).Inv :=
  ⟨h.storeLength, h.cursorRange, h.memoryForm, h.memoryRange, h.idlePhase, h.errorRecord, h.uninitCursor,
    phaseOk_of_idle hs⟩

/-- An accepted command runs, or has completed at once. -/
theorem entry_running_or_completed {i : Instr} {s : State} (h : s.Idle) (hc : ∀ c ∈ commandChecks i s, c.fails = false) :
    Running (commandEntry i s (latch i s)) ∨ Completed (commandEntry i s (latch i s)) := by
  have he := entry_running h hc
  split at he
  · exact .inr he.1
  · exact .inl he.1

theorem commandEntry_inv {i : Instr} {s : State} (h : s.Inv) (hs : s.Idle)
    (hc : ∀ c ∈ commandChecks i s, c.fails = false) : (commandEntry i s (latch i s)).Inv := by
  have f := commandEntry_frame i s (latch i s)
  obtain ⟨hidle, hok⟩ := phase_of_running_or_completed (entry_running_or_completed hs hc)
  refine ⟨?_, ?_, ?_, ?_, hidle, ?_, ?_, hok⟩
  · rw [f.store, commandEntry_cfg]
    exact h.storeLength
  · rw [f.cursor, commandEntry_cfg]
    exact h.cursorRange
  · rw [f.xmem]
    exact h.memoryForm
  · rw [f.xmem, commandEntry_cfg]
    exact h.memoryRange
  · rw [f.fault, f.fcause, f.errcmd, f.errinfo]
    exact h.errorRecord
  · rw [f.life, f.cursor]
    exact fun _ => h.uninitCursor hs.1

theorem commandEnds_inv {i : Instr} {s t : State} (h : s.Inv) (ht : CommandEnds i s t) : t.Inv := by
  cases ht with
  | busy _ => exact reject_inv h (by decide) _ _
  | rejected c hb hc =>
    rw [← reject_latch_eq]
    exact reject_inv (latch_inv h (h.idlePhase.1 hb) i) (commandChecks_cause hc) _ _
  | accepted k hb hc => exact microSteps_inv (commandEntry_inv h ⟨hb, h.idlePhase.1 hb⟩ hc) k

theorem rejectIllegal_inv {s : State} (h : s.Inv) (w : Lane) : (rejectIllegal w s).Inv := by
  unfold rejectIllegal
  split <;> exact reject_inv h (by decide) _ _

/-- The invariant says nothing of the host: its script, what it has read, and the operands it has written. -/
theorem hostFields_inv {s : State} (h : s.Inv) (ts : List Turn) (vs : List Lane) (x y : Lane) :
    ({ s with script := ts, readback := vs, a0 := x, a1 := y } : State).Inv :=
  ⟨h.storeLength, h.cursorRange, h.memoryForm, h.memoryRange, h.idlePhase, h.errorRecord, h.uninitCursor, h.phaseOk⟩

theorem writeOperandReg_inv {s : State} (h : s.Inv) (r : HostReg) (v : Lane) : (writeOperandReg r v s).Inv := by
  cases r
  case a0 => exact hostFields_inv h s.script s.readback v s.a1
  case a1 => exact hostFields_inv h s.script s.readback s.a0 v
  all_goals exact h

theorem xmemWrite_inv {s : State} (h : s.Inv) {a : Nat} (ha : a < s.cfg.xlanes) (v : Lane) :
    ({ s with xmem := s.xmem.writeLane a v } : State).Inv :=
  ⟨h.storeLength, h.cursorRange, writeLane_wf h.memoryForm a v, writeLane_within h.memoryRange ha v, h.idlePhase,
    h.errorRecord, h.uninitCursor, h.phaseOk⟩

/-- The values of R39 meet the invariant, for every configuration. -/
theorem init_inv (c : Config) : (State.init c).Inv where
  storeLength := List.length_replicate
  cursorRange := Nat.zero_le _
  memoryForm := ⟨.nil, by simp [State.init]⟩
  memoryRange := by simp [State.init]
  idlePhase := ⟨fun _ => rfl, fun _ => rfl⟩
  errorRecord := ⟨rfl, rfl, rfl⟩
  uninitCursor _ _ := rfl
  phaseOk := trivial

theorem resetCore_inv {s : State} (h : s.Inv) : (resetCore s).Inv :=
  have hi := init_inv s.cfg
  ⟨hi.storeLength, hi.cursorRange, h.memoryForm, h.memoryRange, hi.idlePhase, hi.errorRecord, hi.uninitCursor, hi.phaseOk⟩

theorem Move.inv {s t : State} (h : s.Inv) (m : Move s t) : t.Inv := by
  cases m with
  | stay => exact h
  | micro hb => exact microStep_inv h hb
  | exec he => exact commandEnds_inv h (exec_ends he)
  | accept i => exact commandEnds_inv h (acceptCommand_ends i s)
  | illegal w => exact rejectIllegal_inv h w
  | operand r v => exact writeOperandReg_inv h r v
  | read v => exact hostFields_inv h s.script (v :: s.readback) s.a0 s.a1
  | xmemWrite a v ha => exact xmemWrite_inv h ha v
  | reset => exact resetCore_inv h

/-- Settles O45: a step is one move from the state with its turn taken, and every kind of move keeps the invariant. -/
theorem stepKeepsInvariant : Obligations.StepKeepsInvariant := by
  intro s t h hst
  obtain ⟨ts, m⟩ := step_move hst
  exact m.inv (hostFields_inv h ts s.readback s.a0 s.a1)

/-- Settles O46: of the zeros after reset only their number is used. -/
theorem resetMeetsInvariant : Obligations.ResetMeetsInvariant :=
  ⟨init_inv Config.build, init_inv⟩

end Sys2Proof.Machine
end

section
/-!
SUPPORT. The host registers (spec/10_state.md R30 to R35): the core reads `A0` and `A1` in the accept step alone, `RESULT` is
written by a completion alone, and what the host reads and writes at each offset.
-/

namespace Sys2Proof.Machine

/-- The state with lifecycle `l` and the host's operands `x` and `y` in place of its own: the fields that no micro-step
reads. -/
def State.overlay (l : Life) (x y : Lane) (s : State) : State := { s with life := l, a0 := x, a1 := y }

/-- The lifecycle after one micro-step, from the lifecycle `l` before it. -/
def lifeAfter (s : State) (l : Life) : Life := if (microStep s).phase = .idle then s.phase.destination.getD l else l

theorem microStep_life (s : State) : (microStep s).life = lifeAfter s s.life := by
  have w := microStep_writes s
  unfold lifeAfter
  split
  · next h => exact (w.ends h).1
  · next h => exact (w.goesOn h).1

/-- A micro-step does the same whatever the lifecycle and the operands are. -/
theorem microStep_overlay (l : Life) (x y : Lane) (s : State) :
    microStep (s.overlay l x y) = (microStep s).overlay (lifeAfter s l) x y := by
  unfold lifeAfter microStep
  rw [show (s.overlay l x y).phase = s.phase from rfl]
  cases hp : s.phase
  case idle => simp [hp, Phase.destination]
  case certify => rfl
  case arrMix0 =>
    by_cases hk : 0 < s.a0l.toNat <;> simp [arrMix0Step, State.overlay, hk]
  case arrKey =>
    dsimp only [arrKeyStep, State.overlay]
    split
    · split <;> rfl
    · simp [hp]
  all_goals
    dsimp only [seedLoopStep, arrPatternStep, arrPadStep, arrWhitenStep, genStep, copybackStep, exportStep, importStep,
      compareStep, State.overlay]
    split <;> simp [hp, complete, fillOperand, Phase.destination]

theorem microSteps_operands (x y : Lane) (k : Nat) (s : State) :
    microSteps k (s.overlay s.life x y) = (microSteps k s).overlay (microSteps k s).life x y := by
  induction k generalizing s with
  | zero => rfl
  | succ k ih => rw [microSteps_succ, microSteps_succ, microStep_overlay, ← microStep_life, ih]

theorem commandEnds_operands {i : Instr} {s t : State} (h : CommandEnds i s t) : t.a0 = s.a0 ∧ t.a1 = s.a1 := by
  cases h with
  | busy _ => exact ⟨reject_a0 .., reject_a1 ..⟩
  | rejected c _ _ => exact ⟨rfl, rfl⟩
  | accepted k _ _ =>
    have f := microSteps_frame k (commandEntry i s (latch i s))
    have e := commandEntry_frame i s (latch i s)
    exact ⟨f.a0.trans e.a0, f.a1.trans e.a1⟩

/-- R76: on a core that runs no command the accept step loads the latches, also when it then rejects the command. -/
theorem acceptCommand_latches (i : Instr) {s : State} (h : s.busy = false) :
    (acceptCommand i s).a0l = s.a0 ∧ (acceptCommand i s).a1l = s.a1 ∧ (acceptCommand i s).opl = i.opcode := by
  have ha := acceptCommand_ends i s
  generalize acceptCommand i s = t at ha
  cases ha with
  | busy hb => simp [h] at hb
  | rejected c _ _ => exact ⟨rfl, rfl, rfl⟩
  | accepted k _ _ =>
    have f := microSteps_frame k (commandEntry i s (latch i s))
    have e := commandEntry_frame i s (latch i s)
    exact ⟨f.a0l.trans e.a0l, f.a1l.trans e.a1l, f.opl.trans e.opl⟩

/-- The step of a host write to a register. -/
theorem step_writeReg {s : State} {r : HostReg} {v : Lane} {rest : List Turn}
    (h : s.script = .host (.wr r.offset v) :: rest) : step s = .next (writeHostReg r v (s.withScript rest)) := by
  unfold step
  rw [h]
  cases r <;> rfl

/-- The step of a host read of a register. -/
theorem step_readReg {s : State} {r : HostReg} {rest : List Turn} (h : s.script = .host (.rd r.offset) :: rest) :
    step s = .next { s with script := rest, readback := readHostReg r s :: s.readback } := by
  unfold step
  rw [h]
  cases r <;> rfl

/-- Settles O7: the accept step is the only reader of `A0` and `A1`, and the host their only writer. -/
theorem operandRegistersBelongToHost : Obligations.OperandRegistersBelongToHost :=
  ⟨fun _ _ _ h => step_writeReg (r := .a0) h, fun _ _ _ h => step_writeReg (r := .a1) h,
    fun _ _ _ h => commandEnds_operands (exec_ends h), fun s => ⟨(microStep_frame s).a0, (microStep_frame s).a1⟩,
    fun i s => commandEnds_operands (acceptCommand_ends i s), fun i _ h => acceptCommand_latches i h,
    fun s x y k => microSteps_operands x y k s⟩

/-- What R133 says of the last loop micro-step of a seed command, from `s` to `t`. -/
structure EarlyCursor (s t : State) : Prop where
  cursor : t.cursor.toNat = s.cfg.n32
  busy : t.busy = s.busy
  life : t.life = s.life

theorem seedLoopStep_last {s : State} (h : s.idx.toNat + 1 = s.cfg.n32) : EarlyCursor s (seedLoopStep s) := by
  unfold seedLoopStep
  dsimp only
  rw [if_pos h]
  exact ⟨ofNat_n32_toNat s.cfg, rfl, rfl⟩

theorem arrWhitenStep_last {s : State} (h : s.jdx.toNat + 1 = s.cfg.n32) : EarlyCursor s (arrWhitenStep s) := by
  unfold arrWhitenStep
  dsimp only
  rw [if_pos h]
  exact ⟨ofNat_n32_toNat s.cfg, rfl, rfl⟩

/-- Settles O8: no register but `CMD`, `A0` and `A1` has a write of its own, and the cursor precedes certification. -/
theorem readOnlyRegistersIgnoreWrites : Obligations.ReadOnlyRegistersIgnoreWrites := by
  refine ⟨fun s r v rest hr h => ?_, fun s r rest h => step_readReg h,
    fun _ => ⟨rfl, rfl, rfl, rfl, rfl, rfl, rfl, rfl⟩, fun s hp hl => ?_, fun s hp hl => ?_⟩
  · rw [step_writeReg h]
    obtain rfl | rfl | rfl | rfl | rfl := hr <;> rfl
  · rw [show microStep s = seedLoopStep s by rw [microStep, hp]]
    obtain ⟨hc, hb, hlife⟩ := seedLoopStep_last hl
    exact ⟨hc, hb, hlife⟩
  · rw [show microStep s = arrWhitenStep s by rw [microStep, hp]]
    obtain ⟨hc, hb, hlife⟩ := arrWhitenStep_last hl
    exact ⟨hc, hb, hlife⟩

theorem microSteps_result {s : State} (h : s.phase ≠ .compare) (k : Nat) : (microSteps k s).result = s.result := by
  induction k generalizing s with
  | zero => rfl
  | succ k ih =>
    have w := microStep_writes s
    rw [microSteps_succ, ih (mt w.compare h)]
    exact w.result.resolve_right fun hc => h hc.1

/-- A command that returns no value neither writes `RESULT` in its accept step nor starts a comparison (R33). -/
theorem commandEntry_result {i : Instr}
    (hi : ¬ (i = .idlen ∨ i = .idbyte ∨ i = .minsz32 ∨ i = .minsz64 ∨ i = .cmpeq ∨ i = .cmpne)) (s u : State) :
    (commandEntry i s u).result = u.result ∧ (commandEntry i s u).phase ≠ .compare := by
  cases i
  case idlen | idbyte | minsz32 | minsz64 | cmpeq | cmpne => exact absurd (by decide) hi
  all_goals exact ⟨rfl, nofun⟩

/-- Settles O9: in every other phase than `COMPARE` a micro-step leaves `RESULT`, and no other phase leads to it. -/
theorem resultWriters : Obligations.ResultWriters := by
  refine ⟨fun i s t hs h hr => ?_, fun i s t hb h => ?_, fun s hr => ?_⟩
  · obtain ⟨c, -, -, rfl⟩ | ⟨-, hc, rfl⟩ := exec_outcome hs h
    · exact absurd rfl hr
    · refine ⟨hc.last, by_contra fun hi => hr ?_⟩
      obtain ⟨he, hp⟩ := commandEntry_result hi s (latch i s)
      exact (microSteps_result hp _).trans he
  · rw [(exec_busy hb).1] at h
    cases h
    exact reject_result ..
  · obtain ⟨hp, hc⟩ := (microStep_writes s).result.resolve_left hr
    exact ⟨hp, hc.busy⟩

/-- Settles O5: the register at offset 0x00 is `CMD`. -/
theorem cmdWriteIsAcceptStep : Obligations.CmdWriteIsAcceptStep := by
  refine ⟨fun s w i rest h hw => ?_, fun s rest h => step_readReg (r := .cmd) h⟩
  rw [step_writeReg (r := .cmd) h]
  show Host.Outcome.next (acceptWord w (s.withScript rest)) = _
  rw [acceptWord, hw]
  rfl

/-- R34: each field is found by dropping the fields below it and those above it. -/
theorem statusView_fields (s : State) :
    (statusView s).extractLsb' 0 1 = BitVec.ofBool s.busy ∧ (statusView s).extractLsb' 1 2 = lifeCode s.life ∧
    (statusView s).extractLsb' 3 1 = BitVec.ofBool s.fault ∧ (statusView s).extractLsb' 4 4 = causeCode s.fcause ∧
    (statusView s).extractLsb' 8 4 = causeCode s.last ∧ (statusView s).extractLsb' 12 4 = phaseCode s.phase ∧
    (statusView s).extractLsb' 16 16 = 0 := by
  unfold statusView
  refine ⟨?_, ?_, ?_, ?_, ?_, ?_, ?_⟩ <;>
    simp only [BitVec.extractLsb'_append_eq_of_le, BitVec.extractLsb'_append_eq_right, BitVec.extractLsb'_eq_self,
      Nat.reduceLeDiff, Nat.reduceSub, le_refl, Nat.sub_self]

/-- Settles O6: the fields of `statusView`, and what the invariant says of `FCAUSE` and `PHASE`. -/
theorem statusRegisterFields : Obligations.StatusRegisterFields := by
  intro s rest h
  obtain ⟨hb, hl, hf, hc, hlast, hp, h0⟩ := statusView_fields s
  refine ⟨statusView s, step_readReg (r := .status) h, hb, hl, hf, hc, hlast, hp, h0, fun hi => ⟨fun hf => ?_, fun hb => ?_⟩⟩
  · have he := hi.errorRecord
    simp only [hf, Bool.false_eq_true, if_false] at he
    rw [hc, he.1]
    rfl
  · rw [hp, hi.idlePhase.1 hb]
    rfl

end Sys2Proof.Machine
end

section
/-!
SUPPORT. The error record (spec/10_state.md R27): which steps leave it, and that a step that writes it is a first rejection.
-/

namespace Sys2Proof.Machine

/-- The four fields of the error record are as before. -/
def RecordKept (s t : State) : Prop :=
  t.fault = s.fault ∧ t.fcause = s.fcause ∧ t.errcmd = s.errcmd ∧ t.errinfo = s.errinfo

/-- The first rejection since reset. -/
def FirstRejection (s t : State) : Prop := s.fault = false ∧ t.fault = true ∧ t.last ≠ .ok ∧ t.fcause = t.last

/-- What anything but a reset does to the error record. -/
def RecordStep (s t : State) : Prop := RecordKept s t ∨ FirstRejection s t

theorem RecordStep.refl (s : State) : RecordStep s s := .inl ⟨rfl, rfl, rfl, rfl⟩

theorem microSteps_record (k : Nat) (s : State) : RecordKept s (microSteps k s) :=
  have f := microSteps_frame k s
  ⟨f.fault, f.fcause, f.errcmd, f.errinfo⟩

theorem reject_record {c : Cause} (hc : c ≠ .ok) (w v : Lane) (s : State) : RecordStep s (reject c w v s) := by
  cases hf : s.fault with
  | true => exact .inl ⟨by simp [hf], by simp [hf], by simp [hf], by simp [hf]⟩
  | false => exact .inr ⟨hf, reject_fault .., by simp [hc], by simp [hf]⟩

theorem commandEnds_record {i : Instr} {s t : State} (h : CommandEnds i s t) : RecordStep s t := by
  cases h with
  | busy _ => exact reject_record (by decide) _ _ s
  | rejected c _ hc =>
    rw [← reject_latch_eq]
    exact reject_record (commandChecks_cause hc) _ _ (latch i s)
  | accepted k _ _ =>
    have e := commandEntry_frame i s (latch i s)
    obtain ⟨h1, h2, h3, h4⟩ := microSteps_record k (commandEntry i s (latch i s))
    exact .inl ⟨h1.trans e.fault, h2.trans e.fcause, h3.trans e.errcmd, h4.trans e.errinfo⟩

theorem rejectIllegal_record (w : Lane) (s : State) : RecordStep s (rejectIllegal w s) := by
  unfold rejectIllegal
  split <;> exact reject_record (by decide) ..

theorem runWord_record {w : Lane} {s t : State} (h : runWord w s = .next t) : RecordStep s t := by
  unfold runWord at h
  split at h
  · exact commandEnds_record (exec_ends h)
  · cases h
    exact rejectIllegal_record w s

theorem writeHostReg_record (r : HostReg) (v : Lane) (s : State) : RecordStep s (writeHostReg r v s) := by
  cases r
  case cmd =>
    dsimp only [writeHostReg, acceptWord]
    split
    · exact commandEnds_record (acceptCommand_ends _ s)
    · exact rejectIllegal_record v s
  all_goals exact .refl s

theorem coreTurn_record (s : State) : RecordStep s (coreTurn s) := by
  unfold coreTurn
  split
  · exact .inl (microSteps_record 1 s)
  · exact .refl s

theorem waitTurn_record (rest : List Turn) (s : State) : RecordStep s (waitTurn rest s) := by
  unfold waitTurn
  split
  · exact .inl (microSteps_record 1 s)
  · exact .refl s

theorem hostEvent_record {e : HostEvent} {s t : State} (he : e ≠ .reset) (h : hostEvent e s = .next t) :
    RecordStep s t := by
  cases e <;> simp only [hostEvent] at h
  case wr off v =>
    split at h <;> cases h
    exact writeHostReg_record _ v s
  case rd off =>
    split at h <;> cases h
    exact .refl s
  case wait =>
    cases h
    exact .refl s
  case xwr a v =>
    split at h <;> cases h
    exact .refl s
  case xrd a =>
    split at h <;> cases h
    exact .refl s
  case reset => exact absurd rfl he

theorem step_record {s t : State} (h : step s = .next t) (hr : ∀ rest, s.script ≠ .host .reset :: rest) :
    RecordStep s t := by
  unfold step at h
  split at h
  · cases h
    exact coreTurn_record s
  · next rest _ =>
    cases h
    exact coreTurn_record (s.withScript rest)
  · next rest _ => exact runWord_record (s := s.withScript rest) h
  · cases h
    exact waitTurn_record _ s
  · next e rest _ hs =>
    refine hostEvent_record (s := s.withScript rest) ?_ h
    rintro rfl
    exact hr rest hs

/-- Settles O15: a step other than a reset keeps the error record or is a first rejection, which a core with `FAULT = 1`
does not make. -/
theorem firstRejectionIsSticky : Obligations.FirstRejectionIsSticky := by
  refine ⟨fun s t hf h hr => ?_, fun s t h hr hn => (step_record h hr).resolve_left hn, fun s rest h => ?_⟩
  · obtain ⟨h1, h2, h3, h4⟩ | ⟨hf', -⟩ := step_record h hr
    · exact ⟨h1.trans hf, h2, h3, h4⟩
    · rw [hf] at hf'
      cases hf'
  · refine ⟨resetCore (s.withScript rest), ?_, rfl, rfl, rfl, rfl⟩
    unfold step
    rw [h]
    rfl

end Sys2Proof.Machine
end

section
/-!
SUPPORT. The lifecycle (spec/10_state.md R26): the one a completed command leaves, and that nothing but the check `NOT_SEEDED`
reads it.
-/

namespace Sys2Proof.Machine

/-- The lifecycle a command sets when it completes, if it sets one (R26). -/
def Instr.destination : Instr → Option Life
  | .seed | .seedarr => some .seeded
  | .fill32 | .fill64 | .importImage => some .streaming
  | .idlen | .idbyte | .minsz32 | .minsz64 | .cmpeq | .cmpne | .exportImage => none

theorem microSteps_life {k : Nat} {s : State} (h : (microSteps k s).phase = .idle) :
    (microSteps k s).life = s.phase.destination.getD s.life := by
  induction k generalizing s with
  | zero =>
    rw [show s.phase = .idle from h]
    rfl
  | succ k ih =>
    have w := microStep_writes s
    rw [microSteps_succ] at h ⊢
    by_cases hp : (microStep s).phase = .idle
    · rw [microSteps_idle hp, (w.ends hp).1]
    · rw [ih h, (w.goesOn hp).1, (w.goesOn hp).2]

theorem commandEntry_destination (i : Instr) {s : State} (h : s.Idle) :
    (commandEntry i s (latch i s)).phase.destination = Instr.destination i := by
  cases i
  case idlen | idbyte | minsz32 | minsz64 => exact congrArg Phase.destination h.2
  all_goals rfl

/-- The lifecycle after an accepted command. -/
theorem accepted_life {i : Instr} {s : State} (h : s.Idle) (hc : ∀ c ∈ commandChecks i s, c.fails = false) :
    (microSteps (microCount i s) (commandEntry i s (latch i s))).life = (Instr.destination i).getD s.life := by
  rw [microSteps_life (entry_completes h hc).phase, commandEntry_destination i h, (commandEntry_frame i s _).life]
  rfl

/-- The commands that read the State Store: their first check is `NOT_SEEDED` (R26, R173). -/
def readsStore : Instr → Bool
  | .fill32 | .fill64 | .exportImage | .cmpeq | .cmpne => true
  | .idlen | .idbyte | .minsz32 | .minsz64 | .seed | .seedarr | .importImage => false

theorem commandChecks_readsStore {i : Instr} (hi : readsStore i = true) (s : State) :
    ∃ cs, commandChecks i s = checkSeeded s :: cs := by
  cases i
  case fill32 | fill64 | exportImage | cmpeq | cmpne => exact ⟨_, rfl⟩
  all_goals cases hi

theorem seeded_of_checks {i : Instr} {s : State} (hi : readsStore i = true)
    (hc : ∀ c ∈ commandChecks i s, c.fails = false) : s.life ≠ .uninit := by
  obtain ⟨cs, e⟩ := commandChecks_readsStore hi s
  exact of_decide_eq_false (hc (checkSeeded s) (by simp [e]))

theorem exec_unseeded {i : Instr} {s : State} (h : s.Idle) (hl : s.life = .uninit) (hi : readsStore i = true) :
    exec i s = .next (rejectedState .notSeeded i 0 s) := by
  obtain ⟨cs, e⟩ := commandChecks_readsStore hi s
  have hf : firstFailure (commandChecks i s) = some (checkSeeded s) := by
    rw [e, firstFailure_cons]
    exact if_pos (decide_eq_true hl)
  exact (exec_rejects h hf).1

/-- The state with lifecycle `l` in place of its own. -/
def State.withLife (l : Life) (s : State) : State := { s with life := l }

/-- On a seeded core no check looks at whether it is SEEDED or STREAMING. -/
theorem commandChecks_withLife (i : Instr) {s : State} {l : Life} (hs : s.life ≠ .uninit) (hl : l ≠ .uninit) :
    commandChecks i (s.withLife l) = commandChecks i s := by
  have e : checkSeeded (s.withLife l) = checkSeeded s := by simp [checkSeeded, State.withLife, hs, hl]
  cases i
  case fill32 | fill64 | exportImage | cmpeq | cmpne => exact congrArg (List.cons · _) e
  all_goals rfl

theorem commandEntry_withLife (i : Instr) (l : Life) (s : State) :
    commandEntry i (s.withLife l) (latch i (s.withLife l)) = (commandEntry i s (latch i s)).withLife l := by
  cases i <;> rfl

theorem microCount_withLife (i : Instr) (l : Life) (s : State) : microCount i (s.withLife l) = microCount i s := by
  cases i <;> rfl

theorem microStep_withLife (l : Life) (s : State) :
    microStep (s.withLife l) = (microStep s).withLife (lifeAfter s l) := by
  have f := microStep_frame s
  calc microStep (s.withLife l)
    _ = (microStep s).overlay (lifeAfter s l) s.a0 s.a1 := microStep_overlay l s.a0 s.a1 s
    _ = (microStep s).withLife (lifeAfter s l) := by rw [← f.a0, ← f.a1]; rfl

/-- The micro-steps do not look at the lifecycle. -/
theorem microSteps_withLife (l : Life) (k : Nat) (s : State) :
    ∃ m, microSteps k (s.withLife l) = (microSteps k s).withLife m := by
  induction k generalizing s l with
  | zero => exact ⟨l, rfl⟩
  | succ k ih =>
    rw [microSteps_succ, microSteps_succ, microStep_withLife]
    exact ih _ _

/-- R26: SEEDED and STREAMING differ in nothing but the field. -/
theorem exec_withLife {i : Instr} {s t : State} {l : Life} (h : s.Idle) (hs : s.life ≠ .uninit) (hl : l ≠ .uninit)
    (ht : exec i s = .next t) :
    exec i (s.withLife l) = .next (t.withLife (if t.last ≠ .ok then l else (Instr.destination i).getD l)) := by
  have h' : (s.withLife l).Idle := h
  have ec := commandChecks_withLife i hs hl
  cases hc : firstFailure (commandChecks i s) with
  | some c =>
    have hcause := commandChecks_cause (firstFailure_some hc).1
    rw [(exec_rejects h hc).1] at ht
    cases ht
    have hlast : (rejectedState c.cause i c.info s).last ≠ .ok := hcause
    rw [(exec_rejects h' (by rw [ec, hc])).1, if_pos hlast]
    rfl
  | none =>
    have hall := firstFailure_none.1 hc
    have hlife := accepted_life h' (by rw [ec]; exact hall)
    rw [(exec_enters h hc).1] at ht
    cases ht
    rw [(exec_enters h' (by rw [ec, hc])).1, if_neg (not_not.2 (entry_completes h hall).last)]
    rw [microCount_withLife, commandEntry_withLife] at hlife ⊢
    obtain ⟨m, e⟩ := microSteps_withLife l (microCount i s) (commandEntry i s (latch i s))
    rw [e] at hlife ⊢
    rw [show m = (Instr.destination i).getD l from hlife]

theorem microStep_life_completes {s : State} (h : (microStep s).life ≠ s.life) : (microStep s).busy = false := by
  have w := microStep_writes s
  by_cases hp : (microStep s).phase = .idle
  · obtain e | hc := (w.ends hp).2
    · exact absurd (congrArg State.life e) h
    · exact hc.busy
  · exact absurd (w.goesOn hp).1 h

/-- Settles O16: the phase of a running command fixes the lifecycle it ends in, which only the micro-step into `IDLE`
writes. -/
theorem lifeTransitions : Obligations.LifeTransitions := by
  refine ⟨fun i s t hs h => ?_, fun s => microStep_life_completes, fun i s => (acceptCommand_frame i s).life, fun _ => rfl,
    fun i s t hs hl h l hl' => ?_, fun i s hs hl hi => ?_⟩
  · obtain ⟨c, hc, -, rfl⟩ | ⟨hc, hdone, rfl⟩ := exec_outcome hs h
    · exact ⟨fun _ => rfl, fun hok => absurd hok (commandChecks_cause hc)⟩
    · have hlife := accepted_life hs hc
      refine ⟨fun hok => absurd hdone.last hok, fun _ => ⟨?_, ?_, ?_, ?_⟩⟩
      · rintro (rfl | rfl) <;> exact hlife
      · rintro (rfl | rfl) <;> exact ⟨seeded_of_checks rfl hc, hlife⟩
      · rintro rfl
        exact hlife
      · rintro (rfl | rfl | rfl | rfl | rfl | rfl | rfl) <;> exact hlife
  · have e := exec_withLife hs hl hl' h
    cases i <;> exact e
  · refine exec_unseeded hs hl ?_
    obtain rfl | rfl | rfl | rfl | rfl := hi <;> rfl

end Sys2Proof.Machine
end

section
/-!
SUPPORT. The host's script (spec/10_state.md R30, spec/20_memory.md R50): every step takes at most the first turn, and stops the
machine only where that turn names a place that does not exist.
-/

namespace Sys2Proof.Machine

theorem commandEnds_script {i : Instr} {s t : State} (h : CommandEnds i s t) : t.script = s.script := by
  cases h with
  | busy _ => exact reject_script ..
  | rejected c _ _ => rfl
  | accepted k _ _ => exact (microSteps_frame k _).script.trans (commandEntry_frame i s _).script

/-- No move writes the script; the step takes the turn before it moves. -/
theorem Move.script {s t : State} (h : Move s t) : t.script = s.script := by
  cases h with
  | micro _ => exact (microStep_frame s).script
  | exec h => exact commandEnds_script (exec_ends h)
  | accept i => exact (acceptCommand_frame i s).script
  | illegal w => exact (rejectIllegal_frame w s).script
  | operand r v => cases r <;> rfl
  | stay | read _ | xmemWrite _ _ _ | reset => rfl

/-- The script after a step is the script before it, with at most its first turn taken. -/
theorem step_script {s t : State} (h : step s = .next t) : t.script = s.script ∨ ∃ x, s.script = x :: t.script := by
  unfold step at h
  split at h
  · cases h
    exact .inl (coreTurn_move s).script
  · next rest hs =>
    cases h
    exact .inr ⟨.core, by rw [hs, (coreTurn_move _).script]⟩
  · next w rest hs => exact .inr ⟨.command w, by rw [hs, (runWord_move h).script]⟩
  · next rest hs =>
    cases h
    unfold waitTurn
    split
    · exact .inl (microStep_frame s).script
    · exact .inr ⟨.host .wait, hs⟩
  · next e rest _ hs => exact .inr ⟨.host e, by rw [hs, (hostEvent_move h).script]⟩

theorem step_keeps_wellFormed {s t : State} (hs : scriptWellFormed s.cfg s.script = true) (h : step s = .next t) :
    scriptWellFormed t.cfg t.script = true := by
  rw [configNeverChanges s t h]
  obtain e | ⟨x, e⟩ := step_script h
  · rwa [e]
  · rw [e] at hs
    exact (Bool.and_eq_true_iff.1 hs).2

theorem ofOffset_of_ok {off : Nat} (h : registerOffsetOk off = true) : ∃ r, HostReg.ofOffset off = some r := by
  simp only [registerOffsetOk, Bool.and_eq_true, beq_iff_eq, decide_eq_true_eq] at h
  obtain ⟨k, rfl⟩ := Nat.dvd_of_mod_eq_zero h.1
  have hk : k ≤ 7 := by omega
  interval_cases k <;> exact ⟨_, rfl⟩

theorem ofOffset_of_not_ok {off : Nat} (h : registerOffsetOk off = false) : HostReg.ofOffset off = none := by
  unfold HostReg.ofOffset
  split
  case h_9 => rfl
  all_goals cases h

theorem hostEvent_next {e : HostEvent} {s : State} (h : e.wellFormed s.cfg = true) : ∃ t, hostEvent e s = .next t := by
  cases e
  case wr off v =>
    obtain ⟨r, hr⟩ := ofOffset_of_ok h
    exact ⟨_, by rw [hostEvent, hr]⟩
  case rd off =>
    obtain ⟨r, hr⟩ := ofOffset_of_ok h
    exact ⟨_, by rw [hostEvent, hr]⟩
  case wait | reset => exact ⟨_, rfl⟩
  case xwr a v => exact ⟨_, if_pos (of_decide_eq_true h)⟩
  case xrd a => exact ⟨_, if_pos (of_decide_eq_true h)⟩

theorem runWord_next (w : Lane) (s : State) : ∃ t, runWord w s = .next t := by
  unfold runWord
  split
  · exact ⟨_, exec_eq _ s⟩
  · exact ⟨_, rfl⟩

theorem step_next {s : State} (h : scriptWellFormed s.cfg s.script = true) : ∃ t, step s = .next t := by
  unfold step
  split
  · exact ⟨_, rfl⟩
  · exact ⟨_, rfl⟩
  · exact runWord_next _ _
  · exact ⟨_, rfl⟩
  · next e rest _ hs =>
    rw [hs] at h
    exact hostEvent_next (s := s.withScript rest) (Bool.and_eq_true_iff.1 h).1

/-- A host event other than `WAIT` is over in one step. -/
theorem step_host {s : State} {e : HostEvent} {rest : List Turn} (h : s.script = .host e :: rest) (he : e ≠ .wait) :
    step s = hostEvent e (s.withScript rest) := by
  unfold step
  rw [h]
  cases e
  case wait => exact absurd rfl he
  all_goals rfl

/-- Settles O52: a host access to a place that does not exist is the only turn without a next state, and a step takes at
most the first turn. -/
theorem wellFormedScriptNeverStops : Obligations.WellFormedScriptNeverStops := by
  refine ⟨fun s h => ?_, fun s off v rest hoff => ?_, fun s a v rest ha => ?_⟩
  · obtain ⟨t, ht⟩ := step_next h
    exact ⟨t, ht, step_keeps_wellFormed h ht⟩
  · have hr := ofOffset_of_not_ok hoff
    exact ⟨fun h => by rw [step_host h nofun, hostEvent, hr], fun h => by rw [step_host h nofun, hostEvent, hr]⟩
  · have hn : ¬ a < s.cfg.xlanes := not_lt.2 ha
    exact ⟨fun h => (step_host h nofun).trans (if_neg hn), fun h => (step_host h nofun).trans (if_neg hn)⟩

end Sys2Proof.Machine
end

section
/-!
SUPPORT. The State Store bit by bit (spec/10_state.md R21, R22), and who writes the generator state and XMEM (R24).
-/

namespace Sys2Proof.Machine

/-- Bit `b` of a word is bit `b mod 32` of lane `b div 32` (R13). -/
theorem getLsbD_eq_wordLane (w : Word) {b : Nat} (hb : b < 128) :
    w.getLsbD b = (wordLane w (Fin.ofNat 4 (b / 32))).getLsbD (b % 32) := by
  have hlt : b % 32 < 32 := Nat.mod_lt _ (by decide)
  have hj : (Fin.ofNat 4 (b / 32)).val = b / 32 := Nat.mod_eq_of_lt (by omega)
  rw [getLsbD_wordLane, hj, Nat.div_add_mod]
  simp [hlt]

/-- R22 bit by bit. -/
theorem getLsbD_setWordLane (w : Word) (j : Fin 4) (v : Lane) {b : Nat} (hb : b < 128) :
    (setWordLane w j v).getLsbD b = if b / 32 = j.val then v.getLsbD (b % 32) else w.getLsbD b := by
  have hj : j = Fin.ofNat 4 (b / 32) ↔ b / 32 = j.val := by
    rw [Fin.ext_iff, Fin.val_ofNat, Nat.mod_eq_of_lt (by omega : b / 32 < 4)]
    exact eq_comm
  rw [getLsbD_eq_wordLane _ hb, getLsbD_eq_wordLane w hb, wordLane_setWordLane]
  simp only [hj]
  split <;> rfl

theorem getLsbD_setStoreLane (S : List Word) (L : Nat) (v : Lane) (hL : L / 4 < S.length) (k : Nat) {b : Nat}
    (hb : b < 128) :
    (storeWord (setStoreLane S L v) k).getLsbD b =
      if k = L / 4 ∧ b / 32 = L % 4 then v.getLsbD (b % 32) else (storeWord S k).getLsbD b := by
  unfold setStoreLane
  rw [storeWord_set S _ k _ hL]
  by_cases hk : L / 4 = k
  · subst hk
    rw [if_pos rfl, getLsbD_setWordLane _ _ _ hb]
    simp
  · rw [if_neg hk, if_neg fun h => hk h.1.symm]

theorem storeLane_set (S : List Word) {k : Nat} (L : Nat) (w : Word) (hk : k < S.length) :
    storeLane (S.set k w) L = if L / 4 = k then wordLane w (Fin.ofNat 4 L) else storeLane S L := by
  unfold storeLane
  rw [storeWord_set S k _ w hk, apply_ite (wordLane · (Fin.ofNat 4 L))]
  simp only [eq_comm]

/-- Settles O54: both views are read through the word that a write replaces. -/
theorem storeHasTwoViews : Obligations.StoreHasTwoViews := by
  refine ⟨fun S L v hL => ?_, fun S k L w hk => storeLane_set S L w hk, fun S k => storeWord_eq_lanes S k⟩
  have hL4 : L / 4 < S.length := by omega
  refine ⟨?_, fun k _ b hb => getLsbD_setStoreLane S L v hL4 k hb⟩
  rw [storeLane_setStoreLane S L L v hL4, if_pos rfl]

theorem acceptWord_frame (w : Lane) (s : State) : AcceptFrame s (acceptWord w s) := by
  unfold acceptWord
  split
  · exact acceptCommand_frame _ s
  · exact rejectIllegal_frame w s

theorem writeHostReg_generator (r : HostReg) (v : Lane) (s : State) :
    (writeHostReg r v s).store = s.store ∧ (writeHostReg r v s).cursor = s.cursor ∧ (writeHostReg r v s).life = s.life := by
  cases r
  case cmd =>
    have f := acceptWord_frame v s
    exact ⟨f.store, f.cursor, f.life⟩
  all_goals exact ⟨rfl, rfl, rfl⟩

/-- R24, R76: of the host events a reset alone writes the generator state. -/
theorem hostEvent_generator {e : HostEvent} {s t : State} (he : e ≠ .reset) (h : hostEvent e s = .next t) :
    t.store = s.store ∧ t.cursor = s.cursor ∧ t.life = s.life := by
  cases e <;> simp only [hostEvent] at h
  case wr off v =>
    split at h <;> cases h
    exact writeHostReg_generator _ v s
  case reset => exact absurd rfl he
  case wait =>
    cases h
    exact ⟨rfl, rfl, rfl⟩
  all_goals
    split at h <;> cases h
    exact ⟨rfl, rfl, rfl⟩

/-- Settles O55: what each host event, each micro-step and each accept step writes. -/
theorem generatorStateWriters : Obligations.GeneratorStateWriters := by
  refine ⟨fun s t e rest hs hr hw h => ?_, fun s hp => (microStep_writes s).store hp, fun s hg hx => ?_, fun i s => ?_⟩
  · rw [step_host hs hw] at h
    exact hostEvent_generator (s := s.withScript rest) hr h
  · exact (microStep_writes s).xmem.resolve_right fun h => h.1.elim hg hx
  · have f := acceptCommand_frame i s
    exact ⟨f.store, f.cursor, f.xmem⟩

end Sys2Proof.Machine
end

section
/-!
SUPPORT. XMEM as the host sees it, byte by byte and lane by lane (spec/20_memory.md R51, R52, R58), and the idle core as the
one synchronisation point (R62).
-/

namespace Sys2Proof.Machine

open BitVec in
/-- R52: byte `b` of a lane that is read stands at byte address `4 * a + b`. -/
theorem extractLsb'_readLane (m : Memory) (a : Nat) {b : Nat} (hb : b < 4) :
    (m.readLane a).extractLsb' (8 * b) 8 = m.readByte (4 * a + b) := by
  unfold Memory.readLane
  match b, hb with
  | 0, _ =>
    rw [extractLsb'_append_eq_of_add_le (by decide)]
    exact extractLsb'_eq_self
  | 1, _ =>
    rw [extractLsb'_append_eq_of_le (by decide), extractLsb'_append_eq_of_add_le (by decide)]
    exact extractLsb'_eq_self
  | 2, _ =>
    rw [extractLsb'_append_eq_of_le (by decide), extractLsb'_append_eq_of_le (by decide),
      extractLsb'_append_eq_of_add_le (by decide)]
    exact extractLsb'_eq_self
  | 3, _ =>
    rw [extractLsb'_append_eq_of_le (by decide), extractLsb'_append_eq_of_le (by decide),
      extractLsb'_append_eq_of_le (by decide)]
    exact extractLsb'_eq_self

/-- R52, R58 for bytes: a lane that is written stands in XMEM little-endian. -/
theorem readByte_writeLane_same {m : Memory} (h : m.wf) (a : Nat) (v : Lane) {b : Nat} (hb : b < 4) :
    (m.writeLane a v).readByte (4 * a + b) = v.extractLsb' (8 * b) 8 := by
  rw [← extractLsb'_readLane _ a hb, readLane_writeLane_same h]

/-- The step of a host write of a lane that exists. -/
theorem step_writeLane {s : State} {a : Nat} {v : Lane} {rest : List Turn} (h : s.script = .host (.xwr a v) :: rest)
    (ha : a < s.cfg.xlanes) : step s = .next { s with script := rest, xmem := s.xmem.writeLane a v } :=
  (step_host h nofun).trans (if_pos ha)

/-- The step of a host read of a lane that exists. -/
theorem step_readLane {s : State} {a : Nat} {rest : List Turn} (h : s.script = .host (.xrd a) :: rest)
    (ha : a < s.cfg.xlanes) : step s = .next { s with script := rest, readback := s.xmem.readLane a :: s.readback } :=
  (step_host h nofun).trans (if_pos ha)

/-- Settles O53: the two turns are the write and the read of one lane, and the bytes and the lanes of what was written read
back as they are. -/
theorem xmemReadsLastWrite : Obligations.XmemReadsLastWrite := by
  refine ⟨fun s a v rest hwf ha hs => ?_, fun m a w hwf => ⟨readLane_writeWord hwf a w, wordLane_readWord m a⟩⟩
  have write := step_writeLane hs ha
  have read := step_readLane (s := { s with script := .host (.xrd a) :: rest, xmem := s.xmem.writeLane a v }) rfl ha
  rw [readLane_writeLane_same hwf] at read
  exact ⟨_, _, write, read, rfl, rfl, rfl, writeLane_wf hwf a v, fun b hb => readByte_writeLane_same hwf a v hb,
    fun b hb => readByte_writeLane_ne v hb⟩

theorem exec_idle {i : Instr} {s t : State} (h : s.Idle) (ht : exec i s = .next t) : t.Idle := by
  obtain ⟨c, -, -, rfl⟩ | ⟨-, completed, -⟩ := exec_outcome h ht
  · exact h
  · exact ⟨completed.busy, completed.phase⟩

theorem coreTurn_idle {s : State} (h : s.Idle) : coreTurn s = s :=
  (coreTurn_eq_microStep (.inr h)).trans (microStep_idle h.2)

/-- Settles O56: a rejection leaves the idle core idle and a completion step makes it so, and a turn of an idle core is
empty. -/
theorem idleCoreWaits : Obligations.IdleCoreWaits := by
  refine ⟨fun i s t h ht => exec_idle h ht, fun s h hs => ?_, fun s rest h hs => ?_⟩
  · unfold step
    rw [hs]
    exact congrArg _ (coreTurn_idle h)
  · unfold step
    rw [hs]
    exact congrArg _ (coreTurn_idle (s := s.withScript rest) h)

end Sys2Proof.Machine
end

section
/-!
SUPPORT. Command words (spec/30_encoding.md R70 to R76): `decode` and `encode` are inverse to each other, the words without a
command are the illegal ones of R75, and what a command word does to the core at either level.
-/

namespace Sys2Proof.Machine

/-! ### Decoding and encoding -/

/-- R70: a word is its two fields put together again. -/
theorem toBits_ofBits (w : Lane) : (CommandWord.ofBits w).toBits = w :=
  (BitVec.extractLsb'_append_extractLsb'_eq_extractLsb' rfl).trans BitVec.extractLsb'_eq_self

/-- R74: the opcode map read in both directions. -/
theorem decodeOp_eq_some {op : BitVec 4} {i : Instr} : decodeOp op = some i ↔ op = i.opcode := by
  cases i <;> revert op <;> decide

/-- R75: the unassigned opcodes. -/
theorem decodeOp_eq_none {op : BitVec 4} : decodeOp op = none ↔ op = 0 ∨ op = 13 ∨ op = 14 ∨ op = 15 := by
  revert op
  decide

/-- R71: a word decodes to a command exactly when it is the encoding of it. -/
theorem decode_eq_ok {w : Lane} {i : Instr} : decode w = .ok i ↔ w = encode i := by
  refine ⟨fun h => ?_, fun h => h ▸ decode_encode i⟩
  unfold decode at h
  split at h
  · next hrsv =>
    split at h <;> cases h
    next hop =>
    calc w
      _ = CommandWord.toBits ⟨(CommandWord.ofBits w).op, (CommandWord.ofBits w).rsv⟩ := (toBits_ofBits w).symm
      _ = encode i := by rw [decodeOp_eq_some.1 hop, hrsv, encode]
  · cases h

/-- R75: a reserved bit is set, or the opcode is unassigned. -/
def IllegalWord (w : Lane) : Prop :=
  (CommandWord.ofBits w).rsv ≠ 0 ∨ (CommandWord.ofBits w).op = 0 ∨ (CommandWord.ofBits w).op = 13 ∨
    (CommandWord.ofBits w).op = 14 ∨ (CommandWord.ofBits w).op = 15

/-- R71, R75: no word is refused but the illegal ones. -/
theorem decode_eq_error {w : Lane} : (∃ e, decode w = .error e) ↔ IllegalWord w := by
  unfold IllegalWord decode
  rw [← decodeOp_eq_none]
  by_cases hrsv : (CommandWord.ofBits w).rsv = 0
  · rw [if_pos hrsv]
    cases decodeOp (CommandWord.ofBits w).op <;> simp [hrsv]
  · rw [if_neg hrsv]
    exact ⟨fun _ => .inl hrsv, fun _ => ⟨_, rfl⟩⟩

/-- Settles O2: a word is its two fields, and the opcode map and its inverse are compared on the 16 opcodes. -/
theorem decodeInvertsEncode : Obligations.DecodeInvertsEncode :=
  ⟨decode_encode, fun _ _ => decode_eq_ok.1, fun _ => decode_eq_error⟩

/-- Settles O1, word by word. -/
theorem commandWordsDecode : Obligations.CommandWordsDecode := by
  unfold Obligations.CommandWordsDecode
  decide

/-! ### A command word given to the core -/

/-- R76: the word is issued at the command level or written to `CMD`, and the turns `rest` follow. -/
def IssuesWord (s : State) (w : Lane) (rest : List Turn) : Prop :=
  s.script = .command w :: rest ∨ s.script = .host (.wr 0x00 w) :: rest

theorem step_command {s : State} {w : Lane} {rest : List Turn} (h : s.script = .command w :: rest) :
    step s = runWord w (s.withScript rest) := by
  unfold step
  rw [h]
  rfl

theorem step_writeCmd {s : State} {w : Lane} {rest : List Turn} (h : s.script = .host (.wr 0x00 w) :: rest) :
    step s = .next (acceptWord w (s.withScript rest)) :=
  step_writeReg (r := .cmd) h

/-- A word to which both levels answer alike has that answer as its step. -/
theorem step_issuesWord {s t : State} {w : Lane} {rest : List Turn} (h : IssuesWord s w rest)
    (hrun : runWord w (s.withScript rest) = .next t) (haccept : acceptWord w (s.withScript rest) = t) :
    step s = .next t := by
  obtain h | h := h
  · rw [step_command h, hrun]
  · rw [step_writeCmd h, haccept]

theorem runWord_ok {w : Lane} {i : Instr} (h : decode w = .ok i) (s : State) : runWord w s = exec i s := by
  rw [runWord, h]

theorem acceptWord_ok {w : Lane} {i : Instr} (h : decode w = .ok i) (s : State) : acceptWord w s = acceptCommand i s := by
  rw [acceptWord, h]

/-- An illegal word is rejected as such at both levels. -/
theorem step_illegalWord {s : State} {w : Lane} {rest : List Turn} (hw : IllegalWord w) (h : IssuesWord s w rest) :
    step s = .next (rejectIllegal w (s.withScript rest)) := by
  obtain ⟨e, he⟩ := decode_eq_error.2 hw
  exact step_issuesWord h (by rw [runWord, he]) (by rw [acceptWord, he])

/-- A rejection that records the word twice, in the terms of claims. -/
theorem reject_eq_unlatchedRejection (c : Cause) (w : Lane) (s : State) : reject c w w s = unlatchedRejection c w s :=
  reject_eq c w w s

theorem rejectIllegal_idle {s : State} (h : s.busy = false) (w : Lane) :
    rejectIllegal w s = unlatchedRejection .illegalCmd w s := by
  rw [rejectIllegal, h, if_neg Bool.false_ne_true, reject_eq_unlatchedRejection]

theorem rejectIllegal_busy {s : State} (h : s.busy = true) (w : Lane) :
    rejectIllegal w s = unlatchedRejection .busy w s := by
  rw [rejectIllegal, if_pos h, reject_eq_unlatchedRejection]

/-- Settles O3: an illegal word does not decode, and its rejection on a core that runs no command is `ILLEGAL_CMD`. -/
theorem illegalWordIsRejected : Obligations.IllegalWordIsRejected := by
  intro s w rest hw hb h
  rw [step_illegalWord hw h, rejectIllegal_idle (s := s.withScript rest) hb]
  rfl

/-- R76, R172: a running core answers a command with the same `BUSY` rejection at both levels. -/
theorem command_busy {s : State} (hb : s.busy = true) (i : Instr) :
    exec i s = .next (unlatchedRejection .busy (encode i) s) ∧
      acceptCommand i s = unlatchedRejection .busy (encode i) s := by
  rw [← reject_eq_unlatchedRejection]
  exact exec_busy hb

/-- Settles O10: a word is the encoding of a command or illegal, and `BUSY` comes before every other check of both. -/
theorem busyRejectsEveryCommand : Obligations.BusyRejectsEveryCommand := by
  refine fun s hb => ⟨command_busy hb, fun w rest h => ?_⟩
  cases hw : decode w with
  | ok i =>
    obtain ⟨hexec, haccept⟩ := command_busy (s := s.withScript rest) hb i
    obtain rfl := decode_eq_ok.1 hw
    exact step_issuesWord h ((runWord_ok hw _).trans hexec) ((acceptWord_ok hw _).trans haccept)
  | error e =>
    rw [step_illegalWord (decode_eq_error.1 ⟨e, hw⟩) h, rejectIllegal_busy (s := s.withScript rest) hb]
    rfl

/-- Settles O4: `withFetchWord` puts the word of the command, which fits in 32 bits, in front of the script. -/
theorem stepRunsDecodedCommand : Obligations.StepRunsDecodedCommand := by
  refine ⟨fun s w i rest h hw => (step_command h).trans (runWord_ok hw _), fun s i => ?_⟩
  have hword : BitVec.ofNat 32 ((encode i).toNat % 2 ^ 32) = encode i := by
    rw [Nat.mod_eq_of_lt (encode i).isLt, BitVec.ofNat_toNat, BitVec.setWidth_eq]
  exact (step_command (by rw [State.withFetchWord, hword])).trans (runWord_ok (decode_encode i) _)

end Sys2Proof.Machine
end

section
/-!
SUPPORT. Completion of a running command (spec/30_encoding.md R77, R80; spec/70_reset_and_hazards.md R202): a bound on its
micro-steps, and `WAIT`, which lasts exactly as long as they do.
-/

namespace Sys2Proof.Machine

/-- The bound comes from the 32-bit registers and the range of `N` alone. -/
theorem remaining_le (s : State) : remaining s ≤ 2 ^ 34 := by
  have hn := n_lt s.cfg
  have hn32 := n32_lt s.cfg
  have hcnt := s.cnt.isLt
  have hseed : seedCount s.cfg s.a0l.toNat < 2 ^ 32 := (seedCount_bounds s.cfg s.a0l.isLt).2.2.2
  unfold remaining
  split <;> omega

/-- Settles O51: a running command completes after its remaining micro-steps. -/
theorem runningCommandCompletes : Obligations.RunningCommandCompletes := by
  intro s h hb
  obtain ⟨hdone, -⟩ := running_completes (h.running hb)
  exact ⟨remaining s, remaining_le s, hdone.busy, hdone.phase, hdone.last⟩

/-- R80: `WAIT` polls a running command by one micro-step and stays; on an idle core it is over. -/
theorem step_wait_running (rest : List Turn) {s : State} (h : s.busy = true) :
    step (s.withScript (.host .wait :: rest)) = .next ((microStep s).withScript (.host .wait :: rest)) := by
  rw [← microStep_withScript]
  exact congrArg _ (if_pos h)

theorem step_wait_idle (rest : List Turn) {s : State} (h : s.busy = false) :
    step (s.withScript (.host .wait :: rest)) = .next (s.withScript rest) := by
  have hb : ¬ (s.withScript (.host .wait :: rest)).busy = true := by simp [State.withScript, h]
  exact congrArg _ (if_neg hb)

theorem remaining_withScript (ts : List Turn) (s : State) : remaining (s.withScript ts) = remaining s := rfl

/-- `WAIT` ends after the micro-steps that the running command still takes. -/
theorem runSteps_wait (rest : List Turn) {s : State} (h : s.Settled) :
    runSteps (remaining s + 1) (s.withScript (.host .wait :: rest)) =
      .next ((microSteps (remaining s) s).withScript rest) := by
  generalize hr : remaining s = r
  induction r generalizing s with
  | zero =>
    obtain hrun | hidle := h
    · exact absurd hr (remaining_pos hrun).ne'
    · exact runSteps_succ (step_wait_idle rest hidle.1)
  | succ r ih =>
    obtain hrun | hidle := h
    · have hr' : remaining (microStep s) = r := by
        have := (microStep_progress hrun).1
        omega
      rw [runSteps_succ (step_wait_running rest hrun.busy), microSteps_succ, ih (microStep_settled (.inl hrun)) hr']
    · rw [remaining_completed hidle.2] at hr
      cases hr

/-- R202: the micro-steps that remain after the accept step are those of the command level. -/
theorem exec_remaining {i : Instr} {s : State} (h : s.Idle) :
    exec i s = .next (microSteps (remaining (acceptCommand i s)) (acceptCommand i s)) := by
  obtain ⟨c, -, -, he, ha⟩ | ⟨hc, he, ha⟩ := exec_cases i h <;> rw [he, ha]
  · rw [remaining_completed (s := rejectedState c.cause i c.info s) h.2, microSteps_zero]
  · have hrun := entry_running h hc
    split at hrun
    · rw [hrun.2, remaining_completed hrun.1.phase]
    · rw [hrun.2]

/-- Settles O49: the write to `CMD` is the accept step, and `WAIT` lets the core take the micro-steps that remain. -/
theorem issueAndWaitReachesCommandLevel : Obligations.IssueAndWaitReachesCommandLevel := by
  intro s i rest h hscript
  have h' : (s.withScript rest).Idle := h
  have command := exec_remaining (i := i) h'
  refine ⟨_, remaining (acceptCommand i s) + 2, command, (exec_idle h' command).1, ?_⟩
  have hscript' : s.script = .host (.wr 0x00 (encode i)) :: .host .wait :: rest := hscript
  rw [runSteps_succ (step_writeCommand hscript'), acceptCommand_withScript, runSteps_wait rest (acceptCommand_settled i h),
    acceptCommand_withScript, remaining_withScript, microSteps_withScript]

end Sys2Proof.Machine
end

section
/-!
SUPPORT. The Recursion Engine (spec/40_recursion.md R90 to R97): `REC` lane by lane, its linearity over GF(2), and the recurrence
that defines the stream of a State Store.
-/

namespace Sys2Proof.Machine

/-! ### The byte shifts -/

/-- R91: the bits that leave the word at its more significant end are lost. -/
theorem lshift128_toNat (w : Word) (k : Nat) : (lshift128 w k).toNat = w.toNat * 2 ^ (8 * k) % 2 ^ 128 := by
  rw [lshift128, BitVec.toNat_shiftLeft, Nat.shiftLeft_eq]

/-- R92: the bits that leave the word at its less significant end are lost. -/
theorem rshift128_toNat (w : Word) (k : Nat) : (rshift128 w k).toNat = w.toNat / 2 ^ (8 * k) := by
  rw [rshift128, BitVec.toNat_ushiftRight, Nat.shiftRight_eq_div_pow]

theorem lshift128_zero (k : Nat) : lshift128 0 k = 0 := BitVec.zero_shiftLeft _

theorem rshift128_zero (k : Nat) : rshift128 0 k = 0 := BitVec.zero_ushiftRight

theorem lshift128_xor (v w : Word) (k : Nat) : lshift128 (v ^^^ w) k = lshift128 v k ^^^ lshift128 w k :=
  BitVec.shiftLeft_xor_distrib v w (8 * k)

theorem rshift128_xor (v w : Word) (k : Nat) : rshift128 (v ^^^ w) k = rshift128 v k ^^^ rshift128 w k :=
  BitVec.ushiftRight_xor_distrib v w (8 * k)

/-- Settles O20: `<<<` and `>>>` on the number that the word is. -/
theorem byteShiftsAreArithmetic : Obligations.ByteShiftsAreArithmetic :=
  ⟨fun w k _ => lshift128_toNat w k, fun w k _ => rshift128_toNat w k, by decide, by decide⟩

/-! ### `REC` lane by lane -/

/-- R90: the lanes of `REC`, one by one. -/
theorem wordLane_sfmtRec (c : Config) (a b cw d : Word) (j : Fin 4) :
    wordLane (sfmtRec c a b cw d) j = recLane c a b cw d j := by
  unfold sfmtRec
  match j with
  | 0 => exact wordLane_wordOfLanes_zero ..
  | 1 => exact wordLane_wordOfLanes_one ..
  | 2 => exact wordLane_wordOfLanes_two ..
  | 3 => exact wordLane_wordOfLanes_three ..

theorem recLane_zero (c : Config) (j : Fin 4) : recLane c 0 0 0 0 j = 0 := by
  rw [recLane, lshift128_zero, rshift128_zero, wordLane_zero]
  simp

/-- A mask distributes over XOR. -/
theorem xor_and_distrib {w : Nat} (x y m : BitVec w) : (x ^^^ y) &&& m = (x &&& m) ^^^ (y &&& m) :=
  BitVec.eq_of_toNat_eq Nat.and_xor_distrib_right

/-- Each of the five terms T0 to T4 of R93 is linear in its operand, so their XOR is. -/
theorem recLane_xor (c : Config) (a a' b b' cw cw' d d' : Word) (j : Fin 4) :
    recLane c (a ^^^ a') (b ^^^ b') (cw ^^^ cw') (d ^^^ d') j = recLane c a b cw d j ^^^ recLane c a' b' cw' d' j := by
  have t2 : ((wordLane b j ^^^ wordLane b' j) >>> c.sr1) &&& c.msk[j] =
      ((wordLane b j >>> c.sr1) &&& c.msk[j]) ^^^ ((wordLane b' j >>> c.sr1) &&& c.msk[j]) := by
    rw [BitVec.ushiftRight_xor_distrib, xor_and_distrib]
  have t4 : (wordLane d j ^^^ wordLane d' j) <<< c.sl1 = (wordLane d j <<< c.sl1) ^^^ (wordLane d' j <<< c.sl1) :=
    BitVec.shiftLeft_xor_distrib ..
  simp only [recLane, lshift128_xor, rshift128_xor, wordLane_xor, t2, t4]
  ac_rfl

/-- Settles O21: the first clause is `recLane` itself, and four zero words give zero in every lane. -/
theorem recursionLaneFormula : Obligations.RecursionLaneFormula := by
  refine ⟨wordLane_sfmtRec, fun c => word_ext fun j => ?_, by decide⟩
  rw [wordLane_sfmtRec, recLane_zero, wordLane_zero]

/-- Settles O22, lane by lane. -/
theorem recursionIsLinear : Obligations.RecursionIsLinear := by
  intro c a a' b b' cw cw' d d'
  apply word_ext
  intro j
  rw [wordLane_xor, wordLane_sfmtRec, wordLane_sfmtRec, wordLane_sfmtRec, recLane_xor]

/-! ### The stream -/

/-- The stream begins with the State Store. -/
theorem streamWord_eq_storeWord {c : Config} {S : List Word} (hl : S.length = c.n) {j : Nat} (hj : j < c.n) :
    streamWord c S j = storeWord S j :=
  (streamUpTo_getD hl (k := 0) hj).symm

/-- Settles O23: word `j` is word `N + i` for `i = j - N`. -/
theorem streamRecurrence : Obligations.StreamRecurrence := by
  intro c S hl
  refine ⟨fun j hj => streamWord_eq_storeWord hl hj, fun j hj => ?_⟩
  obtain ⟨i, rfl⟩ := Nat.exists_eq_add_of_le hj
  rw [Nat.add_sub_cancel_left]
  exact streamWord_next hl i

end Sys2Proof.Machine
end

section
/-!
SUPPORT. The preconditions of FILL32 and FILL64 (spec/60_exceptions.md R173, R174): the two commands make the same five checks,
but for their count and the length of their region.
-/

namespace Sys2Proof.Machine

/-- A check that fails after those of `pre` have passed is the one reported (R173). -/
theorem exec_firstFailure {i : Instr} {s : State} {pre post : List Check} {c : Check} (h : s.Idle)
    (e : commandChecks i s = pre ++ c :: post) (hpre : ∀ d ∈ pre, d.fails = false) (hc : c.fails = true) :
    exec i s = .next (rejectedState c.cause i c.info s) :=
  (exec_rejects h (List.find?_eq_some_iff_append.2 ⟨hc, pre, post, e, fun d hd => by rw [hpre d hd]; rfl⟩)).1

/-- The checks that FILL32 and FILL64 share, around the check `count` of `A0`, for a region of `len` lanes. -/
def fillChecks (count : Check) (len : Nat) (s : State) : List Check :=
  [checkSeeded s, checkExhausted s, count, checkAligned s, checkRange len s]

theorem commandChecks_fill32 (s : State) : commandChecks .fill32 s = fillChecks (checkCount32 s) s.a0.toNat s := rfl

theorem commandChecks_fill64 (s : State) : commandChecks .fill64 s = fillChecks (checkCount64 s) (2 * s.a0.toNat) s := rfl

/-! ### When each check passes -/

theorem checkSeeded_passes {s : State} : (checkSeeded s).fails = false ↔ s.life ≠ .uninit := decide_eq_false_iff_not

theorem checkExhausted_passes {s : State} : (checkExhausted s).fails = false ↔ s.cursor.toNat = s.cfg.n32 :=
  decide_eq_false_iff_not.trans not_not

theorem checkCount32_passes {s : State} :
    (checkCount32 s).fails = false ↔ s.a0.toNat % 4 = 0 ∧ s.cfg.n32 ≤ s.a0.toNat :=
  decide_eq_false_iff_not.trans (by omega)

theorem checkCount64_passes {s : State} :
    (checkCount64 s).fails = false ↔ s.a0.toNat % 2 = 0 ∧ s.cfg.n64 ≤ s.a0.toNat :=
  decide_eq_false_iff_not.trans (by omega)

theorem checkAligned_passes {s : State} : (checkAligned s).fails = false ↔ s.a1.toNat % 4 = 0 :=
  decide_eq_false_iff_not.trans not_not

theorem checkRange_passes {len : Nat} {s : State} :
    (checkRange len s).fails = false ↔ s.a1.toNat + len ≤ s.cfg.xlanes :=
  decide_eq_false_iff_not.trans not_lt

/-! ### The rejections of a fill, in their order -/

section
variable {i : Instr} {count : Check} {len : Nat} {s : State}

theorem fill_cursorNotExhausted (h : s.Idle) (e : commandChecks i s = fillChecks count len s) (hlife : s.life ≠ .uninit)
    (hcursor : s.cursor.toNat ≠ s.cfg.n32) : exec i s = .next (rejectedState .cursorNotExhausted i s.cursor s) :=
  exec_firstFailure (pre := [checkSeeded s]) (c := checkExhausted s) h e
    (by simp [checkSeeded_passes, hlife]) (decide_eq_true hcursor)

theorem fill_badCount (h : s.Idle) (e : commandChecks i s = fillChecks count len s) (hlife : s.life ≠ .uninit)
    (hcursor : s.cursor.toNat = s.cfg.n32) (hcount : count.fails = true) :
    exec i s = .next (rejectedState count.cause i count.info s) :=
  exec_firstFailure (pre := [checkSeeded s, checkExhausted s]) h e
    (by simp [checkSeeded_passes, checkExhausted_passes, hlife, hcursor]) hcount

theorem fill_misaligned (h : s.Idle) (e : commandChecks i s = fillChecks count len s) (hlife : s.life ≠ .uninit)
    (hcursor : s.cursor.toNat = s.cfg.n32) (hcount : count.fails = false) (ha1 : s.a1.toNat % 4 ≠ 0) :
    exec i s = .next (rejectedState .misaligned i s.a1 s) :=
  exec_firstFailure (pre := [checkSeeded s, checkExhausted s, count]) (c := checkAligned s) h e
    (by simp [checkSeeded_passes, checkExhausted_passes, hlife, hcursor, hcount]) (decide_eq_true ha1)

theorem fill_outOfRange (h : s.Idle) (e : commandChecks i s = fillChecks count len s) (hlife : s.life ≠ .uninit)
    (hcursor : s.cursor.toNat = s.cfg.n32) (hcount : count.fails = false) (ha1 : s.a1.toNat % 4 = 0)
    (hrange : s.cfg.xlanes < s.a1.toNat + len) : exec i s = .next (rejectedState .outOfRange i s.a1 s) :=
  exec_firstFailure (pre := [checkSeeded s, checkExhausted s, count, checkAligned s]) (c := checkRange len s) h e
    (by simp [checkSeeded_passes, checkExhausted_passes, checkAligned_passes, hlife, hcursor, hcount, ha1])
    (decide_eq_true hrange)

end

/-- Settles O11: one lemma for each cause, used for both commands. -/
theorem fillCheckOrder : Obligations.FillCheckOrder := by
  intro s h
  have e32 := commandChecks_fill32 s
  have e64 := commandChecks_fill64 s
  refine ⟨fun hlife => ⟨exec_unseeded h hlife rfl, exec_unseeded h hlife rfl⟩, fun hlife hcursor => ?_,
    fun hlife hcursor => ⟨fun hcount => ?_, fun hcount => ?_, fun hexact henough => ?_, fun hexact henough => ?_⟩⟩
  · exact ⟨fill_cursorNotExhausted h e32 hlife hcursor, fill_cursorNotExhausted h e64 hlife hcursor⟩
  · exact fill_badCount h e32 hlife hcursor (decide_eq_true hcount)
  · exact fill_badCount h e64 hlife hcursor (decide_eq_true hcount)
  · have hcount := checkCount32_passes.2 ⟨hexact, henough⟩
    exact ⟨fill_misaligned h e32 hlife hcursor hcount, fill_outOfRange h e32 hlife hcursor hcount⟩
  · have hcount := checkCount64_passes.2 ⟨hexact, henough⟩
    exact ⟨fill_misaligned h e64 hlife hcursor hcount, fill_outOfRange h e64 hlife hcursor hcount⟩

end Sys2Proof.Machine
end

section
/-!
SUPPORT. The effect of a fill (spec/41_array_fill.md R100 to R112): from GEN entry to completion, on any core with room for the
words, and then for each of the two commands; 64-bit lanes of the buffer (spec/20_memory.md R53).
-/

namespace Sys2Proof.Machine

/-- R107: what COPYBACK reads, the last `N` words of a full buffer, are words `words` to `words + N - 1` of the stream. -/
theorem lastWords_eq_stream {c : Config} {S : List Word} {m : Memory} {base words : Nat} (hn : c.n ≤ words)
    (output : ∀ k < words, m.readWord (base + 4 * k) = streamWord c S (c.n + k)) :
    ((List.range c.n).map fun k => m.readWord (base + 4 * (words - c.n + k))) =
      (List.range c.n).map fun k => streamWord c S (words + k) := by
  refine List.map_congr_left fun k hk => ?_
  have hk : k < c.n := List.mem_range.1 hk
  rw [output _ (by omega), show c.n + (words - c.n + k) = words + k by omega]

/-- From GEN entry to completion: the GEN loop fills the buffer, and the COPYBACK loop copies its end. -/
theorem enterGen_effect (i : Instr) {words : Nat} {s : State} (h : s.Idle) (hl : s.store.length = s.cfg.n)
    (hm : s.xmem.wf) (hn : s.cfg.n ≤ words) (hw : words < 2 ^ 32) :
    FillEffect i words s (microSteps (words + s.cfg.n) (enterGen words (latch i s))) := by
  obtain ⟨hbusy, hphase⟩ := h
  have hpos : 0 < words := by have := two_le_n s.cfg; omega
  have hentry : (enterGen words (latch i s)).cnt.toNat = words := ofNat_toNat_of_lt hw
  have gen := gen_done (s := enterGen words (latch i s)) hl hm rfl rfl rfl rfl (by rwa [hentry])
  rw [hentry] at gen
  rw [microSteps_add]
  generalize microSteps words (enterGen words (latch i s)) = u at gen ⊢
  obtain ⟨hu, hwf, houtput, houtside⟩ := gen
  rw [hentry] at houtput houtside
  have hcfg : u.cfg = s.cfg := by rw [hu]; rfl
  have ha1 : u.a1l = s.a1 := by rw [hu]; rfl
  have hcnt : u.cnt.toNat = words := by rw [hu]; exact hentry
  have copy := copy_done (s := u) (by rw [hu]; exact hl) (by rw [hu]) (by rw [hu])
  rw [hcfg, ha1, hcnt, lastWords_eq_stream (base := s.a1.toNat) hn houtput] at copy
  rw [copy]
  refine ⟨?_, houtput, houtside, hwf⟩
  rw [hu, ← hbusy, ← hphase]
  rfl

/-- A fill whose checks all pass completes, with the effect of its number of words. -/
theorem exec_fill {i : Instr} {count : Check} {len words : Nat} {s : State} (h : s.Idle)
    (hchecks : commandChecks i s = fillChecks count len s) (hentry : commandEntry i s = enterGen words)
    (hmicro : microCount i s = words + s.cfg.n) (hl : s.store.length = s.cfg.n) (hm : s.xmem.wf)
    (hpass : ∀ c ∈ fillChecks count len s, c.fails = false) (hn : s.cfg.n ≤ words) (hw : words < 2 ^ 32) :
    ∃ t, exec i s = .next t ∧ FillEffect i words s t := by
  have hexec := (exec_enters (i := i) h (firstFailure_none.2 (hchecks ▸ hpass))).1
  rw [hentry, hmicro] at hexec
  exact ⟨_, hexec, enterGen_effect i h hl hm hn hw⟩

theorem fillChecks_pass {count : Check} {len : Nat} {s : State} (hlife : s.life ≠ .uninit)
    (hcursor : s.cursor.toNat = s.cfg.n32) (hcount : count.fails = false) (ha1 : s.a1.toNat % 4 = 0)
    (hrange : s.a1.toNat + len ≤ s.cfg.xlanes) : ∀ c ∈ fillChecks count len s, c.fails = false := by
  simp [fillChecks, checkSeeded_passes, checkExhausted_passes, checkAligned_passes, checkRange_passes, hlife, hcursor, hcount,
    ha1, hrange]

/-- Settles O24: the five checks pass, and `A0 / 4` is at least `N`. -/
theorem fill32ProducesStream : Obligations.Fill32ProducesStream := by
  intro s r
  have hlt := s.a0.isLt
  have hn32 := n32_eq s.cfg
  have henough := r.countEnough
  exact exec_fill r.idle (commandChecks_fill32 s) rfl rfl r.storeLength r.memoryForm
    (fillChecks_pass r.seeded r.exhausted (checkCount32_passes.2 ⟨r.countExact, henough⟩) r.aligned r.inRange) (by omega)
    (by omega)

/-- A FILL64 whose preconditions hold completes with the effect of a fill of `A0 / 2` words. -/
theorem exec_fill64 {s : State} (r : Fill64Ready s) :
    ∃ t, exec .fill64 s = .next t ∧ FillEffect .fill64 (s.a0.toNat / 2) s t := by
  have hlt := s.a0.isLt
  have hn64 := n64_eq s.cfg
  have henough := r.countEnough
  exact exec_fill r.idle (commandChecks_fill64 s) rfl rfl r.storeLength r.memoryForm
    (fillChecks_pass r.seeded r.exhausted (checkCount64_passes.2 ⟨r.countExact, henough⟩) r.aligned r.inRange) (by omega)
    (by omega)

/-- R53: the two 64-bit halves of a word are the 64-bit lanes of a buffer that begins with it, lower half first. -/
theorem extractLsb'_readWord (m : Memory) (a : Nat) {r : Nat} (hr : r < 2) :
    (m.readWord a).extractLsb' (64 * r) 64 = m.readLane64 a r := by
  have hlow : 32 * (2 * r) = 64 * r := by omega
  calc (m.readWord a).extractLsb' (64 * r) 64
    _ = wordLane (m.readWord a) ⟨2 * r + 1, by omega⟩ ++ wordLane (m.readWord a) ⟨2 * r, by omega⟩ := by
      rw [← hlow]
      exact (BitVec.extractLsb'_append_extractLsb'_eq_extractLsb' (len₁ := 32) (len₂ := 32) rfl).symm
    _ = m.readLane64 a r := by
      rw [wordLane_readWord, wordLane_readWord]
      rfl

/-- R53: 64-bit lane `k` lies in word `k / 2` of the buffer. -/
theorem readLane64_eq (m : Memory) (base k : Nat) :
    m.readLane64 base k = (m.readWord (base + 4 * (k / 2))).extractLsb' (64 * (k % 2)) 64 := by
  have hk : base + 2 * k = base + 4 * (k / 2) + 2 * (k % 2) := by omega
  rw [extractLsb'_readWord _ _ (Nat.mod_lt k two_pos), Memory.readLane64, Memory.readLane64, hk]

/-- Settles O25: FILL64 has the effect of a fill, and each 64-bit lane is half of a word of its output. -/
theorem fill64ProducesStream : Obligations.Fill64ProducesStream := by
  intro s r
  obtain ⟨t, hexec, effect⟩ := exec_fill64 r
  have hexact := r.countExact
  exact ⟨t, hexec, effect, fun k hk => by rw [readLane64_eq, effect.output _ (by omega)]⟩

end Sys2Proof.Machine
end

section
/-!
SUPPORT. What two fills have in common (spec/41_array_fill.md R101, R110): the part of a fill's effect that depends on nothing but
the generator state and the buffer determines what it leaves, and two fills into adjoining regions make one.
-/

namespace Sys2Proof.Machine

/-! ### XMEM word by word -/

/-- A byte is part of the word whose sixteen bytes reach it (R52). -/
theorem readByte_congr_word {m m' : Memory} {a b : Nat} (h : m.readWord a = m'.readWord a) (hlo : 4 * a ≤ b)
    (hhi : b < 4 * (a + 4)) : m.readByte b = m'.readByte b := by
  have hlane : b / 4 - a < 4 := by omega
  have hbyte : b % 4 < 4 := Nat.mod_lt b four_pos
  have hb : b = 4 * (a + (b / 4 - a)) + b % 4 := by omega
  have key (n : Memory) : n.readByte b = (wordLane (n.readWord a) ⟨b / 4 - a, hlane⟩).extractLsb' (8 * (b % 4)) 8 := by
    rw [wordLane_readWord, extractLsb'_readLane _ _ hbyte, ← hb]
  rw [key m, key m', h]

/-- A word is read from its sixteen bytes alone (R52). -/
theorem readWord_congr {m m' : Memory} {a : Nat} (h : ∀ b, 4 * a ≤ b → b < 4 * (a + 4) → m.readByte b = m'.readByte b) :
    m.readWord a = m'.readWord a := by
  have lane {L : Nat} (hlo : a ≤ L) (hhi : L < a + 4) : m.readLane L = m'.readLane L := by
    rw [Memory.readLane, Memory.readLane, h _ (by omega) (by omega), h _ (by omega) (by omega), h _ (by omega) (by omega),
      h _ (by omega) (by omega)]
  rw [Memory.readWord, Memory.readWord, lane (by omega) (by omega), lane (by omega) (by omega), lane (by omega) (by omega),
    lane (by omega) (by omega)]

/-- Memories that agree outside a region and on the words that make it up are equal. -/
theorem memory_ext_words {m m' : Memory} {base words : Nat} (h : m.wf) (h' : m'.wf)
    (houtside : ∀ b, b < 4 * base ∨ 4 * (base + 4 * words) ≤ b → m.readByte b = m'.readByte b)
    (hwords : ∀ k < words, m.readWord (base + 4 * k) = m'.readWord (base + 4 * k)) : m = m' := by
  refine memory_ext h h' fun b => ?_
  by_cases hb : b < 4 * base ∨ 4 * (base + 4 * words) ≤ b
  · exact houtside b hb
  · exact readByte_congr_word (hwords ((b / 4 - base) / 4) (by omega)) (by omega) (by omega)

/-! ### The stream, continued -/

/-- R97, R110: words `p` to `p + N - 1` of a stream are a State Store whose stream is the rest of it. -/
theorem streamWord_continue {c : Config} {S : List Word} (hl : S.length = c.n) (p j : Nat) :
    streamWord c ((List.range c.n).map fun k => streamWord c S (p + k)) j = streamWord c S (p + j) := by
  generalize hT : ((List.range c.n).map fun k => streamWord c S (p + k)) = T
  have hTl : T.length = c.n := by simp [← hT]
  induction j using Nat.strong_induction_on with
  | _ j ih =>
    by_cases hj : j < c.n
    · rw [streamWord_eq_storeWord hTl hj, ← hT]
      simp [storeWord, List.getD, hj]
    · have hn := two_le_n c
      have hpos1 := pos1_lt c
      obtain ⟨i, rfl⟩ := Nat.exists_eq_add_of_le (not_lt.1 hj)
      have e0 : p + (i + c.pos1) = p + i + c.pos1 := by omega
      have e1 : p + (c.n + i - 2) = c.n + (p + i) - 2 := by omega
      have e2 : p + (c.n + i - 1) = c.n + (p + i) - 1 := by omega
      have e3 : c.n + (p + i) = p + (c.n + i) := by omega
      rw [streamWord_next hTl i, ih _ (by omega), ih _ (by omega), ih _ (by omega), ih _ (by omega), e0, e1, e2,
        ← streamWord_next hl, e3]

/-! ### The result of a fill -/

/-- The part of a fill's effect that is in terms of the generator state `S` and the memory `m` it starts from, of the buffer
address and of the number of words: no command, no latch and no working register. -/
structure Filled (c : Config) (S : List Word) (m : Memory) (base words : Nat) (t : State) : Prop where
  cfg : t.cfg = c
  store : t.store = (List.range c.n).map fun k => streamWord c S (words + k)
  cursor : t.cursor = BitVec.ofNat 32 c.n32
  life : t.life = .streaming
  last : t.last = .ok
  output : ∀ k < words, t.xmem.readWord (base + 4 * k) = streamWord c S (c.n + k)
  outside : ∀ b, b < 4 * base ∨ 4 * (base + 4 * words) ≤ b → t.xmem.readByte b = m.readByte b
  memoryForm : t.xmem.wf

theorem FillEffect.filled {i : Instr} {words : Nat} {s t : State} (h : FillEffect i words s t) :
    Filled s.cfg s.store s.xmem s.a1.toNat words t where
  cfg := by rw [h.frame]
  store := congrArg State.store h.frame
  cursor := congrArg State.cursor h.frame
  life := congrArg State.life h.frame
  last := congrArg State.last h.frame
  output := h.output
  outside := h.outside
  memoryForm := h.memoryForm

section
variable {c : Config} {S : List Word} {m : Memory} {base : Nat}

/-- Fills of as many words into the same buffer leave the same memory. -/
theorem Filled.xmem_unique {words : Nat} {t u : State} (h : Filled c S m base words t)
    (h' : Filled c S m base words u) : t.xmem = u.xmem :=
  memory_ext_words h.memoryForm h'.memoryForm (fun b hb => (h.outside b hb).trans (h'.outside b hb).symm)
    fun k hk => (h.output k hk).trans (h'.output k hk).symm

/-- R110: a fill of `q` words right behind one of `p` words makes one of `p + q` words. -/
theorem Filled.append {p q : Nat} {u v : State} (hl : S.length = c.n) (h : Filled c S m base p u)
    (h' : Filled c u.store u.xmem (base + 4 * p) q v) : Filled c S m base (p + q) v where
  cfg := h'.cfg
  store := by simp only [h'.store, h.store, streamWord_continue hl, Nat.add_assoc]
  cursor := h'.cursor
  life := h'.life
  last := h'.last
  output k hk := by
    by_cases hkp : k < p
    · rw [readWord_congr fun b _ hb => h'.outside b (by omega), h.output k hkp]
    · obtain ⟨j, rfl⟩ := Nat.exists_eq_add_of_le (not_lt.1 hkp)
      have hword := h'.output j (by omega)
      rw [h.store, streamWord_continue hl] at hword
      rw [show base + 4 * (p + j) = base + 4 * p + 4 * j by omega, hword, show p + (c.n + j) = c.n + (p + j) by omega]
  outside b hb := (h'.outside b (by omega)).trans (h.outside b (by omega))
  memoryForm := h'.memoryForm

end

/-! ### The two equivalences -/

/-- R101: twice the count makes the preconditions of FILL64 those of FILL32. -/
theorem Fill64Ready.fill32 {s : State} {k : Lane} (r : Fill64Ready s) (hk : 2 * s.a0.toNat = k.toNat) :
    Fill32Ready { s with a0 := k } where
  idle := r.idle
  storeLength := r.storeLength
  memoryForm := r.memoryForm
  seeded := r.seeded
  exhausted := r.exhausted
  countExact := by have := r.countExact; show k.toNat % 4 = 0; omega
  countEnough := by
    have := r.countEnough
    have := n32_eq s.cfg
    have := n64_eq s.cfg
    show s.cfg.n32 ≤ k.toNat
    omega
  aligned := r.aligned
  inRange := by rw [← hk]; exact r.inRange

/-- Settles O26: both commands fill the same buffer with as many words. -/
theorem fill64AgreesWithFill32 : Obligations.Fill64AgreesWithFill32 := by
  intro s k hk r
  obtain ⟨t, ht, effect64⟩ := exec_fill64 r
  obtain ⟨u, hu, effect32⟩ := fill32ProducesStream _ (r.fill32 hk)
  have filled64 := effect64.filled
  have filled32 := effect32.filled
  have hwords : k.toNat / 4 = s.a0.toNat / 2 := by omega
  rw [hwords] at filled32
  exact ⟨t, u, ht, hu, filled64.store.trans filled32.store.symm, filled64.xmem_unique filled32,
    filled64.cursor.trans filled32.cursor.symm, filled64.life.trans filled32.life.symm,
    filled64.last.trans filled32.last.symm⟩

/-- A fill leaves a generator state that is ready for the next one. -/
theorem Filled.fill32Ready {c : Config} {S : List Word} {m : Memory} {base words : Nat} {t : State} {x y : Lane}
    (h : Filled c S m base words t) (idle : t.Idle) (countExact : x.toNat % 4 = 0) (countEnough : c.n32 ≤ x.toNat)
    (aligned : y.toNat % 4 = 0) (inRange : y.toNat + x.toNat ≤ c.xlanes) : Fill32Ready { t with a0 := x, a1 := y } := by
  obtain rfl := h.cfg
  exact {
    idle, countExact, countEnough, aligned, inRange
    storeLength := by simp [h.store]
    memoryForm := h.memoryForm
    seeded := by simp [h.life]
    exhausted := (congrArg BitVec.toNat h.cursor).trans (ofNat_n32_toNat t.cfg) }

/-- The smaller count of a fill into the same buffer keeps its preconditions. -/
theorem Fill32Ready.shorter {s : State} {x y : Lane} (r : Fill32Ready { s with a0 := x }) (hexact : y.toNat % 4 = 0)
    (henough : s.cfg.n32 ≤ y.toNat) (hle : y.toNat ≤ x.toNat) : Fill32Ready { s with a0 := y } :=
  { r with
    countExact := hexact
    countEnough := henough
    inRange := (Nat.add_le_add_left hle _).trans r.inRange }

/-- Settles O27: the two shorter fills together are one of as many words as the long one. -/
theorem fillChunkingDoesNotMatter : Obligations.FillChunkingDoesNotMatter := by
  intro s c1 c2 r hsum hexact henough1 henough2
  have hcount : (c1 + c2).toNat = c1.toNat + c2.toNat := BitVec.toNat_add_of_lt hsum
  have hexact12 : (c1 + c2).toNat % 4 = 0 := r.countExact
  have haligned : s.a1.toNat % 4 = 0 := r.aligned
  have hrange : s.a1.toNat + (c1 + c2).toNat ≤ s.cfg.xlanes := r.inRange
  have hxlanes := xlanes_le s.cfg
  have hn := two_le_n s.cfg
  have hn32 := n32_eq s.cfg
  have hbase : (s.a1 + c1).toNat = s.a1.toNat + c1.toNat := BitVec.toNat_add_of_lt (by omega)
  obtain ⟨t, ht, effect⟩ := fill32ProducesStream _ r
  have r1 : Fill32Ready { s with a0 := c1 } := r.shorter hexact henough1 (by omega)
  obtain ⟨u, hu, effect1⟩ := fill32ProducesStream _ r1
  have first : Filled s.cfg s.store s.xmem s.a1.toNat (c1.toNat / 4) u := effect1.filled
  have r2 : Fill32Ready { u with a0 := c2, a1 := s.a1 + c1 } :=
    first.fill32Ready (exec_idle r1.idle hu) (by omega) henough2 (by omega) (by omega)
  obtain ⟨v, hv, effect2⟩ := fill32ProducesStream _ r2
  have hwords : (c1 + c2).toNat / 4 = c1.toNat / 4 + c2.toNat / 4 := by omega
  have hbase4 : (s.a1 + c1).toNat = s.a1.toNat + 4 * (c1.toNat / 4) := by omega
  have whole : Filled s.cfg s.store s.xmem s.a1.toNat (c1.toNat / 4 + c2.toNat / 4) t := hwords ▸ effect.filled
  have second : Filled s.cfg u.store u.xmem (s.a1.toNat + 4 * (c1.toNat / 4)) (c2.toNat / 4) v :=
    first.cfg ▸ hbase4 ▸ effect2.filled
  have both := first.append r.storeLength second
  exact ⟨t, u, v, ht, hu, hv, both.store.trans whole.store.symm, both.xmem_unique whole,
    both.cursor.trans whole.cursor.symm, both.life.trans whole.life.symm, both.last, whole.last⟩

end Sys2Proof.Machine
end

section
/-!
SUPPORT. The constants and the scrambling functions of the key-array seed (spec/42_seed.md R124, R126, R131) as plain arithmetic.
-/

namespace Sys2Proof.Machine

/-! ### LAG and MID -/

/-- R126: the thresholds of `LAG`. -/
theorem seedLag_thresholds (n : Nat) :
    (623 ≤ n → seedLag n = 11) ∧ (68 ≤ n → n < 623 → seedLag n = 7) ∧ (39 ≤ n → n < 68 → seedLag n = 5) ∧
      (n < 39 → seedLag n = 3) := by
  unfold seedLag
  refine ⟨fun h => if_pos h, fun h h' => ?_, fun h h' => ?_, fun h => ?_⟩
  · rw [if_neg (by omega), if_pos h]
  · rw [if_neg (by omega), if_neg (by omega), if_pos h]
  · rw [if_neg (by omega), if_neg (by omega), if_neg (by omega)]

/-- R126: the lane offsets `0`, `MID`, `MID + LAG` and `N32 - 1` stand in this order, in each of the four ranges of `N32`. -/
theorem seedOffsets_ordered (c : Config) :
    2 ≤ seedMid c.n32 ∧ 0 < seedLag c.n32 ∧ seedMid c.n32 + seedLag c.n32 < c.n32 - 1 := by
  have hn := two_le_n c
  have hn32 := n32_eq c
  obtain ⟨h11, h7, h5, h3⟩ := seedLag_thresholds c.n32
  unfold seedMid
  omega

/-- Settles O33: the thresholds, and the order of the four offsets for `N32 >= 8`. -/
theorem lagAndMid : Obligations.LagAndMid := by
  refine ⟨fun n => ?_, by decide, fun c => ?_⟩
  · obtain ⟨h11, h7, h5, h3⟩ := seedLag_thresholds n
    exact ⟨h11, h7, h5, h3, rfl⟩
  · obtain ⟨hmid, hlag, hlast⟩ := seedOffsets_ordered c
    exact ⟨hmid, hlast, by omega, by omega⟩

/-! ### Scrambling -/

/-- `x ^ (x >> 27)`, the part that `func1` and the premix of `func2` share (R124, R131). -/
theorem toNat_xor_shift27 (x : Lane) : (x ^^^ (x >>> 27)).toNat = x.toNat ^^^ x.toNat / 2 ^ 27 := by
  rw [BitVec.toNat_xor, BitVec.toNat_ushiftRight, Nat.shiftRight_eq_div_pow]

theorem func1_toNat (x : Lane) : (func1 x).toNat = (x.toNat ^^^ x.toNat / 2 ^ 27) * 1664525 % 2 ^ 32 := by
  rw [func1, BitVec.toNat_mul, toNat_xor_shift27]
  rfl

theorem func2_plain_toNat (x : Lane) : (func2 false x).toNat = x.toNat * 1566083941 % 2 ^ 32 := BitVec.toNat_mul _ _

theorem func2_premix_toNat (x : Lane) :
    (func2 true x).toNat = (x.toNat ^^^ x.toNat / 2 ^ 27) * 1566083941 % 2 ^ 32 := by
  rw [func2, if_pos rfl, BitVec.toNat_mul, toNat_xor_shift27]
  rfl

/-- Settles O34: the three forms as arithmetic, and the values the spec lists. -/
theorem scramblingFunctions : Obligations.ScramblingFunctions :=
  ⟨func1_toNat, func2_plain_toNat, func2_premix_toNat, by decide, by decide, by decide, by decide, by decide, by decide,
    by decide, by decide⟩

end Sys2Proof.Machine
end

section
/-!
SUPPORT. A round of the key-array seed (spec/42_seed.md R128 to R132) lane by lane: the initial mix, the key and pad rounds and
the whitening rounds write the same three lanes in the same order, and differ in how a lane is combined and in what is written.
-/

namespace Sys2Proof.Machine

/-- The writes that every round makes: lane `m` is combined with `x`, then lane `ml` with `y`, then lane `i` becomes `y`. -/
def roundWrites (combine : Lane → Lane → Lane) (i m ml : Nat) (x y : Lane) (S : List Word) : List Word :=
  let T := setStoreLane S m (combine (storeLane S m) x)
  setStoreLane (setStoreLane T ml (combine (storeLane T ml) y)) i y

@[simp] theorem roundWrites_length (combine : Lane → Lane → Lane) (i m ml : Nat) (x y : Lane) (S : List Word) :
    (roundWrites combine i m ml x y S).length = S.length := by
  simp [roundWrites]

/-- The lanes after a round's writes. `m` and `ml` are distinct, so that lane `ml` is combined as it was before the round; lane
`i` may be any, for its write is the last. -/
theorem storeLane_roundWrites (combine : Lane → Lane → Lane) {i m ml n : Nat} (x y : Lane) {S : List Word}
    (hl : S.length = n) (hi : i < 4 * n) (hm : m < 4 * n) (hml : ml < 4 * n) (hne : m ≠ ml) (L : Nat) :
    storeLane (roundWrites combine i m ml x y S) L =
      if L = i then y else if L = ml then combine (storeLane S L) y else if L = m then combine (storeLane S L) x else
        storeLane S L := by
  have hmT : storeLane (setStoreLane S m (combine (storeLane S m) x)) ml = storeLane S ml := by
    rw [storeLane_setStoreLane _ _ _ _ (by omega), if_neg hne]
  simp only [roundWrites, hmT]
  rw [storeLane_setStoreLane _ _ _ _ (by simp; omega), storeLane_setStoreLane _ _ _ _ (by simp; omega),
    storeLane_setStoreLane _ _ _ _ (by omega)]
  simp only [eq_comm (b := L)]
  split_ifs with hLi hLml hLm
  · rfl
  · rw [hLml]
  · rw [hLm]
  · rfl

/-- Settles O31: the offsets 0, `MID` and `MID + LAG` are distinct lanes of the store. -/
theorem initialMixLanes : Obligations.InitialMixLanes := by
  intro c kl S hl
  obtain ⟨hmid, hlag, hlast⟩ := seedOffsets_ordered c
  have hn32 := n32_eq c
  refine ⟨rfl, (mixInitial_length c kl S).trans hl, fun L _ => ?_⟩
  exact storeLane_roundWrites (· + ·) (i := 0) _ _ hl (by omega) (by omega) (by omega) (by omega) L

/-- R126, R129: at a distance below `N32` from `a` lies another lane modulo `N32`. -/
theorem mod_ne_add_mod {n d : Nat} (a : Nat) (hd : 0 < d) (hdn : d < n) : a % n ≠ (a + d) % n := fun h =>
  Nat.not_dvd_of_pos_of_lt hd hdn (Nat.modEq_zero_iff_dvd.1 (Nat.ModEq.add_left_cancel' a h.symm))

/-- Settles O32: both kinds of round make a round's writes, one with `+` and one with XOR, at lanes modulo `N32`. -/
theorem keyArrayRoundLanes : Obligations.KeyArrayRoundLanes := by
  intro c i add S hl hi
  obtain ⟨hmid, hlag, hlast⟩ := seedOffsets_ordered c
  have hn32 := n32_eq c
  have hm : (i + seedMid c.n32) % c.n32 < 4 * c.n := Nat.mod_lt _ (by omega)
  have hml : (i + seedMid c.n32 + seedLag c.n32) % c.n32 < 4 * c.n := Nat.mod_lt _ (by omega)
  have hne := mod_ne_add_mod (i + seedMid c.n32) hlag (by omega : seedLag c.n32 < c.n32)
  exact ⟨rfl, (mixRound_length c i add S).trans hl, fun L _ => storeLane_roundWrites (· + ·) _ _ hl hi hm hml hne L,
    rfl, (whitenRound_length c i S).trans hl, fun L _ => storeLane_roundWrites (· ^^^ ·) _ _ hl hi hm hml hne L⟩

end Sys2Proof.Machine
end

section
/-!
SUPPORT. SEED and SEEDARR from accept to completion (spec/42_seed.md R120 to R138): the precondition of SEEDARR, the passes of the
key-array seed chained from the loop lemmas of Laws/SeedLoop.lean, and the effect of both commands on the generator state.
-/

namespace Sys2Proof.Machine

/-! ### Preconditions -/

theorem checkKeyRange_passes {s : State} :
    (checkKeyRange s).fails = false ↔ s.a0.toNat = 0 ∨ s.a1.toNat + s.a0.toNat ≤ s.cfg.xlanes :=
  decide_eq_false_iff_not.trans (by omega)

/-- Settles O13: each of the two commands makes one check. -/
theorem keyAndByteChecks : Obligations.KeyAndByteChecks := fun s h =>
  ⟨fun hkey hrange => exec_firstFailure (pre := []) (c := checkKeyRange s) h rfl (by simp) (decide_eq_true ⟨hkey, hrange⟩),
    fun hindex => exec_firstFailure (pre := []) (c := checkByteIndex s) h rfl (by simp) (decide_eq_true hindex)⟩

/-! ### Scalar seed -/

/-- R145: the CERTIFY micro-step, which completes both commands. -/
theorem microStep_certify {s : State} (hp : s.phase = .certify) :
    microStep s =
      { s with
        inner := parityInner s.cfg s.store
        store := certifyStore s.cfg s.store
        life := .seeded
        last := .ok
        phase := .idle
        busy := false } := by
  simp only [microStep, hp]
  rfl

/-- Settles O29: the `SEED_LOOP` on the accepted core, then certification. -/
theorem scalarSeedCompletes : Obligations.ScalarSeedCompletes := by
  intro s h hl
  have hloop := seed_done (s := enterSeed (latch .seed s)) hl rfl rfl
  have hrun : microSteps (microCount .seed s) (commandEntry .seed s (latch .seed s)) = _ :=
    (microSteps_succ' s.cfg.n32 _).trans (congrArg microStep hloop)
  refine ⟨_, (exec_enters h rfl).1, ?_⟩
  obtain ⟨hbusy, hphase⟩ := h
  rw [hrun, microStep_certify rfl, ← hbusy, ← hphase]
  rfl

/-! ### The passes of the key-array seed -/

theorem keyLoop_index_lt (c : Config) (ks : List Lane) {q : PassState} (hq : q.index < c.n32) :
    (keyLoop c ks q).index < c.n32 := by
  induction ks generalizing q with
  | nil => exact hq
  | cons k ks ih => exact ih (next_lt c q.index)

theorem padLoop_index_lt (c : Config) (k : Nat) {q : PassState} (hq : q.index < c.n32) :
    (padLoop c k q).index < c.n32 := by
  induction k generalizing q with
  | zero => exact hq
  | succ k ih => exact ih (next_lt c q.index)

theorem keyEntries_length (m : Memory) (base kl : Nat) : (keyEntries m base kl).length = kl := by
  simp [keyEntries]

/-- The key loop and the pad loop together (R127, R129, R130): `CNT` iterations, of which the key takes the first; an empty key
starts in the pad loop, and a key of `CNT` entries leaves it out. -/
theorem mix_loops {base : State} {q : PassState} {acc : Lane} (hq : q.index < base.cfg.n32)
    (hcnt : base.cnt.toNat = seedCount base.cfg base.a0l.toNat) :
    ∃ acc' : Lane,
      microSteps base.cnt.toNat (loopState base (if 0 < base.a0l.toNat then .arrKey else .arrPad) q acc 0) =
        loopState base .arrWhiten
          (padLoop base.cfg (base.cnt.toNat - base.a0l.toNat)
            (keyLoop base.cfg (keyEntries base.xmem base.a1l.toNat base.a0l.toNat) q)) acc' 0 := by
  obtain ⟨hle, -, hpos, -⟩ := seedCount_bounds base.cfg base.a0l.isLt
  rw [← hcnt] at hle hpos
  have hlen := keyEntries_length base.xmem base.a1l.toNat base.a0l.toNat
  by_cases hkey : 0 < base.a0l.toNat
  · rw [if_pos hkey]
    obtain ⟨acc1, hkeys⟩ := key_loop (base := base) (keyEntries base.xmem base.a1l.toNat base.a0l.toNat) (q := q) (acc := acc)
      (j := 0) (List.ne_nil_of_length_pos (by omega)) hq (by omega) (fun i hi => by simp [keyEntries])
    rw [hlen] at hkeys
    obtain ⟨rest, hrest⟩ := Nat.exists_eq_add_of_le hle
    have hsub : base.cnt.toNat - base.a0l.toNat = rest := by omega
    rw [hsub, hrest, microSteps_add, hkeys]
    by_cases hpad : base.a0l.toNat < base.cnt.toNat
    · rw [if_pos hpad]
      exact pad_loop (by omega) (keyLoop_index_lt _ _ hq) hrest.symm
    · obtain rfl : rest = 0 := by omega
      rw [if_neg hpad]
      exact ⟨acc1, rfl⟩
  · have hzero : base.a0l.toNat = 0 := by omega
    rw [if_neg hkey, hzero]
    exact pad_loop (by omega) hq (Nat.zero_add _)

/-- The one micro-step of `ARR_MIX0` on the filled store (R127, R128) enters the key loop or, for an empty key, the pad loop. -/
theorem arrMix0_enters {s : State} (hp : s.phase = .arrMix0)
    (hs : s.store = List.replicate s.cfg.n (patternWord s.cfg)) :
    ∃ acc : Lane, microStep s =
      loopState { s with cnt := BitVec.ofNat 32 (seedCount s.cfg s.a0l.toNat) }
        (if 0 < s.a0l.toNat then .arrKey else .arrPad) (keyStart s.cfg s.a0l.toNat) acc 0 := by
  refine ⟨(mixInitial s.cfg s.a0l s.store).acc, ?_⟩
  simp only [microStep, hp, arrMix0Step, loopState, keyStart, hs, BitVec.ofNat_toNat, BitVec.setWidth_eq]
  rfl

/-- From the initial mix to certification (R135). -/
theorem keyPasses_done {base : State} {acc : Lane} (hcnt : base.cnt.toNat = seedCount base.cfg base.a0l.toNat) :
    ∃ acc' : Lane,
      microSteps (base.cnt.toNat + base.cfg.n32)
          (loopState base (if 0 < base.a0l.toNat then .arrKey else .arrPad) (keyStart base.cfg base.a0l.toNat) acc 0) =
        { loopState base .certify (keyPasses base.cfg (keyEntries base.xmem base.a1l.toNat base.a0l.toNat)) acc'
            base.cfg.n32 with
          cursor := BitVec.ofNat 32 base.cfg.n32 } := by
  have hn := two_le_n base.cfg
  have hn32 := n32_eq base.cfg
  have hstart : (keyStart base.cfg base.a0l.toNat).index < base.cfg.n32 := show 1 < base.cfg.n32 by omega
  obtain ⟨acc1, hmix⟩ := mix_loops (acc := acc) hstart hcnt
  obtain ⟨acc2, hwhiten⟩ := whiten_loop (acc := acc1) (j := 0) (by omega)
    (padLoop_index_lt base.cfg (base.cnt.toNat - base.a0l.toNat)
      (keyLoop_index_lt base.cfg (keyEntries base.xmem base.a1l.toNat base.a0l.toNat) hstart)) (Nat.zero_add _)
  refine ⟨acc2, ?_⟩
  rw [microSteps_add, hmix, hwhiten, keyPasses, keyEntries_length, ← hcnt]

/-- From SEEDARR entry to completion: the pattern fill, the initial mix, the passes over the key, certification (R125, R133). -/
theorem seedarr_done {s : State} (hl : s.store.length = s.cfg.n) (hp : s.phase = .arrPattern) (hi0 : s.idx = 0) :
    ∃ i j r k x : Lane,
      microSteps (s.cfg.n + (1 + (seedCount s.cfg s.a0l.toNat + s.cfg.n32 + 1))) s =
        { s with
          store := keyedStore s.cfg (keyEntries s.xmem s.a1l.toNat s.a0l.toNat)
          cursor := BitVec.ofNat 32 s.cfg.n32
          life := .seeded
          last := .ok
          phase := .idle
          busy := false
          idx := i
          jdx := j
          racc := r
          cnt := k
          inner := x } := by
  obtain ⟨-, -, -, hlt⟩ := seedCount_bounds s.cfg s.a0l.isLt
  have hcnt := ofNat_toNat_of_lt hlt
  have hfill := pattern_done hl hp hi0
  rw [microSteps_add, microSteps_add, hfill]
  generalize hu : ({ s with
    store := List.replicate s.cfg.n (patternWord s.cfg), idx := BitVec.ofNat 32 s.cfg.n, phase := .arrMix0 } : State) = u
  obtain ⟨acc0, hmix⟩ := arrMix0_enters (s := u) (by rw [← hu]) (by rw [← hu])
  obtain ⟨acc1, hpasses⟩ := keyPasses_done (base := { u with cnt := BitVec.ofNat 32 (seedCount u.cfg u.a0l.toNat) })
    (acc := acc0) (by subst hu; exact hcnt)
  subst hu
  rw [hcnt] at hpasses
  rw [microSteps_succ', microSteps_succ, microSteps_zero, hmix, hpasses, microStep_certify rfl]
  exact ⟨_, _, _, _, _, rfl⟩

/-- R202: the micro-steps of SEEDARR, pass by pass. -/
theorem microCount_seedarr (s : State) :
    microCount .seedarr s = s.cfg.n + (1 + (seedCount s.cfg s.a0.toNat + s.cfg.n32 + 1)) := by
  simp only [microCount, seedCount]
  omega

/-- Settles O30: the check of the key passes, and the core runs from SEEDARR entry to completion. -/
theorem keyArraySeedCompletes : Obligations.KeyArraySeedCompletes := by
  intro s h hl hkey
  have hpass : ∀ c ∈ commandChecks .seedarr s, c.fails = false := List.forall_mem_singleton.2 (checkKeyRange_passes.2 hkey)
  obtain ⟨i, j, r, k, x, hdone⟩ := seedarr_done (s := enterSeedarr (latch .seedarr s)) hl rfl rfl
  have hrun : microSteps (microCount .seedarr s) (commandEntry .seedarr s (latch .seedarr s)) = _ :=
    (congrArg (microSteps · _) (microCount_seedarr s)).trans hdone
  refine ⟨_, (exec_enters h (firstFailure_none.2 hpass)).1, ?_⟩
  obtain ⟨hbusy, hphase⟩ := h
  rw [hrun, ← hbusy, ← hphase]
  rfl

/-! ### What a seed leaves of the state before it -/

/-- What a completed SEED or SEEDARR leaves, without the latches and the working registers: the State Store `S`, the cursor at
`N32`, and XMEM as it was. -/
structure Reseeded (S : List Word) (s t : State) : Prop where
  store : t.store = S
  cursor : t.cursor = BitVec.ofNat 32 s.cfg.n32
  life : t.life = .seeded
  last : t.last = .ok
  xmem : t.xmem = s.xmem

/-- Two cores of one configuration on which the same State Store has been seeded hold the same generator state. -/
theorem Reseeded.agree {S : List Word} {s s' t t' : State} (hcfg : s.cfg = s'.cfg) (r : Reseeded S s t)
    (r' : Reseeded S s' t') : t.last = .ok ∧ t'.last = .ok ∧ t.store = t'.store ∧ t.cursor = t'.cursor ∧
      t.life = .seeded ∧ t'.life = .seeded :=
  ⟨r.last, r'.last, r.store.trans r'.store.symm, by rw [r.cursor, r'.cursor, hcfg], r.life, r'.life⟩

theorem exec_seed {s : State} (h : s.Idle) (hl : s.store.length = s.cfg.n) :
    ∃ t, exec .seed s = .next t ∧ Reseeded (seededStore s.cfg s.a0) s t := by
  obtain ⟨t, ht, frame⟩ := scalarSeedCompletes s h hl
  exact ⟨t, ht, congrArg State.store frame, congrArg State.cursor frame, congrArg State.life frame,
    congrArg State.last frame, by rw [frame]; rfl⟩

theorem exec_seedarr {s : State} (h : s.Idle) (hl : s.store.length = s.cfg.n)
    (hkey : s.a0.toNat = 0 ∨ s.a1.toNat + s.a0.toNat ≤ s.cfg.xlanes) :
    ∃ t, exec .seedarr s = .next t ∧
      Reseeded (keyedStore s.cfg (keyEntries s.xmem s.a1.toNat s.a0.toNat)) s t := by
  obtain ⟨t, ht, frame⟩ := keyArraySeedCompletes s h hl hkey
  exact ⟨t, ht, congrArg State.store frame, congrArg State.cursor frame, congrArg State.life frame,
    congrArg State.last frame, by rw [frame]; rfl⟩

/-- The key is the lanes it is read from, wherever they lie (R122). -/
theorem keyEntries_congr {m m' : Memory} {base base' kl : Nat}
    (h : ∀ j < kl, m.readLane (base + j) = m'.readLane (base' + j)) : keyEntries m base kl = keyEntries m' base' kl :=
  List.map_congr_left fun j hj => h j (List.mem_range.1 hj)

/-- Settles O35: what either command leaves is a function of the configuration and the seed, or the key. -/
theorem reseedForgetsState : Obligations.ReseedForgetsState := by
  intro s s' h h' hl hl' hcfg ha0
  refine ⟨?_, fun hrange hkey => ?_⟩
  · obtain ⟨t, ht, r⟩ := exec_seed h hl
    obtain ⟨t', ht', r'⟩ := exec_seed h' hl'
    rw [← hcfg, ← ha0] at r'
    exact ⟨t, t', ht, ht', r.agree hcfg r'⟩
  · have hrange' : s'.a0.toNat = 0 ∨ s'.a1.toNat + s'.a0.toNat ≤ s'.cfg.xlanes := by
      rw [← hcfg, ← ha0]
      exact hrange.imp_right And.right
    obtain ⟨t, ht, r⟩ := exec_seedarr h hl (hrange.imp_right And.left)
    obtain ⟨t', ht', r'⟩ := exec_seedarr h' hl' hrange'
    rw [← hcfg, ← ha0, ← keyEntries_congr hkey] at r'
    exact ⟨t, t', ht, ht', r.agree hcfg r'⟩

/-- R134: the State Store that an empty key leaves. -/
theorem keyedStore_nil (c : Config) :
    keyedStore c [] = certifyStore c (whitenLoop c c.n32 (padLoop c (c.n32 - 1) (keyStart c 0))).store := by
  have hcount : seedCount c 0 = c.n32 - 1 := by
    have hn := two_le_n c
    have hn32 := n32_eq c
    unfold seedCount
    omega
  simp only [keyedStore, keyPasses, keyLoop, List.length_nil, hcount, Nat.sub_zero]

/-- With the empty key SEEDARR completes whatever `A1` and XMEM hold (R134). -/
theorem exec_seedarr_zero {s : State} (h : s.Idle) (hl : s.store.length = s.cfg.n) (h0 : s.a0 = 0) :
    ∃ t, exec .seedarr s = .next t ∧ Reseeded (keyedStore s.cfg []) s t := by
  have hkey : s.a0.toNat = 0 := by rw [h0]; rfl
  obtain ⟨t, ht, r⟩ := exec_seedarr h hl (.inl hkey)
  rw [hkey] at r
  exact ⟨t, ht, r⟩

/-- Settles O36: an empty key gives one State Store for every `A1` and every XMEM. -/
theorem zeroLengthKey : Obligations.ZeroLengthKey := by
  intro s h hl h0
  obtain ⟨t, ht, r⟩ := exec_seedarr_zero h hl h0
  refine ⟨⟨t, ht, r.last, r.xmem, r.store.trans (keyedStore_nil s.cfg)⟩, fun m b => ?_⟩
  obtain ⟨t', ht', r'⟩ := exec_seedarr_zero (s := { s with xmem := m, a1 := b }) h hl h0
  exact ⟨t, t', ht, ht', r'.store.trans r.store.symm, r'.cursor.trans r.cursor.symm, r'.xmem⟩

end Sys2Proof.Machine
end

section
/-!
SUPPORT. The parity fold of Period Certification (spec/43_period_certification.md R141): each step of the fold halves the number of
bits whose XOR is still to be taken.
-/

namespace Sys2Proof.Machine

/-! ### The XOR of a row of bits -/

/-- The XOR of bits 0 to `n - 1` of a row: their sum in the Boolean ring `Bool`, where `+` is XOR. -/
def xorBits (f : Nat → Bool) (n : Nat) : Bool := ∑ k ∈ Finset.range n, f k

theorem xorBits_succ (f : Nat → Bool) (n : Nat) : xorBits f (n + 1) = (xorBits f n ^^ f n) := Finset.sum_range_succ f n

/-- R141: the XOR taken bit after bit. -/
theorem foldl_xor_eq_xorBits (f : Nat → Bool) (n : Nat) :
    (List.range n).foldl (fun acc k => acc ^^ f k) false = xorBits f n := by
  induction n with
  | zero => rfl
  | succ n ih => rw [List.range_succ, List.foldl_append, ih, xorBits_succ]; rfl

theorem xorBits_congr {f g : Nat → Bool} {n : Nat} (h : ∀ k < n, f k = g k) : xorBits f n = xorBits g n :=
  Finset.sum_congr rfl fun k hk => h k (Finset.mem_range.1 hk)

theorem xorBits_xor (f g : Nat → Bool) (n : Nat) :
    xorBits (fun k => f k ^^ g k) n = (xorBits f n ^^ xorBits g n) := Finset.sum_add_distrib

theorem xorBits_bitVec_xor {w : Nat} (x y : BitVec w) (n : Nat) :
    xorBits (x ^^^ y).getLsbD n = (xorBits x.getLsbD n ^^ xorBits y.getLsbD n) :=
  (xorBits_congr fun _ _ => BitVec.getLsbD_xor).trans (xorBits_xor ..)

theorem xorBits_add (f : Nat → Bool) (m n : Nat) :
    xorBits f (m + n) = (xorBits f m ^^ xorBits (fun k => f (m + k)) n) := Finset.sum_range_add f m n

/-- A row in which at most bit `b` is set. -/
theorem xorBits_single (f : Nat → Bool) {b n : Nat} (hb : b < n) : xorBits (fun k => decide (k = b) && f k) n = f b := by
  refine (Finset.sum_eq_single_of_mem b (Finset.mem_range.2 hb) fun k _ hk => ?_).trans ?_
  · rw [decide_eq_false hk]
    rfl
  · rw [decide_eq_true rfl, Bool.true_and]

/-! ### The fold of a lane -/

theorem getLsbD_foldStep (x : Lane) (w k : Nat) : (foldStep x w).getLsbD k = (x.getLsbD k ^^ x.getLsbD (w + k)) := by
  rw [foldStep, BitVec.getLsbD_xor, BitVec.getLsbD_ushiftRight]

/-- One step XORs the upper half of the lowest `2 * w` bits into the lower half. -/
theorem xorBits_foldStep (x : Lane) (w : Nat) : xorBits (foldStep x w).getLsbD w = xorBits x.getLsbD (w + w) := by
  rw [xorBits_add, ← xorBits_xor]
  exact xorBits_congr fun k _ => getLsbD_foldStep x w k

/-- The five steps leave in bit 0 the XOR of all 32 bits. -/
theorem getLsbD_foldLane_zero (x : Lane) : (foldLane x).getLsbD 0 = xorBits x.getLsbD 32 :=
  calc
    (foldLane x).getLsbD 0 = xorBits (foldLane x).getLsbD 1 := (Finset.sum_range_one _).symm
    _ = xorBits (foldStep (foldStep (foldStep (foldStep x 16) 8) 4) 2).getLsbD 2 := xorBits_foldStep _ 1
    _ = xorBits (foldStep (foldStep (foldStep x 16) 8) 4).getLsbD 4 := xorBits_foldStep _ 2
    _ = xorBits (foldStep (foldStep x 16) 8).getLsbD 8 := xorBits_foldStep _ 4
    _ = xorBits (foldStep x 16).getLsbD 16 := xorBits_foldStep _ 8
    _ = xorBits x.getLsbD 32 := xorBits_foldStep _ 16

/-! ### The fold of the masked word -/

/-- The 128 bits of a row in four parts of 32. -/
theorem xorBits_quarters (f : Nat → Bool) :
    xorBits f 128 = (xorBits f 32 ^^ xorBits (fun k => f (32 + k)) 32 ^^ xorBits (fun k => f (64 + k)) 32 ^^
      xorBits (fun k => f (96 + k)) 32) := by
  rw [xorBits_add f 96 32, xorBits_add f 64 32, xorBits_add f 32 32]

/-- The 128 bits of a word are those of its four lanes. -/
theorem xorBits_lanes (w : Word) :
    xorBits (wordLane w 0 ^^^ wordLane w 1 ^^^ wordLane w 2 ^^^ wordLane w 3).getLsbD 32 = xorBits w.getLsbD 128 := by
  have hlane (j : Fin 4) : xorBits (wordLane w j).getLsbD 32 = xorBits (fun k => w.getLsbD (32 * j + k)) 32 :=
    xorBits_congr fun k hk => by rw [getLsbD_wordLane, decide_eq_true hk, Bool.true_and]
  simp [xorBits_bitVec_xor, xorBits_quarters, hlane]

/-- `PARITY` as one word. -/
def parityWord (c : Config) : Word := wordOfLanes c.parity[0] c.parity[1] c.parity[2] c.parity[3]

theorem wordLane_parityWord (c : Config) (j : Fin 4) : wordLane (parityWord c) j = c.parity[j] := by
  match j with
  | 0 => exact wordLane_wordOfLanes_zero ..
  | 1 => exact wordLane_wordOfLanes_one ..
  | 2 => exact wordLane_wordOfLanes_two ..
  | 3 => exact wordLane_wordOfLanes_three ..

theorem wordLane_and (v w : Word) (j : Fin 4) : wordLane (v &&& w) j = wordLane v j &&& wordLane w j :=
  BitVec.extractLsb'_and

theorem parityMasked_eq_lanes (c : Config) (S : List Word) :
    parityMasked c S =
      wordLane (storeWord S 0 &&& parityWord c) 0 ^^^ wordLane (storeWord S 0 &&& parityWord c) 1 ^^^
        wordLane (storeWord S 0 &&& parityWord c) 2 ^^^ wordLane (storeWord S 0 &&& parityWord c) 3 := by
  simp only [wordLane_and, wordLane_parityWord]
  rfl

theorem parityFold_eq_xorBits (c : Config) (S : List Word) :
    parityFold c S = xorBits (storeWord S 0 &&& parityWord c).getLsbD 128 := by
  rw [parityFold, parityInner, getLsbD_foldLane_zero, parityMasked_eq_lanes, xorBits_lanes]

/-- Settles O37: both sides are the XOR of the same 128 bits. -/
theorem parityFoldIsXorOfAllBits : Obligations.ParityFoldIsXorOfAllBits := fun c S =>
  (parityFold_eq_xorBits c S).trans (foldl_xor_eq_xorBits _ 128).symm

end Sys2Proof.Machine
end

section
/-!
SUPPORT. The correction of Period Certification (spec/43_period_certification.md R142 to R144): which bit it inverts, and that this
bit counts in the fold.
-/

namespace Sys2Proof.Machine

/-! ### The certification bit -/

theorem exists_least_setBit {p : Lane} (h : p ≠ 0) : ∃ b, p.getLsbD b = true ∧ ∀ k < b, p.getLsbD k = false := by
  have hex : ∃ b, p.getLsbD b = true := by
    by_contra hnone
    refine h (BitVec.eq_of_getLsbD_eq fun k _ => ?_)
    rw [Bool.eq_false_iff.2 fun hk => hnone ⟨k, hk⟩]
    exact BitVec.getLsbD_zero.symm
  obtain ⟨b, hset, hleast⟩ := Nat.findX hex
  exact ⟨b, hset, fun k hk => Bool.eq_false_iff.2 (hleast k hk)⟩

/-- R143: `p & (0 - p)` keeps the least significant 1 of `p` and no other bit. -/
theorem getLsbD_lowestSetBit {p : Lane} {b : Nat} (hset : p.getLsbD b = true) (hleast : ∀ k < b, p.getLsbD k = false)
    (k : Nat) : (lowestSetBit p).getLsbD k = decide (k = b) := by
  rw [lowestSetBit, show 0 - p = -p from BitVec.zero_sub p, BitVec.getLsbD_and, BitVec.getLsbD_neg]
  obtain hlt | rfl | hgt := Nat.lt_trichotomy k b
  · simp [hleast k hlt, hlt.ne]
  · have hnone : ¬ ∃ j < k, p.getLsbD j = true := fun ⟨j, hj, h⟩ => by simp [hleast j hj] at h
    simp [hset, hnone]
  · have hsome : ∃ j < k, p.getLsbD j = true := ⟨b, hgt, hset⟩
    by_cases hk : k < 32
    · simp [hsome, hk, hgt.ne']
    · simp [hgt.ne', BitVec.getLsbD_of_ge p k (by omega)]

/-- R143: `i` is the first lane whose parity word is not 0, and `b` is the place of that word's least significant 1. -/
structure CertificationBit (c : Config) (i : Fin 4) (b : Nat) : Prop where
  index : parityIndex c = some i
  first : ∀ j < i, c.parity[j] = 0
  set : (c.parity[i]).getLsbD b = true
  least : ∀ k < b, (c.parity[i]).getLsbD k = false

theorem CertificationBit.lt {c : Config} {i : Fin 4} {b : Nat} (h : CertificationBit c i b) : b < 32 :=
  BitVec.lt_of_getLsbD h.set

theorem parityIndex_eq_find (c : Config) : parityIndex c = Fin.find? fun i => decide (c.parity[i] ≠ 0) := by
  unfold parityIndex
  generalize (fun i : Fin 4 => decide (c.parity[i] ≠ 0)) = p
  revert p
  decide

theorem parityIndex_eq_some {c : Config} {i : Fin 4} :
    parityIndex c = some i ↔ c.parity[i] ≠ 0 ∧ ∀ j < i, c.parity[j] = 0 := by
  rw [parityIndex_eq_find, Fin.find?_eq_some_iff]
  simp

/-- `PARITY` is not zero (R5), so every configuration has its bit. -/
theorem exists_certificationBit (c : Config) : ∃ i b, CertificationBit c i b := by
  cases hi : parityIndex c with
  | none =>
    rw [parityIndex_eq_find] at hi
    have hzero : ∀ j : Fin 4, c.parity[j] = 0 := fun j => by
      simpa using Fin.find?_eq_none_iff.1 hi j
    exact absurd (Vector.ext fun j hj => (hzero ⟨j, hj⟩).trans (by revert j; decide)) c.parityNonzero
  | some i =>
    obtain ⟨hnonzero, hfirst⟩ := parityIndex_eq_some.1 hi
    obtain ⟨b, hset, hleast⟩ := exists_least_setBit hnonzero
    exact ⟨i, b, hi, hfirst, hset, hleast⟩

/-! ### The corrected store -/

section
variable {c : Config} {i : Fin 4} {b : Nat} {S : List Word}

/-- R143: lane by lane, the correction inverts the certification bit and no other. -/
theorem getLsbD_correctStore (h : CertificationBit c i b) (hl : 0 < S.length) (L k : Nat) :
    (storeLane (correctStore c S) L).getLsbD k = ((storeLane S L).getLsbD k ^^ decide (L = i.val ∧ k = b)) := by
  have hi : i.val / 4 < S.length := by omega
  rw [correctStore, h.index, storeLane_setStoreLane _ _ _ _ hi]
  by_cases hL : i.val = L
  · subst hL
    rw [if_pos rfl, BitVec.getLsbD_xor, getLsbD_lowestSetBit h.set h.least]
    simp
  · simp [hL, Ne.symm hL]

theorem getLsbD_storeWord_zero (S : List Word) {k : Nat} (hk : k < 128) :
    (storeWord S 0).getLsbD k = (storeLane S (k / 32)).getLsbD (k % 32) := by
  rw [getLsbD_eq_wordLane _ hk, storeLane, Nat.div_eq_of_lt (by omega : k / 32 < 4)]

theorem getLsbD_parityWord_certificationBit (h : CertificationBit c i b) : (parityWord c).getLsbD (32 * i + b) = true := by
  have := getLsbD_wordLane (parityWord c) i b
  rw [wordLane_parityWord, h.set, decide_eq_true h.lt, Bool.true_and] at this
  exact this.symm

/-- The certification bit lies under `PARITY`: inverting it inverts the fold (R144). -/
theorem parityFold_correctStore (hl : 0 < S.length) : parityFold c (correctStore c S) = !parityFold c S := by
  obtain ⟨i, b, h⟩ := exists_certificationBit c
  have hb := h.lt
  have hbit : ∀ k < 128, (storeWord (correctStore c S) 0 &&& parityWord c).getLsbD k =
      ((storeWord S 0 &&& parityWord c).getLsbD k ^^ (decide (k = 32 * i + b) && (parityWord c).getLsbD k)) := by
    intro k hk
    have hpos : (k / 32 = i.val ∧ k % 32 = b) ↔ k = 32 * i + b := by omega
    rw [BitVec.getLsbD_and, BitVec.getLsbD_and, getLsbD_storeWord_zero _ hk, getLsbD_storeWord_zero _ hk,
      getLsbD_correctStore h hl, Bool.and_xor_distrib_right, decide_eq_decide.2 hpos]
  rw [parityFold_eq_xorBits, parityFold_eq_xorBits, xorBits_congr hbit, xorBits_xor, xorBits_single _ (by omega),
    getLsbD_parityWord_certificationBit h, Bool.xor_true]

end

theorem store_pos {c : Config} {S : List Word} (hl : S.length = c.n) : 0 < S.length := by
  have := two_le_n c
  omega

theorem certifyStore_of_fold {c : Config} {S : List Word} (h : parityFold c S = true) : certifyStore c S = S := if_pos h

theorem certifyStore_of_not_fold {c : Config} {S : List Word} (h : parityFold c S = false) :
    certifyStore c S = correctStore c S := if_neg (by simp [h])

/-- Settles O38: the bit is the certification bit of the configuration. -/
theorem certificationFlipsOneBit : Obligations.CertificationFlipsOneBit := by
  refine ⟨fun _ _ => certifyStore_of_fold, fun c S hl hfold => ?_, by decide, by decide, by decide, by decide⟩
  obtain ⟨i, b, h⟩ := exists_certificationBit c
  refine ⟨i, b, h.first, h.lt, h.set, h.least, (certifyStore_length c S).trans hl, fun L _ k _ => ?_⟩
  rw [certifyStore_of_not_fold hfold, getLsbD_correctStore h (store_pos hl)]

theorem parityFold_certifyStore {c : Config} {S : List Word} (hl : S.length = c.n) :
    parityFold c (certifyStore c S) = true := by
  cases hfold : parityFold c S with
  | true => rwa [certifyStore_of_fold hfold]
  | false => rw [certifyStore_of_not_fold hfold, parityFold_correctStore (store_pos hl), hfold, Bool.not_false]

/-- Settles O39: with fold 1 a run writes nothing, so the second finds its work done. -/
theorem certificationPostcondition : Obligations.CertificationPostcondition := fun _ _ hl =>
  ⟨parityFold_certifyStore hl, certifyStore_of_fold (parityFold_certifyStore hl)⟩

end Sys2Proof.Machine
end

section
/-!
SUPPORT. The State Store that SEED and SEEDARR leave is certified (spec/43_period_certification.md R140, R145).
-/

namespace Sys2Proof.Machine

theorem microSteps_storeLength (k : Nat) (s : State) : (microSteps k s).store.length = s.store.length := by
  induction k generalizing s with
  | zero => rfl
  | succ k ih => rw [microSteps_succ, ih, (microStep_writes s).storeLength]

/-- No command changes the number of words of the State Store (R20). -/
theorem exec_storeLength {i : Instr} {s t : State} (h : exec i s = .next t) : t.store.length = s.store.length := by
  cases exec_ends h with
  | busy _ => rw [reject_store]
  | rejected c _ _ => rfl
  | accepted k _ _ => rw [microSteps_storeLength, (commandEntry_frame i s (latch i s)).store]; rfl

/-- A command that ends with `OK` on an idle core has passed its checks (R172). -/
theorem checks_pass_of_ok {i : Instr} {s t : State} (hs : s.Idle) (h : exec i s = .next t) (hok : t.last = .ok) :
    ∀ c ∈ commandChecks i s, c.fails = false := by
  obtain ⟨c, hc, -, hrej, -⟩ | ⟨hpass, -⟩ := exec_cases i hs
  · obtain rfl := Host.Outcome.next.inj (h.symm.trans hrej)
    exact absurd hok (commandChecks_cause hc)
  · exact hpass

/-- R145: SEED and SEEDARR end in certification. -/
theorem store_certified {i : Instr} {s t : State} (hi : i = .seed ∨ i = .seedarr) (hs : s.Idle)
    (hl : s.store.length = s.cfg.n) (h : exec i s = .next t) (hok : t.last = .ok) :
    ∃ S, t.store = certifyStore t.cfg S := by
  rw [exec_cfg h]
  obtain rfl | rfl := hi
  · obtain ⟨u, hu, r⟩ := exec_seed hs hl
    obtain rfl := Host.Outcome.next.inj (h.symm.trans hu)
    exact ⟨_, r.store⟩
  · have hkey := checkKeyRange_passes.1 (checks_pass_of_ok hs h hok _ (List.mem_singleton_self _))
    obtain ⟨u, hu, r⟩ := exec_seedarr hs hl hkey
    obtain rfl := Host.Outcome.next.inj (h.symm.trans hu)
    exact ⟨_, r.store⟩

/-- Settles O40: the store is certified, and it has `N` words, as no command changes their number. -/
theorem seededStateIsCertified : Obligations.SeededStateIsCertified := by
  intro i s t hi hs hl h hok
  obtain ⟨S, hS⟩ := store_certified hi hs hl h hok
  have hlen : S.length = t.cfg.n := by
    rw [← certifyStore_length t.cfg, ← hS, exec_storeLength h, hl, exec_cfg h]
  rw [hS, parityFold_certifyStore hlen]

end Sys2Proof.Machine
end

section
/-!
SUPPORT. Lanes of a buffer of words in XMEM (spec/20_memory.md R51), and R156 for fills: what a fill puts into its buffer is a
function of the generator state and the count, wherever the buffer is.
-/

namespace Sys2Proof.Machine

/-- R51: lane `L` of a buffer is a lane of its word `L / 4`. -/
theorem readLane_eq_wordLane (m : Memory) (base L : Nat) :
    m.readLane (base + L) = wordLane (m.readWord (base + 4 * (L / 4))) (Fin.ofNat 4 L) := by
  rw [wordLane_readWord, Fin.val_ofNat, Nat.add_assoc, Nat.div_add_mod]

/-- Lane `L` of the buffer of a fill. -/
theorem Filled.readLane {c : Config} {S : List Word} {m : Memory} {base words L : Nat} {t : State}
    (h : Filled c S m base words t) (hL : L / 4 < words) :
    t.xmem.readLane (base + L) = wordLane (streamWord c S (c.n + L / 4)) (Fin.ofNat 4 L) := by
  rw [readLane_eq_wordLane, h.output _ hL]

/-- Settles O28: both fills write the same stream. -/
theorem replayIgnoresBuffer : Obligations.ReplayIgnoresBuffer := by
  intro s s' r r' hcfg hstore ha0
  obtain ⟨t, ht, effect⟩ := fill32ProducesStream s r
  obtain ⟨t', ht', effect'⟩ := fill32ProducesStream s' r'
  have filled := effect.filled
  have filled' := effect'.filled
  rw [← hcfg, ← hstore, ← ha0] at filled'
  have hexact := r.countExact
  refine ⟨t, t', ht, ht', filled.store.trans filled'.store.symm, filled.cursor.trans filled'.cursor.symm, fun L hL => ?_⟩
  have hword : L / 4 < s.a0.toNat / 4 := by omega
  rw [filled.readLane hword, filled'.readLane hword]

end Sys2Proof.Machine
end

section
/-!
SUPPORT. The preconditions of EXPORT, IMPORT, CMPEQ and CMPNE (spec/44_comparator_and_image.md R157, spec/60_exceptions.md R173):
the four commands share their two checks of the region.
-/

namespace Sys2Proof.Machine

theorem checkImage_passes {s : State} : (checkImage s).fails = false ↔ ImageTrailerOk s :=
  decide_eq_false_iff_not.trans (by simp only [not_or, not_lt, not_not])

/-- The checks of the four commands, where EXPORT, CMPEQ and CMPNE find a seeded core: what stands before the two of the region
passes, and for all but EXPORT the one of the trailer stands behind them. -/
theorem commandChecks_image {i : Instr} {s : State}
    (hi : (i = .exportImage ∨ i = .cmpeq ∨ i = .cmpne) ∧ s.life ≠ .uninit ∨ i = .importImage) :
    ∃ pre post, commandChecks i s = pre ++ checkAligned s :: checkRange (imageLength s.cfg) s :: post ∧
      (∀ c ∈ pre, c.fails = false) ∧ (i ≠ .exportImage → post = [checkImage s]) := by
  have seeded (hlife : s.life ≠ .uninit) : ∀ c ∈ [checkSeeded s], c.fails = false :=
    List.forall_mem_singleton.2 (checkSeeded_passes.2 hlife)
  obtain ⟨rfl | rfl | rfl, hlife⟩ | rfl := hi
  · exact ⟨_, [], rfl, seeded hlife, fun h => absurd rfl h⟩
  · exact ⟨_, _, rfl, seeded hlife, fun _ => rfl⟩
  · exact ⟨_, _, rfl, seeded hlife, fun _ => rfl⟩
  · exact ⟨[], _, rfl, by simp, fun _ => rfl⟩

/-- Settles O12: each clause names the first check that fails in the shared list. -/
theorem imageCheckOrder : Obligations.ImageCheckOrder := by
  intro s h
  refine ⟨fun i hi hlife => exec_unseeded h hlife (by obtain rfl | rfl | rfl := hi <;> rfl), fun i hi => ?_⟩
  obtain ⟨pre, post, e, hpre, hpost⟩ := commandChecks_image hi
  refine ⟨fun ha1 => ?_, fun ha1 hrange => ?_, fun ha1 hrange htrailer hexport => ?_⟩
  · exact exec_firstFailure (c := checkAligned s) h e hpre (decide_eq_true ha1)
  · refine exec_firstFailure (pre := pre ++ [checkAligned s]) (c := checkRange (imageLength s.cfg) s) (post := post) h
      (by simp [e]) (List.forall_mem_append.2 ⟨hpre, ?_⟩) (decide_eq_true hrange)
    simp [checkAligned_passes, ha1]
  · obtain rfl := hpost hexport
    refine exec_firstFailure (pre := pre ++ [checkAligned s, checkRange (imageLength s.cfg) s]) (c := checkImage s)
      (post := []) h (by simp [e]) (List.forall_mem_append.2 ⟨hpre, ?_⟩)
      (eq_true_of_ne_false (mt checkImage_passes.1 htrailer))
    simp [checkAligned_passes, checkRange_passes, imageLength, ha1, hrange]

end Sys2Proof.Machine
end

section
/-!
SUPPORT. EXPORT, IMPORT, CMPEQ and CMPNE from accept to completion (spec/44_comparator_and_image.md R150 to R156), from the loop
lemmas of Laws/ImageLoop.lean.
-/

namespace Sys2Proof.Machine

/-! ### EXPORT -/

/-- What a completed EXPORT leaves (R150, R152): the image at `A1`, and nothing else changed but `LAST`, the latches and `IDX`. -/
structure Exported (s t : State) : Prop where
  frame : t = { latch .exportImage s with xmem := t.xmem, last := .ok, idx := t.idx }
  words : ∀ k < s.cfg.n, t.xmem.readWord (s.a1.toNat + 4 * k) = storeWord s.store k
  trailer : t.xmem.readWord (s.a1.toNat + s.cfg.n32) = trailerWord s.cursor
  outside : ∀ b, b < 4 * s.a1.toNat ∨ 4 * (s.a1.toNat + 4 * (s.cfg.n + 1)) ≤ b → t.xmem.readByte b = s.xmem.readByte b
  memoryForm : t.xmem.wf

/-- EXPORT whose preconditions hold runs its loop to the end. -/
theorem exec_export {s : State} (h : s.Idle) (hm : s.xmem.wf) (hlife : s.life ≠ .uninit) (ha1 : s.a1.toNat % 4 = 0)
    (hrange : s.a1.toNat + 4 * (s.cfg.n + 1) ≤ s.cfg.xlanes) :
    ∃ t, exec .exportImage s = .next t ∧ Exported s t := by
  have hpass : ∀ c ∈ commandChecks .exportImage s, c.fails = false := by
    simp [commandChecks, exportChecks, checkSeeded_passes, checkAligned_passes, checkRange_passes, imageLength, hlife, ha1,
      hrange]
  have done : ExportDone _ (microSteps (microCount .exportImage s) (commandEntry .exportImage s (latch .exportImage s))) :=
    export_done (s := enterExport (latch .exportImage s)) hm rfl rfl
  refine ⟨_, (exec_enters h (firstFailure_none.2 hpass)).1, ?_, done.words, done.trailer, done.outside, done.wf⟩
  obtain ⟨hbusy, hphase⟩ := h
  rw [done.state, ← hbusy, ← hphase]
  rfl

section
variable {s t : State}

theorem Exported.cfg (h : Exported s t) : t.cfg = s.cfg := by rw [h.frame]; rfl

theorem Exported.store (h : Exported s t) : t.store = s.store := by rw [h.frame]; rfl

theorem Exported.cursor (h : Exported s t) : t.cursor = s.cursor := by rw [h.frame]; rfl

theorem Exported.life (h : Exported s t) : t.life = s.life := by rw [h.frame]; rfl

theorem Exported.a1 (h : Exported s t) : t.a1 = s.a1 := by rw [h.frame]; rfl

/-- R150: the four lanes of the trailer of an exported image. -/
theorem Exported.readLane_trailer (h : Exported s t) (j : Fin 4) :
    t.xmem.readLane (s.a1.toNat + s.cfg.n32 + j.val) = wordLane (trailerWord s.cursor) j := by
  rw [← wordLane_readWord, h.trailer]

/-- R150, R21: the lanes of the State Store in an exported image. -/
theorem Exported.readLane_store (h : Exported s t) {L : Nat} (hL : L < s.cfg.n32) :
    t.xmem.readLane (s.a1.toNat + L) = storeLane s.store L := by
  have hn32 := n32_eq s.cfg
  rw [readLane_eq_wordLane, h.words _ (by omega)]
  rfl

end

/-- Settles O41: the words, the lanes and the trailer of the image that the loop leaves. -/
theorem exportWritesImage : Obligations.ExportWritesImage := by
  intro s h _ hm hlife ha1 hrange
  obtain ⟨t, ht, exported⟩ := exec_export h hm hlife ha1 hrange
  refine ⟨t, ht, exported.frame, exported.words, fun L hL => exported.readLane_store hL, ?_, ?_, ?_, ?_, exported.outside,
    exported.memoryForm⟩
  · exact (exported.readLane_trailer 0).trans (wordLane_wordOfLanes_zero ..)
  · exact (exported.readLane_trailer 1).trans (wordLane_wordOfLanes_one ..)
  · exact (exported.readLane_trailer 2).trans (wordLane_wordOfLanes_two ..)
  · exact (exported.readLane_trailer 3).trans (wordLane_wordOfLanes_three ..)

/-! ### IMPORT -/

theorem imageTrailer_cursor (s : State) : wordLane (imageTrailer s) 0 = s.xmem.readLane (s.a1.toNat + s.cfg.n32) :=
  wordLane_readWord ..

/-- The checks of IMPORT, which CMPEQ and CMPNE make too (R157). -/
theorem importChecks_pass {s : State} (h : ImageOk s) : ∀ c ∈ importChecks s, c.fails = false := by
  obtain ⟨ha1, hrange, htrailer⟩ := h
  exact List.forall_mem_cons.2 ⟨checkAligned_passes.2 ha1, List.forall_mem_cons.2
    ⟨checkRange_passes.2 hrange, List.forall_mem_singleton.2 (checkImage_passes.2 htrailer)⟩⟩

/-- Settles O42: the checks pass, and the loop copies the image. -/
theorem importLoadsImage : Obligations.ImportLoadsImage := by
  intro s h hl himage
  have hexec := (exec_enters (i := .importImage) h (firstFailure_none.2 (importChecks_pass himage))).1
  have hrun := import_done (s := enterImport (latch .importImage s)) hl rfl rfl
  refine ⟨_, hexec.trans (congrArg _ hrun), ?_⟩
  obtain ⟨hbusy, hphase⟩ := h
  rw [← hbusy, ← hphase, ← imageTrailer_cursor]
  rfl

/-! ### CMPEQ and CMPNE -/

theorem compareResult_cmpeq (racc : Lane) :
    compareResult Instr.cmpeq.opcode racc = if racc.getLsbD 0 then 1 else 0 :=
  if_neg (by decide)

theorem compareResult_cmpne (racc : Lane) :
    compareResult Instr.cmpne.opcode racc = if racc.getLsbD 0 then 0 else 1 :=
  if_pos rfl

/-- R154: COMPARE starts with the comparison of the two cursors. -/
theorem enterCompare_bit (s : State) :
    (enterCompare s).racc.getLsbD 0 = decide (s.cursor = wordLane (imageTrailer s) 0) := by
  simp only [enterCompare, enterPhase_racc]
  split <;> simp [*]

/-- A comparison whose checks pass completes; `RESULT` is read from `RACC`, whose bit 0 says whether generator state and image
are equal (R151, R154). -/
theorem exec_compare {i : Instr} {s : State} (h : s.Idle) (hl : s.store.length = s.cfg.n) (hlife : s.life ≠ .uninit)
    (himage : ImageOk s) (hchecks : commandChecks i s = compareChecks s) (hentry : commandEntry i s = enterCompare)
    (hmicro : microCount i s = s.cfg.n) :
    ∃ t, exec i s = .next t ∧ t.racc.getLsbD 0 = decide (imageEqual s) ∧
      t = { latch i s with
            result := compareResult i.opcode t.racc
            last := .ok
            curl := s.xmem.readLane (s.a1.toNat + s.cfg.n32)
            racc := t.racc
            idx := t.idx } := by
  have hpass : ∀ c ∈ commandChecks i s, c.fails = false :=
    hchecks ▸ List.forall_mem_cons.2 ⟨checkSeeded_passes.2 hlife, importChecks_pass himage⟩
  have hexec := (exec_enters h (firstFailure_none.2 hpass)).1
  obtain ⟨racc, hbit, hrun⟩ := compare_done (s := enterCompare (latch i s)) hl rfl rfl
  obtain ⟨hbusy, hphase⟩ := h
  rw [hentry, hmicro] at hexec
  refine ⟨_, hexec.trans (congrArg _ hrun), ?_, ?_⟩
  · rw [hbit, enterCompare_bit]
    exact (Bool.decide_and _ _).symm
  · rw [← hbusy, ← hphase, ← imageTrailer_cursor]
    rfl

/-- Settles O43: bit 0 of `RACC` is the equality, and the opcode says which way round `RESULT` gives it. -/
theorem compareAnswersEquality : Obligations.CompareAnswersEquality := by
  intro s h hl hlife himage
  obtain ⟨t, ht, hbit, frame⟩ := exec_compare (i := .cmpeq) h hl hlife himage rfl rfl rfl
  obtain ⟨t', ht', hbit', frame'⟩ := exec_compare (i := .cmpne) h hl hlife himage rfl rfl rfl
  rw [compareResult_cmpeq, hbit] at frame
  rw [compareResult_cmpne, hbit'] at frame'
  simp only [decide_eq_true_eq] at frame frame'
  exact ⟨⟨t, ht, frame⟩, ⟨t', ht', frame'⟩⟩

/-! ### An exported image read back -/

section
variable {s t : State}

/-- The trailer of an exported image is the one of its own core (R152). -/
theorem Exported.imageTrailer (h : Exported s t) : imageTrailer t = trailerWord s.cursor := by
  rw [Machine.imageTrailer, h.a1, h.cfg, h.trailer]

/-- R156: an exported image holds the generator state of its own core. -/
theorem Exported.imageEqual (h : Exported s t) (hl : s.store.length = s.cfg.n) : imageEqual t := by
  rw [Machine.imageEqual, h.imageTrailer, h.cursor, h.store, h.cfg, h.a1]
  refine ⟨(wordLane_wordOfLanes_zero ..).symm, store_ext (hl.trans (imageStore_length ..).symm) fun k hk => ?_⟩
  have hk : k < s.cfg.n := hl ▸ hk
  rw [storeWord_imageStore _ _ _ hk, h.words _ hk]

/-- An exported image passes the checks of R157: its cursor is at most `N32` (R23). -/
theorem Exported.imageOk (h : Exported s t) (hcursor : s.cursor.toNat ≤ s.cfg.n32) (ha1 : s.a1.toNat % 4 = 0)
    (hrange : s.a1.toNat + 4 * (s.cfg.n + 1) ≤ s.cfg.xlanes) : ImageOk t := by
  rw [ImageOk, ImageTrailerOk, h.imageTrailer, h.cfg, h.a1]
  exact ⟨ha1, hrange, by simpa [trailerWord] using hcursor⟩

end

/-- Settles O44: the exported image passes the checks and holds the generator state. -/
theorem exportThenCompareAndImport : Obligations.ExportThenCompareAndImport := by
  intro s inv h hlife ha1 hrange
  obtain ⟨t, ht, exported⟩ := exec_export h inv.memoryForm hlife ha1 hrange
  have hidle := exec_idle h ht
  have hlifet : t.life ≠ .uninit := exported.life ▸ hlife
  have hl : t.store.length = t.cfg.n := by rw [exported.store, exported.cfg, inv.storeLength]
  have himage := exported.imageOk inv.cursorRange ha1 hrange
  have hequal := exported.imageEqual inv.storeLength
  obtain ⟨⟨u, hu, frameu⟩, ⟨v, hv, framev⟩⟩ := compareAnswersEquality t hidle hl hlifet himage
  obtain ⟨w, hw, framew⟩ := importLoadsImage t hidle hl himage
  rw [if_pos hequal] at frameu framev
  have hstore : w.store = s.store := calc
    w.store = imageStore t.cfg t.xmem t.a1.toNat := congrArg State.store framew
    _ = t.store := hequal.2.symm
    _ = s.store := exported.store
  have hcursor : w.cursor = s.cursor := calc
    w.cursor = t.xmem.readLane (t.a1.toNat + t.cfg.n32) := congrArg State.cursor framew
    _ = wordLane (imageTrailer t) 0 := (imageTrailer_cursor t).symm
    _ = t.cursor := hequal.1.symm
    _ = s.cursor := exported.cursor
  exact ⟨t, u, v, w, ht, hu, congrArg State.result frameu, congrArg State.last frameu, hv, congrArg State.result framev,
    congrArg State.last framev, hw, hstore, hcursor, congrArg State.life framew, congrArg State.last framew⟩

end Sys2Proof.Machine
end

section
/-!
SUPPORT. The accessors from accept to completion (spec/45_accessors.md R160 to R163): "the accept step is also the completion step"
(R36), so that a command which passes its checks is its entry alone.
-/

namespace Sys2Proof.Machine

/-- R76: an accessor that passes its checks completes in its accept step, with no micro-step after it (R202). -/
theorem exec_accessor {i : Instr} {s : State} (hi : isAccessor i = true) (h : s.Idle)
    (hc : ∀ c ∈ commandChecks i s, c.fails = false) : exec i s = .next (commandEntry i s (latch i s)) := by
  have hentry := entry_running h hc
  rw [if_pos hi] at hentry
  obtain ⟨-, hcount⟩ := hentry
  rw [(exec_enters h (firstFailure_none.2 hc)).1, hcount, microSteps]

theorem checkByteIndex_passes {s : State} : (checkByteIndex s).fails = false ↔ s.a0.toNat < s.cfg.idstr.length :=
  decide_eq_false_iff_not.trans Nat.not_le

/-- Settles O18: the three make no check, and `N64` is `2 * N`. -/
theorem sizeAccessorsComplete : Obligations.SizeAccessorsComplete := by
  refine ⟨fun s h => ⟨?idlen, ?minsz32, ?minsz64⟩, by decide, by decide, by decide, by decide, by decide, by decide⟩
  case idlen => exact exec_accessor (i := .idlen) rfl h (List.forall_mem_nil _)
  case minsz32 => exact exec_accessor (i := .minsz32) rfl h (List.forall_mem_nil _)
  case minsz64 =>
    rw [← n64_eq]
    exact exec_accessor (i := .minsz64) rfl h (List.forall_mem_nil _)

/-- Settles O19: the one check passes, and the default of the model's read is not reached. -/
theorem idbyteReadsOneByte : Obligations.IdbyteReadsOneByte := by
  intro s hindex h
  rw [← List.getD_eq_getElem _ 0 hindex]
  exact exec_accessor (i := .idbyte) rfl h (List.forall_mem_singleton.2 (checkByteIndex_passes.2 hindex))

end Sys2Proof.Machine
end

section
/-!
SUPPORT. The two outcomes of a command on an idle core (spec/60_exceptions.md R172, R175).
-/

namespace Sys2Proof.Machine

/-- Settles O14: on an idle core a command is rejected by a failing check, whose cause is not `OK`, or it completes, and a
completed command holds `LAST = OK`. -/
theorem rejectedCommandChangesNothing : Obligations.RejectedCommandChangesNothing := by
  intro i s t hidle ht hlast
  obtain ⟨c, hc, -, hrejected⟩ | ⟨-, hdone, -⟩ := exec_outcome hidle ht
  · exact ⟨c.cause, c.info, commandChecks_cause hc, hrejected⟩
  · exact absurd hdone.last hlast

end Sys2Proof.Machine
end

section
/-!
SUPPORT. Reset and the durations of commands (spec/70_reset_and_hazards.md R190, R191, R202, R203): a command that is running
after its accept step has all its micro-steps to come, and a reset turn ends whatever runs.
-/

namespace Sys2Proof.Machine

/-- R202: right after its accept step a command that runs has all the micro-steps of the table to come. A rejected command and
an accessor do not run. -/
theorem acceptCommand_running {i : Instr} {s : State} (h : s.Idle) (hb : (acceptCommand i s).busy = true) :
    Running (acceptCommand i s) ∧ remaining (acceptCommand i s) = microCount i s := by
  obtain ⟨c, -, -, -, hrejected⟩ | ⟨hc, -, hentered⟩ := exec_cases i h
  · rw [hrejected] at hb
    exact absurd (h.1.symm.trans hb) Bool.false_ne_true
  · rw [hentered] at hb ⊢
    have hentry := entry_running h hc
    split at hentry
    · exact absurd (hentry.1.busy.symm.trans hb) Bool.false_ne_true
    · exact hentry

/-- Settles O50: a running command completes after exactly the micro-steps that remain, and these are the table's. -/
theorem microStepCountsAreExact : Obligations.MicroStepCountsAreExact := by
  intro s i h hb
  obtain ⟨hrun, hcount⟩ := acceptCommand_running h hb
  obtain ⟨hdone, hbefore⟩ := running_completes hrun
  rw [hcount] at hdone hbefore
  exact ⟨fun k hk => (hbefore k hk).busy, hdone.busy, hdone.last⟩

/-- R34, R39: every field of `STATUS` has code 0 after a reset. -/
@[simp] theorem statusView_resetCore (s : State) : statusView (resetCore s) = 0 := by
  simp [statusView, lifeCode, causeCode, phaseCode]

/-- R190: a reset turn resets the core, whether or not a command runs. -/
theorem step_reset {s : State} {rest : List Turn} (h : s.script = .host .reset :: rest) :
    step s = .next (resetCore (s.withScript rest)) := step_host h nofun

/-- Settles O17: the next state is `resetCore` of the state with its turn taken, whose fields are those of R39. -/
theorem resetFromAnyState : Obligations.ResetFromAnyState := by
  intro s rest h
  exact ⟨resetCore (s.withScript rest), step_reset h, by simp [State.withScript]⟩

end Sys2Proof.Machine
end
